-- ==== Sys2Proof/Word.lean ====
section
/-! DEFINITION. The words and value types of GRIN-CORE: the widths of `00_scope.md` rules R6 and R7 that
software or a register sees as bits, and the abstract tree of rule R12. -/

namespace Sys2Proof

/-- A source or decoded byte, `BYTE_W = 8` (R6). -/
abbrev Byte := BitVec 8

/-- A host register or a value written to or read from one (R27). -/
abbrev Word := BitVec 32

/-- A symbol, `SYM_W = 9` (R6): 0 to 255 are byte values, 256 is the end-of-stream sentinel. -/
abbrev Sym := BitVec 9

/-- A node index, `IDX_W = 10` (R7). -/
abbrev NodeIdx := BitVec 10

/-- A code length, `LEN_W = 9` (R7): 0 to 256. -/
abbrev CodeLen := BitVec 9

/-- A code value, `CODE_W = 256` (R7). -/
abbrev CodeVal := BitVec 256

/-- The abstract tree of R12: a leaf holds exactly one symbol, an internal node exactly two children. -/
inductive CodeTree where
  | leaf (sym : Sym)
  | node (left right : CodeTree)
deriving DecidableEq, Repr

end Sys2Proof
end

