-- ==== Sys2Proof/Config.lean ====
section
/-! DEFINITION. What is fixed for one block: the parameters the spec fixes (R6, R7), and the ones it leaves
OPEN (R8), which are opaque constants without a body so that no proof can see their values. -/

namespace Sys2Proof.Config

/-- `NSYM = 257` (R6): the number of symbol values. -/
def nsym : Nat := 257

/-- `EOS = 256` (R6): the end-of-stream sentinel. -/
def eos : Nat := 256

/-- `NODE_CAP = 513` (R7, D10): the cells of the node memory. -/
def nodeCap : Nat := 513

/-- `MAGIC` (R8, D4; log entry 1): OPEN, a 32-bit constant whose digits the source never gives. -/
opaque magic : Word

/-- The OPEN choice behind `CNT_W` (R8, D12; log entry 2), as a free value. -/
opaque countWidthChoice : Option Nat

/-- `CNT_W` (R8): `some n` is a width of `n` bits, at least 1; `none` is the case `CNT_W = infinity`. -/
def countWidth : Option Nat := countWidthChoice.map (· + 1)

/-- What a host read of `CAUSE`, `FINFO`, `ROOT` or `NNODES` returns while `STATE = BUSY` (R33; I12 of
`93_implementation_defined.md`: "must make the read a draw"; log entry 9): a free value, by register number
and by the count of such reads so far. -/
opaque busyRead : Nat → Nat → Word

end Sys2Proof.Config
end

