-- ==== Sys2Proof/Syntax.lean ====
section
/-! DEFINITION. The commands of GRINCMD version 1 (R1, R81): one constructor per row of the opcode table. No
command has an operand (R80), so no constructor has an argument. -/

namespace Sys2Proof

/-- The twelve commands (R1, R81), in the order of the opcode map. -/
inductive Instr where
  | clr
  | count
  | build
  | mktable
  | wrmagic
  | sertree
  | encpay
  | rdmagic
  | destree
  | decpay
  | encode
  | decode
deriving DecidableEq, Repr

/-- The twelve commands as a list, in the order of the opcode map of R81. -/
def Instr.all : List Instr :=
  [.clr, .count, .build, .mktable, .wrmagic, .sertree, .encpay, .rdmagic, .destree, .decpay, .encode, .decode]

end Sys2Proof
end

