-- ==== Sys2Proof/WellFormed.lean ====
section
/-! DEFINITION. What makes encoded and host-supplied data well formed: a command word (R81, R95), the open
parameters (R8), the input port's position (R41). A tree's well-formedness is in Machine/Tree.lean. -/

namespace Sys2Proof

/-- A command word is one of the twelve opcodes of R81; the other 244 words are reserved (R95). -/
def wordWf (w : Byte) : Bool :=
  (1 ≤ w.toNat && w.toNat ≤ 0x0A) || w.toNat == 0x10 || w.toNat == 0x11

/-- A command has no operand (R80), so every term of `Instr` is well formed. -/
def Instr.wf : Instr → Bool
  | .clr => true
  | .count => true
  | .build => true
  | .mktable => true
  | .wrmagic => true
  | .sertree => true
  | .encpay => true
  | .rdmagic => true
  | .destree => true
  | .decpay => true
  | .encode => true
  | .decode => true

/-- `CNT_W >= 1` (R8); the unbounded case has no width. -/
def countWidthWf : Option Nat → Bool
  | none => true
  | some n => decide (1 ≤ n)

/-- `0 <= IN.pos <= 8*|IN.bytes|` (R41). -/
def inPosWf (bytes : List Byte) (pos : Nat) : Bool := decide (pos ≤ 8 * bytes.length)

end Sys2Proof
end

