-- ==== Sys2Proof/Decode.lean ====
section
/-! DEFINITION. Decoding of command words (R80, R81, R95), total on any bytes and rejecting by name, and after
it the encoder, written from the same opcode map. -/

namespace Sys2Proof

/-- What the decoder answers. A reserved word is rejected under its own value, because `ILLEGAL_COMMAND`
reports it (R171). -/
inductive Decoded where
  | command (i : Instr) (rest : List Byte)
  | reserved (op : Byte) (rest : List Byte)
  | noWord
deriving DecidableEq, Repr

/-- The opcode map of R81: mask `0xFF`, match the `op` value; every other value is reserved (R95). -/
def decodeOp (op : Byte) : Option Instr :=
  match op.toNat with
  | 0x01 => some .clr
  | 0x02 => some .count
  | 0x03 => some .build
  | 0x04 => some .mktable
  | 0x05 => some .wrmagic
  | 0x06 => some .sertree
  | 0x07 => some .encpay
  | 0x08 => some .rdmagic
  | 0x09 => some .destree
  | 0x0A => some .decpay
  | 0x10 => some .encode
  | 0x11 => some .decode
  | _ => none

/-- Decode the first command of a byte string: all commands are one byte long (R80, R98). -/
def decode : List Byte → Decoded
  | [] => .noWord
  | op :: rest =>
    match decodeOp op with
    | some i => .command i rest
    | none => .reserved op rest

/-- The opcode byte of a command (R81). -/
def opcode : Instr → Byte
  | .clr => 0x01#8
  | .count => 0x02#8
  | .build => 0x03#8
  | .mktable => 0x04#8
  | .wrmagic => 0x05#8
  | .sertree => 0x06#8
  | .encpay => 0x07#8
  | .rdmagic => 0x08#8
  | .destree => 0x09#8
  | .decpay => 0x0A#8
  | .encode => 0x10#8
  | .decode => 0x11#8

/-- The bytes of a command: its opcode byte alone (R80). -/
def encode (i : Instr) : List Byte := [opcode i]

/-- A program's encoding is the sequence of its command bytes (R99). -/
def encodeProgram : List Instr → List Byte
  | [] => []
  | i :: is => encode i ++ encodeProgram is

/-- Read a byte string as a program; a reserved byte anywhere rejects it. -/
def decodeProgram : List Byte → Option (List Instr)
  | [] => some []
  | op :: rest =>
    match decodeOp op with
    | none => none
    | some i => (decodeProgram rest).map (i :: ·)

/-- The bytes of an instruction of `nbits` bits whose value is `w`, least significant byte first, one at
least: the table numbers the bits of later bytes on from the first byte's. -/
def tableBytes (nbits w : Nat) : List Byte :=
  (List.range (max 1 (nbits / 8))).map fun j => BitVec.ofNat 8 ((w % 2 ^ nbits) / 2 ^ (8 * j))

/-- The instruction the decoder reads from a word of the opcode table. -/
def decodeTableWord (nbits w : Nat) : Option Instr :=
  match decode (tableBytes nbits w) with
  | .command i _ => some i
  | .reserved _ _ => none
  | .noWord => none

end Sys2Proof
end

