-- ==== Sys2Proof/Machine/State.lean ====
section
/-! DEFINITION. The state of GRIN-CORE (`10_state.md`): the control state, the tree registers, the four
internal memories, the two ports, and the host port with what waits on it. Plain data throughout. -/

namespace Sys2Proof.Machine

/-- `STATUS.STATE` (R29): value 3 never occurs, so it has no constructor. -/
inductive RunState where
  | ready
  | busy
  | fault
deriving DecidableEq, Repr

/-- The eight fault causes of R180. These are the block's own exceptions, taken as next states (R192). -/
inductive Cause where
  | formatMismatch
  | malformedBitstream
  | ioFailure
  | inputError
  | illegalCommand
  | countOverflow
  | noCode
  | treeCapacity
deriving DecidableEq, Repr

/-- One cell of `NODE` (R35) without its weight: `sym` means something only in a leaf, `left` and `right`
only in an internal node. -/
inductive NodeCell where
  | leaf (sym : Sym)
  | internal (left right : NodeIdx)
deriving DecidableEq, Repr

/-- The `len` and `val` of a valid cell of `CT` (R38). -/
structure CodeCell where
  len : CodeLen
  val : CodeVal
deriving DecidableEq, Repr

/-- The parameters left OPEN (R8), fixed for one block: `magic` is what register `MAGICR` reads (R32),
`countWidth` is `CNT_W`, with `none` for infinity. -/
structure Params where
  magic : Word
  countWidth : Option Nat
deriving DecidableEq, Repr

/-- The input port (R41): the bytes the environment supplies and the number of bits consumed. `errors` holds
the environment's answers to the coming port accesses, oldest first, `true` being `error` (R55); an access
beyond the list's end is performed (log entry 3). -/
structure InPort where
  bytes : List Byte
  pos : Nat
  errors : List Bool
deriving DecidableEq, Repr

/-- The output port (R42): the bits appended so far, first bit first, and the environment's answers to the
coming accesses, as for the input port. -/
structure OutPort where
  bits : List Bool
  errors : List Bool
deriving DecidableEq, Repr

/-- What the host and the platform can do at the block's edge between commands: write or read a register
(R27), apply reset (R200), and set `IN.bytes` and `IN.pos` or `OUT` (R209, I15; log entry 7). -/
inductive HostEvent where
  | write (reg : Nat) (w : Word)
  | read (reg : Nat)
  | reset
  | setIn (bytes : List Byte) (pos : Nat)
  | setOut (bits : List Bool)
deriving DecidableEq, Repr

/-- The whole state. The memories hold nothing (`[]`) where nothing has been written since their structure
became invalid (R22, R39; log entry 4): an absent cell is not a value. -/
structure State where
  /-- `STATUS.STATE` (R29). -/
  run : RunState
  /-- `FT_V`, the frequency table is valid (R24). -/
  ftV : Bool
  /-- `TREE_V`, the tree is valid (R24). -/
  treeV : Bool
  /-- `TAB_V`, the code table is valid (R24). -/
  tabV : Bool
  /-- `CAUSE[3:0]` (R30). -/
  cause : BitVec 4
  /-- `FINFO` (R30). -/
  finfo : Word
  /-- `ROOT[9:0]` (R31). -/
  root : NodeIdx
  /-- `NNODES[9:0]` (R31). -/
  nnodes : BitVec 10
  /-- `CNT[0..256]` (R34). -/
  cnt : List Nat
  /-- `NODE[0..NODE_CAP-1]`, the fields `leaf`, `sym`, `left`, `right` (R35). -/
  node : List NodeCell
  /-- `NODE[0..NODE_CAP-1]`, the field `w` (R35), written and read by BUILD only. -/
  weight : List Nat
  /-- `LIVE[0..NODE_CAP-1]` (R37). -/
  live : List Bool
  /-- `CT[0..256]` (R38): a cell is `none` exactly when its `valid` bit is 0. -/
  ct : List (Option CodeCell)
  /-- The port `IN` (R41). -/
  inp : InPort
  /-- The port `OUT` (R42). -/
  out : OutPort
  /-- The block's parameters (R8, R32). -/
  params : Params
  /-- What the host will do next, oldest first (R170, R209; log entry 7). -/
  host : List HostEvent
  /-- The model's own: the value the host's last register read returned (log entry 8). -/
  readData : Word
  /-- The model's own: how many reads have returned an unspecified value (R33; log entry 9). -/
  openReads : Nat
deriving DecidableEq, Repr

/-- Why a step can stop (log entry 12). None of these is an exception of the block: the block's own faults are
next states. -/
inductive Fault where
  /-- ENCPAY finds no cell in `CT`, or BUILD no cell in `CNT`, although the structure's flag is 1: a cell that
  nothing has written would be read, which R22 says never happens. Safe; no state with the invariant of
  Safety.lean reaches it. -/
  | unwrittenCell
  /-- SERTREE, MKTABLE or DECPAY finds `TREE_V = 1` but `NODE` holds no tree below `ROOT`, which R35 excludes.
  Safe; no state with the invariant of Safety.lean reaches it. -/
  | nodeNotATree
  /-- The end of a loop's or recursion's bound in COUNT, BUILD, ENCPAY, DESTREE or DECPAY, or an InBits(8) that
  runs dry after InMore said yes. Safe; no state at all reaches it (R111 corner (c), R125, R134, R163). -/
  | deadBranch
deriving DecidableEq, Repr

/-- Why a step can refuse. -/
inductive Refusal where
  /-- Raised by an arm of exec that has no meaning yet. Safe. No arm is left so. -/
  | notModelled (mnemonic : String)
  /-- The environment touches `IN` or `OUT` while `STATE = BUSY`, which R66 and R209 forbid: "A model has no
  move for a third party on the ports during a command". Raised by a host event, never by a command. Safe. -/
  | portTouchedWhileBusy
  /-- The environment sets `IN.pos` beyond `8*|IN.bytes|`, a port state that R41 excludes. Raised by a host
  event, never by a command. Safe. -/
  | inPosBeyondEnd
deriving DecidableEq, Repr

/-- The state right after reset (R200 and the table at the end of `10_state.md`): `STATE = READY`, flags 0,
`CAUSE` and `FINFO` 0, `ROOT` and `NNODES` 0, `IN.pos = 0`, `OUT` empty, the memories holding nothing, and the
parameters the OPEN constants of Config. `IN.bytes` is supplied by the environment: none yet (log entry 5). -/
def State.reset : State where
  run := .ready
  ftV := false
  treeV := false
  tabV := false
  cause := 0
  finfo := 0
  root := 0
  nnodes := 0
  cnt := []
  node := []
  weight := []
  live := []
  ct := []
  inp := { bytes := [], pos := 0, errors := [] }
  out := { bits := [], errors := [] }
  params := { magic := Config.magic, countWidth := Config.countWidth }
  host := []
  readData := 0
  openReads := 0

end Sys2Proof.Machine
end

