-- ==== Sys2Proof/Machine/Tree.lean ====
section
/-! DEFINITION. The functions on the abstract tree of R12, and the tree a node memory holds. -/

namespace Sys2Proof

/-- `leaves(t)` of R12: the leaf symbols in left-to-right order. -/
def CodeTree.leaves : CodeTree → List Sym
  | .leaf s => [s]
  | .node l r => l.leaves ++ r.leaves

/-- `nodes(t)` of R12: the number of nodes. -/
def CodeTree.nodes : CodeTree → Nat
  | .leaf _ => 1
  | .node l r => 1 + l.nodes + r.nodes

/-- `height(t)` of R12. -/
def CodeTree.height : CodeTree → Nat
  | .leaf _ => 0
  | .node l r => 1 + max l.height r.height

/-- The leaves with their paths from the root, left to right (R12): `false` is a left move, `true` a right
move. -/
def CodeTree.paths : CodeTree → List (Sym × List Bool)
  | .leaf s => [(s, [])]
  | .node l r =>
    (l.paths.map fun p => (p.1, false :: p.2)) ++ (r.paths.map fun p => (p.1, true :: p.2))

/-- Every leaf's symbol is a Symbol, "an integer in [0, 256]" (R6, R35). -/
def CodeTree.symsOk (t : CodeTree) : Bool := t.leaves.all fun s => decide (s.toNat ≤ Config.eos)

/-- A tree the block can hold: at most `NODE_CAP` nodes (R7, R136) and symbols up to 256 (R35). -/
def CodeTree.wf (t : CodeTree) : Bool := decide (t.nodes ≤ Config.nodeCap) && t.symsOk

end Sys2Proof
end

