-- ==== Sys2Proof/Machine/Flags.lean ====
section
/-! DEFINITION. The three valid flags (R24 to R26), the state they make visible in `STATUS` (R29), and what
becomes of a structure when its flag is cleared (R39). -/

namespace Sys2Proof.Machine

/-- The two bits of `STATUS.STATE` (R29). -/
def RunState.bits : RunState → BitVec 2
  | .ready => 0
  | .busy => 1
  | .fault => 2

/-- `STATUS` (R29): `STATE` in bits 1:0, `FT_V`, `TREE_V`, `TAB_V` in bits 2, 3, 4, zeros above. -/
def State.statusWord (s : State) : Word :=
  s.run.bits.zeroExtend 32 ||| (BitVec.ofBool s.ftV).zeroExtend 32 <<< 2
    ||| (BitVec.ofBool s.treeV).zeroExtend 32 <<< 3 ||| (BitVec.ofBool s.tabV).zeroExtend 32 <<< 4

/-- `TAB_V <- 0`: the code table's cells become absent (R39; log entry 4). -/
def State.dropTab (s : State) : State := { s with tabV := false, ct := [] }

/-- `TREE_V <- 0; TAB_V <- 0`, the first action of BUILD and DESTREE (R25): the node cells become absent and
`ROOT` and `NNODES` read 0 (R31). `LIVE` is no part of the tree and stays (R37). -/
def State.dropTree (s : State) : State :=
  { s.dropTab with treeV := false, node := [], weight := [], root := 0, nnodes := 0 }

/-- `FT_V <- 0; TREE_V <- 0; TAB_V <- 0`, the first action of COUNT and part of CLR (R25). -/
def State.dropAll (s : State) : State := { s.dropTree with ftV := false, cnt := [] }

/-- No flag is required: CLR, COUNT, WRMAGIC, RDMAGIC, DESTREE, ENCODE, DECODE (R26). -/
def needsNothing (_ : State) : Bool := true

/-- BUILD requires `FT_V = 1` (R26). -/
def needsTable (s : State) : Bool := s.ftV

/-- MKTABLE, SERTREE and DECPAY require `TREE_V = 1` (R26). -/
def needsTree (s : State) : Bool := s.treeV

/-- ENCPAY requires `TAB_V = 1` (R26). -/
def needsTab (s : State) : Bool := s.tabV

end Sys2Proof.Machine
end

