-- ==== Sys2Proof/Machine/Operands.lean ====
section
/-! DEFINITION. Bit strings, bytes and fields (`00_scope.md` R9, `20_memory.md` R56 to R59, `30_encoding.md`
R85 to R94): the only operand forms of the block, since no command names an operand. A bit string is a list
of Booleans, first bit in stream order first. -/

namespace Sys2Proof

/-- `bits(v, n)` of R9: the `n` low bits of `v`, most significant first. -/
def bitsOf : Nat → Nat → List Bool
  | 0, _ => []
  | n + 1, v => v.testBit n :: bitsOf n v

/-- `val(s)` of R9: the unsigned value of a bit string read most significant bit first. -/
def valOf (s : List Bool) : Nat := s.foldl (fun v b => 2 * v + b.toNat) 0

/-- The bit at stream position `p` of a byte string (R57): bit `7 - (p mod 8)` of byte `floor(p/8)`. -/
def bitAt (bytes : List Byte) (p : Nat) : Option Bool :=
  (bytes[p / 8]?).map fun b => b.getLsbD (7 - p % 8)

/-- The bits of a byte string in stream order (R57, R90). -/
def unpack : List Byte → List Bool
  | [] => []
  | b :: bs => bitsOf 8 b.toNat ++ unpack bs

/-- `pack` of R58: cut into groups of 8, first bit as bit 7, the last group filled with pad bits `0`. The
number argument bounds the bytes made. -/
def packN : Nat → List Bool → List Byte
  | 0, _ => []
  | _ + 1, [] => []
  | n + 1, b :: bs =>
    let group := (b :: bs).take 8
    BitVec.ofNat 8 (valOf (group ++ List.replicate (8 - group.length) false)) :: packN n ((b :: bs).drop 8)

/-- The byte file the sink makes of `OUT` (R58). -/
def pack (bits : List Bool) : List Byte := packN bits.length bits

/-- The pre-order serialization of a tree, `Ser(t)` of R86. -/
def ser : CodeTree → List Bool
  | .leaf s => false :: bitsOf 9 s.toNat
  | .node l r => true :: (ser l ++ ser r)

/-- The magic field (R85). -/
def magicBits (magic : Word) : List Bool := bitsOf 32 magic.toNat

/-- `zext_9(b)` of a source byte (R92). -/
def symOfByte (b : Byte) : Sym := b.zeroExtend 9

end Sys2Proof
end

