-- ==== Sys2Proof/Machine/Ops.lean ====
section
/-! DEFINITION. The shared operations: fault entry (R192), the port primitives of `20_memory.md` R50 to R55
with the environment's answers, the tree a node memory holds (R12), and the issue of a command (R170). -/

namespace Sys2Proof.Machine

/-- The code of a fault in `CAUSE[3:0]` (R180). -/
def Cause.code : Cause → BitVec 4
  | .formatMismatch => 1
  | .malformedBitstream => 2
  | .ioFailure => 3
  | .inputError => 4
  | .illegalCommand => 5
  | .countOverflow => 6
  | .noCode => 7
  | .treeCapacity => 8

/-- FAULT ENTRY, `raise F(info)` of R192: exactly these three writes. -/
def faultEntry (c : Cause) (info : Word) (s : State) : State :=
  { s with cause := c.code, finfo := info, run := .fault }

/-- How a piece of a command's pseudocode ends: with a value, so that the next statement runs; at a `raise`,
with fault entry done, so that nothing after it runs (R192); or at a place no proper state reaches. -/
inductive Run (α : Type) where
  | done (a : α) (s : State)
  | ended (s : State)
  | stuck (f : Fault)

/-- One statement after another (R10): what follows a `raise` does not run. -/
def Run.andThen {α β : Type} (r : Run α) (k : α → State → Run β) : Run β :=
  match r with
  | .done a s => k a s
  | .ended s => .ended s
  | .stuck f => .stuck f

/-- `raise F(info)` (R10, R192). -/
def raise {α : Type} (c : Cause) (info : Word) (s : State) : Run α := .ended (faultEntry c info s)

/-- The input port with another position. -/
def State.withInPos (s : State) (pos : Nat) : State := { s with inp := { s.inp with pos := pos } }

/-- The input port with the environment's remaining answers. -/
def State.withInErrors (s : State) (errors : List Bool) : State :=
  { s with inp := { s.inp with errors := errors } }

/-- The output port with other content. -/
def State.withOutBits (s : State) (bits : List Bool) : State := { s with out := { s.out with bits := bits } }

/-- The output port with the environment's remaining answers. -/
def State.withOutErrors (s : State) (errors : List Bool) : State :=
  { s with out := { s.out with errors := errors } }

/-- One access of `IN` (R55): the environment may answer `error`, which raises `IO_FAILURE(0)`. -/
def inAccess (s : State) : Run Unit :=
  match s.inp.errors with
  | [] => .done () s
  | false :: rest => .done () (s.withInErrors rest)
  | true :: rest => raise .ioFailure 0 (s.withInErrors rest)

/-- One access of `OUT` (R55): the environment may answer `error`, which raises `IO_FAILURE(1)`. -/
def outAccess (s : State) : Run Unit :=
  match s.out.errors with
  | [] => .done () s
  | false :: rest => .done () (s.withOutErrors rest)
  | true :: rest => raise .ioFailure 1 (s.withOutErrors rest)

/-- `InMore()` (R50). -/
def inMore (s : State) : Run Bool :=
  (inAccess s).andThen fun _ s => .done (decide (s.inp.pos < 8 * s.inp.bytes.length)) s

/-- `InBit()` (R51): `none` is the answer `exhausted`. -/
def inBit (s : State) : Run (Option Bool) :=
  (inAccess s).andThen fun _ s =>
    match bitAt s.inp.bytes s.inp.pos with
    | none => .done none s
    | some b => .done (some b) (s.withInPos (s.inp.pos + 1))

/-- The loop of `InBits(n)` (R52), `v` being the value read so far. -/
def inBitsFrom : Nat → Nat → State → Run (Option Nat)
  | 0, v, s => .done (some v) s
  | n + 1, v, s =>
    (inBit s).andThen fun b s =>
      match b with
      | none => .done none s
      | some b => inBitsFrom n (v * 2 + b.toNat) s

/-- `InBits(n)` (R52). -/
def inBits (n : Nat) (s : State) : Run (Option Nat) := inBitsFrom n 0 s

/-- `InRewind()` (R53). -/
def inRewind (s : State) : Run Unit := (inAccess s).andThen fun _ s => .done () (s.withInPos 0)

/-- `OutBit(b)` (R54). -/
def outBit (b : Bool) (s : State) : Run Unit :=
  (outAccess s).andThen fun _ s => .done () (s.withOutBits (s.out.bits ++ [b]))

/-- Successive `OutBit`s, one port access each (R54); the empty string is no access. -/
def outString : List Bool → State → Run Unit
  | [], s => .done () s
  | b :: bs, s => (outBit b s).andThen fun _ s => outString bs s

/-- `OutBits(v, n)` (R54). -/
def outBits (v n : Nat) (s : State) : Run Unit := outString (bitsOf n v) s

/-- `OutReset()` (R54). -/
def outReset (s : State) : Run Unit := (outAccess s).andThen fun _ s => .done () (s.withOutBits [])

/-- `TreeAt(i)` of R12, to a depth below the bound: none where the cells hold no tree. -/
def treeAt : Nat → List NodeCell → Nat → Option CodeTree
  | 0, _, _ => none
  | n + 1, m, i =>
    match m[i]? with
    | none => none
    | some (.leaf s) => some (.leaf s)
    | some (.internal l r) =>
      match treeAt n m l.toNat, treeAt n m r.toNat with
      | some tl, some tr => some (.node tl tr)
      | _, _ => none

/-- `TREE = TreeAt(ROOT)` (R12; log entry 12). -/
def State.tree (s : State) : Option CodeTree := treeAt Config.nodeCap s.node s.root.toNat

/-- The end of a command (R170): `STATE <- READY`, reached only if nothing raised. -/
def complete (r : Run Unit) : Host.Outcome State Fault Refusal :=
  match r with
  | .done _ s => .next { s with run := .ready }
  | .ended s => .next s
  | .stuck f => .fault f

/-- Issue of a command other than CLR (R170): lost in `BUSY` and in `FAULT` (R174); in `READY` refused with
`ILLEGAL_COMMAND(op)` before anything else if its flag is 0 (R173), and otherwise run. -/
def issue (op : Byte) (enabled : State → Bool) (body : State → Run Unit) (s : State) :
    Host.Outcome State Fault Refusal :=
  match s.run with
  | .busy => .next s
  | .fault => .next s
  | .ready =>
    if enabled s then complete (body { s with run := .busy })
    else .next (faultEntry .illegalCommand (op.zeroExtend 32) s)

/-- Issue of CLR (R170, R175): taken in `READY` and in `FAULT`, lost in `BUSY`. -/
def issueClr (body : State → Run Unit) (s : State) : Host.Outcome State Fault Refusal :=
  match s.run with
  | .busy => .next s
  | .fault => complete (body { s with run := .busy })
  | .ready => complete (body { s with run := .busy })

/-- Issue of a reserved opcode (R170, R171): lost in `BUSY` and `FAULT`, `ILLEGAL_COMMAND(op)` in `READY`. -/
def issueReserved (op : Byte) (s : State) : Host.Outcome State Fault Refusal :=
  match s.run with
  | .busy => .next s
  | .fault => .next s
  | .ready => .next (faultEntry .illegalCommand (op.zeroExtend 32) s)

/-- RETURN FROM A FAULT, the body of CLR (R175, R195), the only way out of `FAULT` beside reset. -/
def clrBody (s : State) : Run Unit :=
  (inRewind ({ s with cause := 0, finfo := 0 } : State).dropAll).andThen fun _ s => outReset s

/-- The reset input (R200), in any state. -/
def applyReset (s : State) : State :=
  { s.dropAll with
    run := .ready, cause := 0, finfo := 0, live := []
    inp := { s.inp with pos := 0 }, out := { s.out with bits := [] } }

end Sys2Proof.Machine
end

