-- ==== Sys2Proof/Machine/Builder.lean ====
section
/-! DEFINITION. The Tree Builder, BUILD (`41_tree_builder.md` R120 to R128): greedy merging out of a priority
queue ordered by (weight, node index). -/

namespace Sys2Proof.Machine

/-- What BUILD works on: `NODE` without `w`, `NODE[i].w`, and `LIVE`. -/
structure Pool where
  node : List NodeCell
  weight : List Nat
  live : List Bool
deriving DecidableEq, Repr

/-- The symbols of the table with their counts, ascending (R121: "seed one leaf per table entry"); the number
is the symbol of the list's first cell. -/
def tableEntries : Nat → List Nat → List (Nat × Nat)
  | _, [] => []
  | sym, c :: cs => if c ≠ 0 then (sym, c) :: tableEntries (sym + 1) cs else tableEntries (sym + 1) cs

/-- The pool after the seeding loop of R121: a leaf for each entry, its weight its count, alive. -/
def seedPool (cnt : List Nat) : Pool :=
  let entries := tableEntries 0 cnt
  { node := entries.map fun e => .leaf (BitVec.ofNat 9 e.1)
    weight := entries.map fun e => e.2
    live := List.replicate entries.length true ++ List.replicate (Config.nodeCap - entries.length) false }

/-- The live node whose pair (weight, index) is least (R122), as that pair; the number is the index of the
lists' first cells. -/
def leastLive : Nat → List Bool → List Nat → Option (Nat × Nat)
  | i, b :: bs, w :: ws =>
    match leastLive (i + 1) bs ws with
    | none => if b then some (w, i) else none
    | some (w', j) => if b && decide (w ≤ w') then some (w, i) else some (w', j)
  | _, _, _ => none

/-- `ExtractMin()` (R121, R122): the weight and the index of the node taken, and the pool without it. -/
def extractMin (p : Pool) : Option (Nat × Nat × Pool) :=
  match leastLive 0 p.live p.weight with
  | none => none
  | some (w, i) => some (w, i, { p with live := p.live.set i false })

/-- The new internal node of a merge (R121, R124): the first node extracted is the left child. -/
def mergeNode (wa a wb b : Nat) (p : Pool) : Pool :=
  { node := p.node ++ [.internal (BitVec.ofNat 10 a) (BitVec.ofNat 10 b)]
    weight := p.weight ++ [wa + wb]
    live := p.live.set p.node.length true }

/-- One pass of BUILD's loop (R121). -/
def mergeStep (p : Pool) : Option Pool :=
  match extractMin p with
  | none => none
  | some (wa, a, p1) =>
    match extractMin p1 with
    | none => none
    | some (wb, b, p2) => some (mergeNode wa a wb b p2)

/-- The loop of BUILD (R121): while more than one node is live. Each pass lowers their number by one (R125),
so the bound, the number of entries, is not reached. -/
def mergeLoop : Nat → Pool → Option Pool
  | 0, p => if 1 < p.live.count true then none else some p
  | n + 1, p =>
    if 1 < p.live.count true then
      match mergeStep p with
      | none => none
      | some p' => mergeLoop n p'
    else some p

/-- The body of BUILD (R121). `INPUT_ERROR(0)` on a table without entries is R127's check; it comes after `LIVE`
has been cleared (log entry 11). -/
def buildBody (s : State) : Run Unit :=
  let s := s.dropTree
  if s.cnt.length ≠ Config.nsym then .stuck .unwrittenCell
  else
    let p := seedPool s.cnt
    if p.node.length = 0 then
      raise .inputError 0 { s with live := List.replicate Config.nodeCap false }
    else
      match mergeLoop p.node.length p with
      | none => .stuck .deadBranch
      | some p =>
        .done ()
          { s with
            node := p.node, weight := p.weight, live := p.live
            root := BitVec.ofNat 10 (p.live.idxOf true), nnodes := BitVec.ofNat 10 p.node.length
            treeV := true }

/-- BUILD (R121). -/
def execBuild (s : State) : Host.Outcome State Fault Refusal := issue (opcode .build) needsTable buildBody s

end Sys2Proof.Machine
end

