-- ==== Sys2Proof/Machine/CodeTable.lean ====
section
/-! DEFINITION. The Code Table Builder, MKTABLE (`43_code_table.md` R140 to R145). -/

namespace Sys2Proof.Machine

/-- `Walk(i, pattern, depth)` of R141 on the abstract tree (R44): the left subtree before the right one, so
the last leaf of a repeated symbol keeps its code (R145). -/
def walkCodes : CodeTree → Nat → Nat → List (Option CodeCell) → List (Option CodeCell)
  | .leaf s, pattern, depth, ct =>
    ct.set s.toNat (some { len := BitVec.ofNat 9 depth, val := BitVec.ofNat 256 pattern })
  | .node l r, pattern, depth, ct =>
    walkCodes r (pattern * 2 + 1) (depth + 1) (walkCodes l (pattern * 2) (depth + 1) ct)

/-- The table MKTABLE makes of a tree: all `valid` bits cleared, then the walk from the root (R141). -/
def codeTable (t : CodeTree) : List (Option CodeCell) := walkCodes t 0 0 (List.replicate Config.nsym none)

/-- The body of MKTABLE (R141). -/
def mktableBody (s : State) : Run Unit :=
  let s := s.dropTab
  match s.tree with
  | none => .stuck .nodeNotATree
  | some t => .done () { s with ct := codeTable t, tabV := true }

/-- MKTABLE (R141). -/
def execMktable (s : State) : Host.Outcome State Fault Refusal := issue (opcode .mktable) needsTree mktableBody s

end Sys2Proof.Machine
end

