-- ==== Sys2Proof/Machine/Counter.lean ====
section
/-! DEFINITION. The Frequency Counter, COUNT (`40_frequency_counter.md` R110 to R114). -/

namespace Sys2Proof.Machine

/-- `CNT[b] = 2^CNT_W - 1` (R111, R113): one more would not fit; never so when `CNT_W = infinity` (R8). -/
def countFull (p : Params) (c : Nat) : Bool :=
  match p.countWidth with
  | none => false
  | some n => decide (2 ^ n - 1 ≤ c)

/-- The loop of COUNT (R111) over the table counted so far. The bound is one more than the source's bytes,
which no run reaches; nor does an 8-bit read after `InMore` run dry (R111 corner (c)). -/
def countLoop : Nat → List Nat → State → Run (List Nat)
  | 0, _, _ => .stuck .deadBranch
  | n + 1, cnt, s =>
    (inMore s).andThen fun more s =>
      if more then
        (inBits 8 s).andThen fun v s =>
          match v with
          | none => .stuck .deadBranch
          | some b =>
            if countFull s.params (cnt.getD b 0) then raise .countOverflow (BitVec.ofNat 32 b) s
            else countLoop n (cnt.set b (cnt.getD b 0 + 1)) s
      else .done cnt s

/-- The body of COUNT (R111). The table is made known with its flag, as its last action (R25, R39). -/
def countBody (s : State) : Run Unit :=
  (inRewind s.dropAll).andThen fun _ s =>
    (countLoop (s.inp.bytes.length + 1) (List.replicate Config.nsym 0) s).andThen fun cnt s =>
      .done () { s with cnt := cnt.set Config.eos 1, ftV := true }

/-- COUNT (R111). -/
def execCount (s : State) : Host.Outcome State Fault Refusal := issue (opcode .count) needsNothing countBody s

end Sys2Proof.Machine
end

