-- ==== Sys2Proof/Machine/Decoder.lean ====
section
/-! DEFINITION. The Stream Decoder, RDMAGIC and DECPAY (`45_stream_decoder.md` R160 to R167). -/

namespace Sys2Proof.Machine

/-- The body of RDMAGIC (R161). -/
def rdmagicBody (s : State) : Run Unit :=
  (inRewind s).andThen fun _ s =>
    (inBits 32 s).andThen fun m s =>
      match m with
      | none => raise .formatMismatch 1 s
      | some m => if m ≠ s.params.magic.toNat then raise .formatMismatch 0 s else .done () s

/-- RDMAGIC (R161). -/
def execRdmagic (s : State) : Host.Outcome State Fault Refusal :=
  issue (opcode .rdmagic) needsNothing rdmagicBody s

/-- The loop of DECPAY (R163): the leaf test comes before any read; a byte is emitted and the walk goes back
to the root; the sentinel leaf stops it. The number bounds the passes. -/
def decLoop : Nat → CodeTree → CodeTree → State → Run Unit
  | 0, _, _, _ => .stuck .deadBranch
  | n + 1, root, .leaf sym, s =>
    if sym.toNat = Config.eos then .done () s
    else (outBits sym.toNat 8 s).andThen fun _ s => decLoop n root root s
  | n + 1, root, .node l r, s =>
    (inBit s).andThen fun b s =>
      match b with
      | none => raise .malformedBitstream 3 s
      | some b => decLoop n root (if b then r else l) s

/-- A root that is a leaf other than the sentinel (R163, R164). -/
def badRoot : CodeTree → Bool
  | .leaf sym => decide (sym.toNat ≠ Config.eos)
  | .node _ _ => false

/-- A bound no run of DECPAY's loop reaches: each bit left gives at most two passes, a read and an emission. -/
def decBound (s : State) : Nat := 2 * (8 * s.inp.bytes.length - s.inp.pos) + 2

/-- The body of DECPAY (R163). -/
def decpayBody (s : State) : Run Unit :=
  match s.tree with
  | none => .stuck .nodeNotATree
  | some t => if badRoot t then raise .malformedBitstream 4 s else decLoop (decBound s) t t s

/-- DECPAY (R163). -/
def execDecpay (s : State) : Host.Outcome State Fault Refusal := issue (opcode .decpay) needsTree decpayBody s

end Sys2Proof.Machine
end

