-- ==== Sys2Proof/Machine/Encoder.lean ====
section
/-! DEFINITION. The Stream Encoder, WRMAGIC and ENCPAY (`44_stream_encoder.md` R150 to R156). -/

namespace Sys2Proof.Machine

/-- The body of WRMAGIC (R151). -/
def wrmagicBody (s : State) : Run Unit := outBits s.params.magic.toNat 32 s

/-- WRMAGIC (R151). -/
def execWrmagic (s : State) : Host.Outcome State Fault Refusal :=
  issue (opcode .wrmagic) needsNothing wrmagicBody s

/-- Write one symbol's code (R153): `NO_CODE(s)` before anything is written where it has none (R154). -/
def putCode (sym : Nat) (s : State) : Run Unit :=
  match s.ct[sym]? with
  | none => .stuck .unwrittenCell
  | some none => raise .noCode (BitVec.ofNat 32 sym) s
  | some (some c) => outBits c.val.toNat c.len.toNat s

/-- The loop of ENCPAY (R153). The bound is one more than the source's bytes, which no run reaches; nor does
an 8-bit read after `InMore` run dry, as in COUNT. -/
def encLoop : Nat → State → Run Unit
  | 0, _ => .stuck .deadBranch
  | n + 1, s =>
    (inMore s).andThen fun more s =>
      if more then
        (inBits 8 s).andThen fun v s =>
          match v with
          | none => .stuck .deadBranch
          | some b => (putCode b s).andThen fun _ s => encLoop n s
      else .done () s

/-- The body of ENCPAY (R153): every byte's code, then the sentinel's. -/
def encpayBody (s : State) : Run Unit :=
  (inRewind s).andThen fun _ s =>
    (encLoop (s.inp.bytes.length + 1) s).andThen fun _ s => putCode Config.eos s

/-- ENCPAY (R153). -/
def execEncpay (s : State) : Host.Outcome State Fault Refusal := issue (opcode .encpay) needsTab encpayBody s

end Sys2Proof.Machine
end

