-- ==== Sys2Proof/Machine/TreeCodec.lean ====
section
/-! DEFINITION. The Tree Codec, SERTREE and DESTREE (`42_tree_codec.md` R130 to R139). -/

namespace Sys2Proof.Machine

/-- The body of SERTREE (R131): `Ser(TREE)`, one port access per bit. -/
def sertreeBody (s : State) : Run Unit :=
  match s.tree with
  | none => .stuck .nodeNotATree
  | some t => outString (ser t) s

/-- SERTREE (R131). -/
def execSertree (s : State) : Host.Outcome State Fault Refusal := issue (opcode .sertree) needsTree sertreeBody s

/-- `DesNode()` of R134, as the tree read and the nodes allocated so far (R135). The first number bounds the
depth; each level allocates a node first, so capacity (R136) ends every path before the bound does. The cells
are laid out when the tree is read whole (log entry 12). -/
def desNode : Nat → Nat → State → Run (CodeTree × Nat)
  | 0, _, _ => .stuck .deadBranch
  | d + 1, n, s =>
    (inBit s).andThen fun tag s =>
      match tag with
      | none => raise .malformedBitstream 0 s
      | some tag =>
        if n = Config.nodeCap then raise .treeCapacity 0 s
        else if tag then
          (desNode d (n + 1) s).andThen fun l s =>
            (desNode d l.2 s).andThen fun r s => .done (.node l.1 r.1, r.2) s
        else
          (inBits 9 s).andThen fun v s =>
            match v with
            | none => raise .malformedBitstream 1 s
            | some v =>
              if 256 < v then raise .malformedBitstream 2 s
              else .done (.leaf (BitVec.ofNat 9 v), n + 1) s

/-- The cells of a tree numbered in pre-order from an index on (R137): the left child is the next cell, the
right child stands after the left subtree. -/
def preorderCells : Nat → CodeTree → List NodeCell
  | _, .leaf s => [.leaf s]
  | i, .node l r =>
    .internal (BitVec.ofNat 10 (i + 1)) (BitVec.ofNat 10 (i + 1 + l.nodes))
      :: (preorderCells (i + 1) l ++ preorderCells (i + 1 + l.nodes) r)

/-- The body of DESTREE (R134). The cells are made known with the flag (R39); their `w` is not written. -/
def destreeBody (s : State) : Run Unit :=
  (desNode (Config.nodeCap + 1) 0 s.dropTree).andThen fun r s =>
    .done ()
      { s with
        node := preorderCells 0 r.1, root := 0, nnodes := BitVec.ofNat 10 r.2, treeV := true }

/-- DESTREE (R134). -/
def execDestree (s : State) : Host.Outcome State Fault Refusal :=
  issue (opcode .destree) needsNothing destreeBody s

end Sys2Proof.Machine
end

