-- ==== Sys2Proof/Machine/Orchestration.lean ====
section
/-! DEFINITION. CLR, and the top-level ENCODE and DECODE (`46_orchestration.md` R175, R177, R178). -/

namespace Sys2Proof.Machine

/-- CLR (R175). -/
def execClr (s : State) : Host.Outcome State Fault Refusal := issueClr clrBody s

/-- The body of ENCODE (R177): the bodies of seven commands, one after another. -/
def encodeBody (s : State) : Run Unit :=
  (clrBody s).andThen fun _ s =>
    (countBody s).andThen fun _ s =>
      (buildBody s).andThen fun _ s =>
        (wrmagicBody s).andThen fun _ s =>
          (sertreeBody s).andThen fun _ s =>
            (mktableBody s).andThen fun _ s => encpayBody s

/-- ENCODE (R177). -/
def execEncode (s : State) : Host.Outcome State Fault Refusal := issue (opcode .encode) needsNothing encodeBody s

/-- The body of DECODE (R178): the bodies of four commands, one after another. -/
def decodeBody (s : State) : Run Unit :=
  (clrBody s).andThen fun _ s =>
    (rdmagicBody s).andThen fun _ s =>
      (destreeBody s).andThen fun _ s => decpayBody s

/-- DECODE (R178). -/
def execDecode (s : State) : Host.Outcome State Fault Refusal := issue (opcode .decode) needsNothing decodeBody s

end Sys2Proof.Machine
end

