-- ==== Sys2Proof/Machine/Dispatch.lean ====
section
/-! DEFINITION. One arm per command: its issue (R170) with its own meaning. -/

namespace Sys2Proof.Machine

def exec (i : Instr) (s : State) : Host.Outcome State Fault Refusal :=
  match i with
  | .clr => Sys2Proof.Machine.execClr s
  | .count => Sys2Proof.Machine.execCount s
  | .build => Sys2Proof.Machine.execBuild s
  | .mktable => Sys2Proof.Machine.execMktable s
  | .wrmagic => Sys2Proof.Machine.execWrmagic s
  | .sertree => Sys2Proof.Machine.execSertree s
  | .encpay => Sys2Proof.Machine.execEncpay s
  | .rdmagic => Sys2Proof.Machine.execRdmagic s
  | .destree => Sys2Proof.Machine.execDestree s
  | .decpay => Sys2Proof.Machine.execDecpay s
  | .encode => Sys2Proof.Machine.execEncode s
  | .decode => Sys2Proof.Machine.execDecode s

end Sys2Proof.Machine
end

