-- ==== Sys2Proof/Machine/HostPort.lean ====
section
/-! DEFINITION. The host port: the seven registers (R27 to R33), the issue of a command by a write of `CMD`
(R28, R170), and the other events at the block's edge (R200, R209). -/

namespace Sys2Proof.Machine

/-- The command word of a write to `CMD`: `w[7:0]`, the upper bits ignored (R28, R97 (d)). -/
def commandByte (w : Word) : Byte := w.truncate 8

/-- A write of `CMD` (R28, R170): the decoded command is executed, a reserved word is issued as such. -/
def writeCmd (w : Word) (s : State) : Host.Outcome State Fault Refusal :=
  match Sys2Proof.decode [commandByte w] with
  | .command i _ => exec i s
  | .reserved op _ => issueReserved op s
  | .noWord => .next s

/-- A write of a host register (R27): `CMD` alone takes it; others, and numbers above 6, ignore it. -/
def writeReg (reg : Nat) (w : Word) (s : State) : Host.Outcome State Fault Refusal :=
  if reg = 0 then writeCmd w s else .next s

/-- Whether a read of the register returns an unspecified value: `CAUSE`, `FINFO`, `ROOT` and `NNODES` while
`STATE = BUSY` (R33). -/
def State.readOpen (s : State) (reg : Nat) : Bool :=
  decide (s.run = .busy) && decide (2 ≤ reg) && decide (reg ≤ 5)

/-- The values of the registers while they are stable (R27 to R32). -/
def State.regValue (s : State) (reg : Nat) : Word :=
  match reg with
  | 0 => 0
  | 1 => s.statusWord
  | 2 => s.cause.zeroExtend 32
  | 3 => s.finfo
  | 4 => if s.treeV then s.root.zeroExtend 32 else 0
  | 5 => if s.treeV then s.nnodes.zeroExtend 32 else 0
  | 6 => s.params.magic
  | _ => 0

/-- What a read of a host register returns (R27, R33). -/
def State.readReg (s : State) (reg : Nat) : Word :=
  if s.readOpen reg then Config.busyRead reg s.openReads else s.regValue reg

/-- A host read: no side effect on the block (R62); the value goes to the model's own `readData`. -/
def readStep (reg : Nat) (s : State) : State :=
  { s with readData := s.readReg reg, openReads := if s.readOpen reg then s.openReads + 1 else s.openReads }

/-- The environment puts an input before the block (R41, R209). -/
def setInStep (bytes : List Byte) (pos : Nat) (s : State) : Host.Outcome State Fault Refusal :=
  if s.run = .busy then .refused .portTouchedWhileBusy
  else if inPosWf bytes pos then .next { s with inp := { s.inp with bytes := bytes, pos := pos } }
  else .refused .inPosBeyondEnd

/-- The environment takes or replaces the output (R42, R209). -/
def setOutStep (bits : List Bool) (s : State) : Host.Outcome State Fault Refusal :=
  if s.run = .busy then .refused .portTouchedWhileBusy
  else .next { s with out := { s.out with bits := bits } }

/-- One event at the block's edge. -/
def hostEvent (e : HostEvent) (s : State) : Host.Outcome State Fault Refusal :=
  match e with
  | .write reg w => writeReg reg w s
  | .read reg => .next (readStep reg s)
  | .reset => .next (applyReset s)
  | .setIn bytes pos => setInStep bytes pos s
  | .setOut bits => setOutStep bits s

/-- The next event is taken from the queue; with none the block waits (R199). -/
def nextEvent (s : State) : Host.Outcome State Fault Refusal :=
  match s.host with
  | [] => .next s
  | e :: rest => hostEvent e { s with host := rest }

/-- The host writes the command words of a program to `CMD`, one after another (R99, R208). -/
def loadProgram (bytes : List Byte) (s : State) : State :=
  { s with host := s.host ++ bytes.map fun b => .write 0 (b.zeroExtend 32) }

end Sys2Proof.Machine
end

