-- ==== Sys2Proof/Machine/Step.lean ====
section
/-! DEFINITION. One step: one event at the block's edge. There is no program counter and no fetch (R23): the
next command is the oldest write of `CMD` that the host has waiting. -/

namespace Sys2Proof.Machine

/-- One step of the block with its host. -/
def step (s : State) : Host.Outcome State Fault Refusal := nextEvent s

/-- The host's next event is a write of the command word to `CMD` (log entry 6). -/
def State.withFetchWord (s : State) (nbits w : Nat) : State :=
  { s with host := .write 0 (BitVec.ofNat 32 (w % 2 ^ nbits)) :: s.host }

end Sys2Proof.Machine
end

