-- ==== Sys2Proof/Machine/Assembler.lean ====
section
/-! DEFINITION. The assembler text of a program (R99): one upper-case mnemonic of R81 a line, no operands, text
from `;` to the end of the line a comment. Text is a list of characters. -/

namespace Sys2Proof

/-- The mnemonic of a command (R81). -/
def mnemonic : Instr → List Char
  | .clr => ['C', 'L', 'R']
  | .count => ['C', 'O', 'U', 'N', 'T']
  | .build => ['B', 'U', 'I', 'L', 'D']
  | .mktable => ['M', 'K', 'T', 'A', 'B', 'L', 'E']
  | .wrmagic => ['W', 'R', 'M', 'A', 'G', 'I', 'C']
  | .sertree => ['S', 'E', 'R', 'T', 'R', 'E', 'E']
  | .encpay => ['E', 'N', 'C', 'P', 'A', 'Y']
  | .rdmagic => ['R', 'D', 'M', 'A', 'G', 'I', 'C']
  | .destree => ['D', 'E', 'S', 'T', 'R', 'E', 'E']
  | .decpay => ['D', 'E', 'C', 'P', 'A', 'Y']
  | .encode => ['E', 'N', 'C', 'O', 'D', 'E']
  | .decode => ['D', 'E', 'C', 'O', 'D', 'E']

/-- The lines of a text, without their line ends. -/
def linesOf : List Char → List (List Char)
  | [] => [[]]
  | c :: cs =>
    if c = '\n' then [] :: linesOf cs
    else
      match linesOf cs with
      | [] => [[c]]
      | l :: ls => (c :: l) :: ls

/-- A line without its comment and without the blanks around what is left (log entry 10). -/
def lineText (l : List Char) : List Char :=
  let code := (l.takeWhile (· ≠ ';')).dropWhile (· = ' ')
  (code.reverse.dropWhile (· = ' ')).reverse

/-- The command a mnemonic names. -/
def commandNamed (m : List Char) : Option Instr := Instr.all.find? fun i => decide (mnemonic i = m)

/-- The commands of a list of lines; a line with nothing but blanks and a comment holds none (log entry 10). -/
def assembleLines : List (List Char) → Option (List Instr)
  | [] => some []
  | l :: ls =>
    if lineText l = [] then assembleLines ls
    else
      match commandNamed (lineText l), assembleLines ls with
      | some i, some is => some (i :: is)
      | _, _ => none

/-- The commands of a program text (R99); none where a line is no mnemonic. -/
def assemble (text : List Char) : Option (List Instr) := assembleLines (linesOf text)

/-- The text of a program: one mnemonic a line (R99). -/
def disassemble : List Instr → List Char
  | [] => []
  | i :: is => mnemonic i ++ '\n' :: disassemble is

end Sys2Proof
end

