-- ==== Sys2Proof/Safety.lean ====
section
/-! DEFINITION. The terms claims are made in: quiet ports, the bits left on the input, the invariant of the
block's state (R29 to R41), and the spec's own functions on abstract data (R88, R112, R135). -/

namespace Sys2Proof.Machine

/-- The environment answers no `error`: "no port access answers `error`" of R55, as a premise. -/
abbrev quiet (errors : List Bool) : Prop := ∀ e ∈ errors, e = false

/-- The bits of `IN` from `IN.pos` on (R41, R57). -/
def State.inRest (s : State) : List Bool := (unpack s.inp.bytes).drop s.inp.pos

/-- The state after `k` successful bits have been read from `IN`. -/
def State.advanceIn (s : State) (k : Nat) : State :=
  { s with inp := { s.inp with pos := s.inp.pos + k, errors := s.inp.errors.drop k } }

/-- The state after the bits have been appended to `OUT`. -/
def State.appendOut (s : State) (bits : List Bool) : State :=
  { s with out := { bits := s.out.bits ++ bits, errors := s.out.errors.drop bits.length } }

/-- The number of times a byte value occurs in a source (R112). -/
def byteCount (src : List Byte) (b : Byte) : Nat := src.count b

/-- The counts of a source fit `CNT_W` bits (R113). -/
abbrev countsFit (p : Params) (src : List Byte) : Prop :=
  ∀ b ∈ src, ∀ n ∈ p.countWidth, byteCount src b ≤ 2 ^ n - 1

/-- The table COUNT makes of a source (R112). -/
def countTable (src : List Byte) : List Nat :=
  (List.range Config.eos).map (fun b => byteCount src (BitVec.ofNat 8 b)) ++ [1]

/-- The symbols of a table: the indices of its nonzero cells, ascending (R34). -/
def tableSyms (cnt : List Nat) : List Nat := (tableEntries 0 cnt).map (·.1)

/-- The code word of a symbol in a code table (R38, R88): none where `valid` is 0. -/
def codeWord (ct : List (Option CodeCell)) (sym : Nat) : Option (List Bool) :=
  match ct[sym]? with
  | some (some c) => some (bitsOf c.len.toNat c.val.toNat)
  | _ => none

/-- The code words of the source bytes in order (R88); none where a byte has no code. -/
def codesOf (ct : List (Option CodeCell)) : List Byte → Option (List Bool)
  | [] => some []
  | b :: bs =>
    match codeWord ct b.toNat, codesOf ct bs with
    | some w, some ws => some (w ++ ws)
    | _, _ => none

/-- `Pay(S, t)` of R88: the source bytes' code words, then the sentinel's; none where a symbol has no code. -/
def payload (ct : List (Option CodeCell)) (src : List Byte) : Option (List Bool) :=
  match codesOf ct src, codeWord ct Config.eos with
  | some ws, some w => some (ws ++ w)
  | _, _ => none

/-- The walk of R163 on a bit string, from an internal node of a tree: the bytes emitted, and the bits left
after the sentinel's code word, or none where the bits run out first (R165). -/
def walkBits (root : CodeTree) : CodeTree → List Bool → List Byte × Option (List Bool)
  | _, [] => ([], none)
  | .leaf _, _ :: _ => ([], none)
  | .node l r, b :: bs =>
    match if b then r else l with
    | .leaf s =>
      if s.toNat = Config.eos then ([], some bs)
      else (s.truncate 8 :: (walkBits root root bs).1, (walkBits root root bs).2)
    | c => walkBits root c bs

/-- The path of the last leaf of a symbol, left to right (R142, R145). -/
def lastPath (t : CodeTree) (sym : Sym) : Option (List Bool) :=
  (t.paths.reverse.find? fun p => decide (p.1 = sym)).map (·.2)

/-- What `Des` of R135 answers: a tree, the rest of the input and the nodes allocated, or a fault. -/
inductive DesResult where
  | tree (t : CodeTree) (rest : List Bool) (n : Nat)
  | malformed (info : Word) (rest : List Bool)
  | capacity (rest : List Bool)
deriving DecidableEq, Repr

/-- `Des(s, n)` of R135 on bit strings; the first number bounds the depth and is never the reason to stop
when it is more than `NODE_CAP - n`. The bits left unread are part of a fault too (R193). -/
def des : Nat → List Bool → Nat → DesResult
  | 0, s, _ => .capacity s
  | _ + 1, [], _ => .malformed 0 []
  | d + 1, b :: s, n =>
    if n = Config.nodeCap then .capacity s
    else if b then
      match des d s (n + 1) with
      | .tree l s1 n1 =>
        match des d s1 n1 with
        | .tree r s2 n2 => .tree (.node l r) s2 n2
        | f => f
      | f => f
    else if s.length < 9 then .malformed 1 []
    else if 256 < valOf (s.take 9) then .malformed 2 (s.drop 9)
    else .tree (.leaf (BitVec.ofNat 9 (valOf (s.take 9)))) (s.drop 9) (n + 1)

/-- `Des(s, n)` of R135, with a depth bound that no input reaches. -/
def desBits (s : List Bool) (n : Nat) : DesResult := des (Config.nodeCap + 1 - n) s n

/-- `Container(S)` of R84 from its three fields. -/
def container (magic : Word) (t : CodeTree) (pay : List Bool) : List Bool := magicBits magic ++ ser t ++ pay

/-- The indices visited from a node in pre-order, to a depth below the bound. -/
def visited : Nat → List NodeCell → Nat → List Nat
  | 0, _, _ => []
  | n + 1, m, i =>
    match m[i]? with
    | some (.internal l r) => i :: (visited n m l.toNat ++ visited n m r.toNat)
    | _ => [i]

/-- A program as the host runs it (R99, R208): each next command is issued only after the previous one left
`STATE = READY`. -/
def execSeq : List Instr → State → Host.Outcome State Fault Refusal
  | [], s => .next s
  | i :: is, s =>
    match exec i s with
    | .next t => if t.run = .ready then execSeq is t else .next t
    | .fault f => .fault f
    | .refused r => .refused r

/-- The table of R188: the values of `CAUSE` and `FINFO` with which a command can end in `FAULT`. -/
def mayRaise (i : Instr) (cause : BitVec 4) (info : Word) : Prop :=
  match i with
  | .clr => cause = 3 ∧ (info = 0 ∨ info = 1)
  | .count => (cause = 3 ∧ info = 0) ∨ (cause = 6 ∧ info.toNat < 256)
  | .build => (cause = 5 ∧ info = 3) ∨ (cause = 4 ∧ info = 0)
  | .mktable => cause = 5 ∧ info = 4
  | .wrmagic => cause = 3 ∧ info = 1
  | .sertree => (cause = 5 ∧ info = 6) ∨ (cause = 3 ∧ info = 1)
  | .encpay =>
    (cause = 5 ∧ info = 7) ∨ (cause = 7 ∧ info.toNat ≤ 256) ∨ (cause = 3 ∧ info = 0) ∨ (cause = 3 ∧ info = 1)
  | .rdmagic => (cause = 1 ∧ (info = 0 ∨ info = 1)) ∨ (cause = 3 ∧ info = 0)
  | .destree => (cause = 2 ∧ (info = 0 ∨ info = 1 ∨ info = 2)) ∨ (cause = 8 ∧ info = 0) ∨ (cause = 3 ∧ info = 0)
  | .decpay =>
    (cause = 5 ∧ info = 10) ∨ (cause = 2 ∧ (info = 3 ∨ info = 4)) ∨ (cause = 3 ∧ info = 0) ∨
      (cause = 3 ∧ info = 1)
  | .encode => (cause = 3 ∧ (info = 0 ∨ info = 1)) ∨ (cause = 6 ∧ info.toNat < 256)
  | .decode =>
    (cause = 1 ∧ (info = 0 ∨ info = 1)) ∨ (cause = 2 ∧ info.toNat ≤ 4) ∨ (cause = 8 ∧ info = 0) ∨
      (cause = 3 ∧ (info = 0 ∨ info = 1))

/-- What of a state can matter to the host or to a later command (R22, R37, R39): the contents of a structure
whose flag is 0, the weights and the queue are left out. -/
def State.visible (s : State) : State :=
  { s with
    cnt := if s.ftV then s.cnt else []
    node := if s.treeV then s.node else []
    root := if s.treeV then s.root else 0
    nnodes := if s.treeV then s.nnodes else 0
    weight := []
    live := []
    ct := if s.tabV then s.ct else [] }

/-- The visible part of an outcome. -/
def visibleOutcome (o : Host.Outcome State Fault Refusal) : Host.Outcome State Fault Refusal :=
  match o with
  | .next s => .next s.visible
  | .fault f => .fault f
  | .refused r => .refused r

/-- The text of a program with an optional comment on each line (R99). -/
def programText : List (Instr × Option (List Char)) → List Char
  | [] => []
  | (i, none) :: ls => mnemonic i ++ '\n' :: programText ls
  | (i, some c) :: ls => mnemonic i ++ ' ' :: ';' :: (c ++ '\n' :: programText ls)

/-- The length of a symbol's code word; 0 where it has none (R156). -/
def codeLength (ct : List (Option CodeCell)) (sym : Nat) : Nat := ((codeWord ct sym).map List.length).getD 0

/-- The sum over the symbols of a table of count times code length (R156). -/
def codedLength (cnt : List Nat) (ct : List (Option CodeCell)) : Nat :=
  ((List.range Config.nsym).map fun sym => cnt.getD sym 0 * codeLength ct sym).sum

/-- The sum of the weights of the internal nodes (R156). -/
def innerWeight : List NodeCell → List Nat → Nat
  | .internal _ _ :: cells, w :: ws => w + innerWeight cells ws
  | .leaf _ :: cells, _ :: ws => innerWeight cells ws
  | _, _ => 0

/-- The invariant of the frequency table (R34): 257 cells, the sentinel's count 1, every count below
`2^CNT_W`. -/
def TableInv (s : State) : Prop :=
  s.cnt.length = Config.nsym ∧ s.cnt[Config.eos]? = some 1 ∧
    ∀ c ∈ s.cnt, ∀ n ∈ s.params.countWidth, c ≤ 2 ^ n - 1

/-- The invariant of the tree (R31, R35): `NODE[0..NNODES-1]` is one pure binary tree below `ROOT`, every cell
visited exactly once, its symbols at most 256, its node count odd and at most `NODE_CAP`. -/
def TreeInv (s : State) : Prop :=
  ∃ t, s.tree = some t ∧ t.wf = true ∧ t.nodes = s.nnodes.toNat ∧ s.node.length = s.nnodes.toNat ∧
    (visited Config.nodeCap s.node s.root.toNat).Perm (List.range s.nnodes.toNat)

/-- The invariant of the code table (R38, R173): it is the one of the tree that is valid. -/
def TabInv (s : State) : Prop := s.treeV = true ∧ ∀ t, s.tree = some t → s.ct = codeTable t

/-- The invariant of a state between two steps. -/
structure Inv (s : State) : Prop where
  /-- A command is one step, so no step ends in `BUSY` (R29). -/
  notBusy : s.run ≠ .busy
  /-- `CAUSE` is one of 1 to 8 in `FAULT`, and `CAUSE` and `FINFO` are 0 otherwise (R30). -/
  faultRecord : if s.run = .fault then 1 ≤ s.cause.toNat ∧ s.cause.toNat ≤ 8 else s.cause = 0 ∧ s.finfo = 0
  /-- R34. -/
  table : s.ftV = true → TableInv s
  /-- R31, R35. -/
  tree : s.treeV = true → TreeInv s
  /-- R38, R173. -/
  tab : s.tabV = true → TabInv s
  /-- `0 <= IN.pos <= 8*|IN.bytes|` (R41). -/
  inPos : s.inp.pos ≤ 8 * s.inp.bytes.length
  /-- `CNT_W >= 1` (R8). -/
  width : countWidthWf s.params.countWidth = true

end Sys2Proof.Machine
end

