-- ==== Sys2Proof/Certificates/Slice0/Obligations.lean ====
section
/-! DEFINITION. The statements for the provers. Each docstring names the rules of spec/ it formalises; clauses
that rest on the model's own choices name the log entry. -/

open Sys2Proof Sys2Proof.Machine

/-! ### Command words and the host port -/

/-- R81: the twelve command words decode to their commands, every other word is reserved. -/
def Obligations.CommandWordsDecode : Prop :=
  (decode [0x01#8] = .command .clr [] ∧ decode [0x02#8] = .command .count [] ∧
    decode [0x03#8] = .command .build [] ∧ decode [0x04#8] = .command .mktable [] ∧
    decode [0x05#8] = .command .wrmagic [] ∧ decode [0x06#8] = .command .sertree [] ∧
    decode [0x07#8] = .command .encpay [] ∧ decode [0x08#8] = .command .rdmagic [] ∧
    decode [0x09#8] = .command .destree [] ∧ decode [0x0A#8] = .command .decpay [] ∧
    decode [0x10#8] = .command .encode [] ∧ decode [0x11#8] = .command .decode []) ∧
  ∀ op : Byte, op ∉ [0x01#8, 0x02#8, 0x03#8, 0x04#8, 0x05#8, 0x06#8, 0x07#8, 0x08#8, 0x09#8, 0x0A#8, 0x10#8, 0x11#8] →
    decode [op] = .reserved op []

/-- R80, R98, R99: a command's byte decodes to it whatever follows, programs and their byte strings are in
one-to-one correspondence, and a program's text with any comments assembles to the program. The blank before a
comment is read as the model reads blanks (log entry 10). -/
def Obligations.ProgramRoundTrip : Prop :=
  (∀ (i : Instr) (rest : List Byte), decode (encode i ++ rest) = .command i rest) ∧
  (∀ p : List Instr, decodeProgram (encodeProgram p) = some p) ∧
  (∀ (bytes : List Byte) (p : List Instr), decodeProgram bytes = some p → encodeProgram p = bytes) ∧
  ∀ lines : List (Instr × Option (List Char)), (∀ l ∈ lines, ∀ c ∈ l.2, '\n' ∉ c) →
    assemble (programText lines) = some (lines.map (·.1))

/-- The step: the oldest waiting write of `CMD` is taken, and its decoded command is executed (R28, R170). A
word placed by `withFetchWord` (log entry 6) is the one the next step runs. -/
def Obligations.StepRunsDecodedCommand : Prop :=
  (∀ (s : State) (w : Word) (rest : List HostEvent) (i : Instr), s.host = .write 0 w :: rest →
    decode [commandByte w] = .command i [] → step s = exec i { s with host := rest }) ∧
  ∀ (s : State) (i : Instr), step (s.withFetchWord 8 (opcode i).toNat) = exec i s

/-- R28: a write of `CMD` issues the word's low byte, the upper bits do not matter, and `CMD` reads as 0. -/
def Obligations.CmdWriteIssuesLowByte : Prop :=
  ∀ (s : State) (w : Word),
    (writeReg 0 w s = match decodeOp (w.extractLsb' 0 8) with
      | some i => exec i s
      | none => issueReserved (w.extractLsb' 0 8) s) ∧
    (∀ w' : Word, w'.extractLsb' 0 8 = w.extractLsb' 0 8 → writeReg 0 w' s = writeReg 0 w s) ∧
    s.readReg 0 = 0

/-- R27, R29, R30, R31, R33, R62: what the registers read, `STATUS` in every state, that a read changes nothing
of the block, and that a write to any register but `CMD` is ignored. While `BUSY` the value of four registers is a
free value (log entry 9); `readData` and `openReads` are the model's own (log entries 8, 9). -/
def Obligations.HostRegisters : Prop :=
  ∀ s : State,
    ((s.run = .ready → (s.readReg 1).extractLsb' 0 2 = 0) ∧ (s.run = .busy → (s.readReg 1).extractLsb' 0 2 = 1) ∧
      (s.run = .fault → (s.readReg 1).extractLsb' 0 2 = 2) ∧
      (s.readReg 1).extractLsb' 0 2 = s.run.bits ∧ s.run.bits ≠ 3 ∧
      (s.readReg 1).getLsbD 2 = s.ftV ∧ (s.readReg 1).getLsbD 3 = s.treeV ∧ (s.readReg 1).getLsbD 4 = s.tabV ∧
      ∀ k, 5 ≤ k → (s.readReg 1).getLsbD k = false) ∧
    (s.run ≠ .busy →
      s.readReg 2 = s.cause.zeroExtend 32 ∧ s.readReg 3 = s.finfo ∧
      s.readReg 4 = (if s.treeV then s.root.zeroExtend 32 else 0) ∧
      s.readReg 5 = (if s.treeV then s.nnodes.zeroExtend 32 else 0)) ∧
    (s.run = .busy → ∀ r ∈ [2, 3, 4, 5], s.readReg r = Config.busyRead r s.openReads) ∧
    (∀ r, 6 < r → s.readReg r = 0) ∧
    (∀ r, ∃ n, hostEvent (.read r) s = .next { s with readData := s.readReg r, openReads := n }) ∧
    ∀ r w, r ≠ 0 → writeReg r w s = .next s

/-- R32: `MAGICR` always reads the constant, and no step changes it. -/
def Obligations.MagicRegisterHardwired : Prop :=
  State.reset.readReg 6 = Config.magic ∧
  ∀ s : State, s.readReg 6 = s.params.magic ∧ ∀ t, step s = .next t → t.readReg 6 = s.readReg 6

/-! ### Issue, reset, faults -/

/-- R171: a reserved opcode issued in `READY` raises `ILLEGAL_COMMAND(op)` and changes nothing else. -/
def Obligations.ReservedOpcodeFaults : Prop :=
  ∀ (s : State) (w : Word), s.run = .ready → decodeOp (w.extractLsb' 0 8) = none →
    writeReg 0 w s = .next { s with run := .fault, cause := 5, finfo := (w.extractLsb' 0 8).zeroExtend 32 }

/-- R26: the flags commands require; without its flag a command raises `ILLEGAL_COMMAND` before anything else. -/
def Obligations.MissingFlagFaults : Prop :=
  ∀ s : State, s.run = .ready →
    (s.ftV = false → exec .build s = .next { s with run := .fault, cause := 5, finfo := 3 }) ∧
    (s.treeV = false → exec .mktable s = .next { s with run := .fault, cause := 5, finfo := 4 }) ∧
    (s.treeV = false → exec .sertree s = .next { s with run := .fault, cause := 5, finfo := 6 }) ∧
    (s.treeV = false → exec .decpay s = .next { s with run := .fault, cause := 5, finfo := 10 }) ∧
    (s.tabV = false → exec .encpay s = .next { s with run := .fault, cause := 5, finfo := 7 }) ∧
    ∀ i ∈ [Instr.clr, .count, .wrmagic, .rdmagic, .destree, .encode, .decode], ∀ t,
      exec i s = .next t → t.run = .fault → t.cause ≠ 5

/-- R25: what each command does to the three flags, on completion and on a fault. -/
def Obligations.FlagsWritten : Prop :=
  ∀ s t : State, s.run = .ready →
    (exec .count s = .next t → t.treeV = false ∧ t.tabV = false ∧ (t.ftV = true ↔ t.run = .ready)) ∧
    (s.ftV = true → exec .build s = .next t →
      t.ftV = true ∧ t.tabV = false ∧ (t.treeV = true ↔ t.run = .ready)) ∧
    (exec .destree s = .next t → t.ftV = s.ftV ∧ t.tabV = false ∧ (t.treeV = true ↔ t.run = .ready)) ∧
    (s.treeV = true → exec .mktable s = .next t →
      t.ftV = s.ftV ∧ t.treeV = true ∧ (t.tabV = true ↔ t.run = .ready)) ∧
    (exec .clr s = .next t → t.ftV = false ∧ t.treeV = false ∧ t.tabV = false) ∧
    (∀ i ∈ [Instr.wrmagic, .sertree, .encpay, .rdmagic, .decpay], exec i s = .next t →
      t.ftV = s.ftV ∧ t.treeV = s.treeV ∧ t.tabV = s.tabV) ∧
    (exec .encode s = .next t → t.run = .ready → t.ftV = true ∧ t.treeV = true ∧ t.tabV = true) ∧
    (exec .decode s = .next t → t.run = .ready → t.ftV = false ∧ t.treeV = true ∧ t.tabV = false)

/-- R188: which command can end in which fault, from every state in which it is taken. -/
def Obligations.FaultsByCommand : Prop :=
  (∀ (i : Instr) (s t : State), (s.run = .ready ∨ (i = .clr ∧ s.run = .fault)) → exec i s = .next t →
    t.run = .fault → mayRaise i t.cause t.finfo) ∧
  (∀ (op : Byte) (s t : State), s.run = .ready → issueReserved op s = .next t → t.run = .fault ∧ t.cause = 5) ∧
  ∀ s t : State, Inv s → s.run = .ready → exec .build s = .next t → t.run = .fault → t.cause ≠ 4

/-- R174: a command not taken changes no state at all, and in `FAULT` the record stays until CLR or reset. -/
def Obligations.LostWrites : Prop :=
  (∀ (s : State) (w : Word), s.run = .busy → writeReg 0 w s = .next s) ∧
  (∀ (s : State) (w : Word), s.run = .fault → w.extractLsb' 0 8 ≠ 0x01#8 → writeReg 0 w s = .next s) ∧
  ∀ (s t : State) (e : HostEvent) (rest : List HostEvent), s.run = .fault → s.host = e :: rest → e ≠ .reset →
    (∀ w, e = .write 0 w → w.extractLsb' 0 8 ≠ 0x01#8) → step s = .next t →
    t.run = .fault ∧ t.cause = s.cause ∧ t.finfo = s.finfo

/-- R195: the only ways out of `FAULT` are CLR and reset, and both discard the structures and the port states. -/
def Obligations.FaultLeftOnlyByClrOrReset : Prop :=
  ∀ s t : State, s.run = .fault → step s = .next t → t.run ≠ .fault →
    (∃ e rest, s.host = e :: rest ∧ (e = .reset ∨ ∃ w : Word, e = .write 0 w ∧ w.extractLsb' 0 8 = 0x01#8)) ∧
    t.run = .ready ∧ t.ftV = false ∧ t.treeV = false ∧ t.tabV = false ∧ t.inp.pos = 0 ∧ t.out.bits = []

/-- R196: in `FAULT` nothing but CLR executes, and a CLR whose port fails leaves the block in `FAULT` with the
new cause, the flags 0. That the discarded memories hold nothing is log entry 4 (DESIGN CHOICE). -/
def Obligations.ClrPortFailure : Prop :=
  (∀ (i : Instr) (s : State), s.run = .fault → i ≠ .clr → exec i s = .next s) ∧
  ∀ s : State, s.run ≠ .busy →
    (∀ rest, s.inp.errors = true :: rest →
      exec .clr s = .next
        { s.dropAll with run := .fault, cause := 3, finfo := 0, inp := { s.inp with errors := rest } }) ∧
    (∀ rest, quiet s.inp.errors → s.out.errors = true :: rest →
      exec .clr s = .next
        { s.dropAll with
          run := .fault, cause := 3, finfo := 1
          inp := { s.inp with pos := 0, errors := s.inp.errors.drop 1 }, out := { s.out with errors := rest } })

/-- R175: CLR from `READY` or `FAULT` with ports that answer. The registers then read as after reset. That the
discarded memories hold nothing is log entry 4. -/
def Obligations.ClrResult : Prop :=
  ∀ s : State, s.run ≠ .busy → quiet s.inp.errors → quiet s.out.errors →
    ∃ t, exec .clr s = .next t ∧
      t = { s with
        run := .ready, cause := 0, finfo := 0, ftV := false, treeV := false, tabV := false
        cnt := [], node := [], weight := [], root := 0, nnodes := 0, ct := []
        inp := { s.inp with pos := 0, errors := s.inp.errors.drop 1 }
        out := { bits := [], errors := s.out.errors.drop 1 } } ∧
      ∀ r, t.readReg r = (applyReset s).readReg r

/-- R200 and the reset table of `10_state.md`: reset in any state, `BUSY` and `FAULT` included, and what the
registers read in the reset state. -/
def Obligations.ResetFromAnyState : Prop :=
  (State.reset.readReg 0 = 0 ∧ State.reset.readReg 1 = 0 ∧ State.reset.readReg 2 = 0 ∧
    State.reset.readReg 3 = 0 ∧ State.reset.readReg 4 = 0 ∧ State.reset.readReg 5 = 0 ∧
    State.reset.readReg 6 = Config.magic ∧ State.reset.inp.pos = 0 ∧ State.reset.out.bits = [] ∧
    State.reset.params.countWidth = Config.countWidth) ∧
  ∀ (s : State) (rest : List HostEvent), s.host = .reset :: rest →
    ∃ t, step s = .next t ∧ t.run = .ready ∧ t.ftV = false ∧ t.treeV = false ∧ t.tabV = false ∧ t.cause = 0 ∧
      t.finfo = 0 ∧ t.inp.pos = 0 ∧ t.inp.bytes = s.inp.bytes ∧ t.out.bits = [] ∧
      t.readReg 1 = 0 ∧ t.readReg 2 = 0 ∧ t.readReg 3 = 0 ∧ t.readReg 4 = 0 ∧ t.readReg 5 = 0 ∧
      t.readReg 6 = s.readReg 6 ∧ t.params = s.params ∧ t.host = rest

/-! ### The invariant -/

/-- The reset state has the invariant. -/
def Obligations.InvariantAtReset : Prop := Inv State.reset

/-- Every step keeps the invariant (R29, R30, R31, R34, R35, R38, R41, R173), whatever the host does and
whichever port accesses fail. -/
def Obligations.StepKeepsInvariant : Prop := ∀ s t : State, Inv s → step s = .next t → Inv t

/-- R213, R22: from every state with the invariant, every command ends in a next state, whichever port accesses
fail: none runs for ever, and none reads a cell that nothing has written. -/
def Obligations.CommandsAlwaysEnd : Prop := ∀ (i : Instr) (s : State), Inv s → ∃ t, exec i s = .next t

/-- R22, R39: what is held of a structure whose flag is 0, the weights and the queue are observable by no step
and no register read: two states that differ in nothing else have steps that differ in nothing else. -/
def Obligations.InvalidContentsUnobservable : Prop :=
  ∀ s u : State, s.visible = u.visible →
    (∀ r, s.readReg r = u.readReg r) ∧ visibleOutcome (step s) = visibleOutcome (step u)

/-! ### Frames -/

/-- R172, R43, R41: WRMAGIC, SERTREE, RDMAGIC, ENCPAY and DECPAY change nothing but the ports, the input's bytes
excepted, and on a fault the fault record; WRMAGIC and SERTREE do not touch `IN`, RDMAGIC does not touch `OUT`, and
the others only append to it (R62). -/
def Obligations.FrameStreaming : Prop :=
  ∀ i ∈ [Instr.wrmagic, .sertree, .rdmagic, .encpay, .decpay], ∀ s t : State, exec i s = .next t →
    t = { s with run := t.run, cause := t.cause, finfo := t.finfo, inp := t.inp, out := t.out } ∧
    t.inp.bytes = s.inp.bytes ∧ (t.run = .ready → t.cause = s.cause ∧ t.finfo = s.finfo) ∧
    (∃ bits, t.out.bits = s.out.bits ++ bits) ∧ (i = .rdmagic → t.out = s.out) ∧
    (i = .wrmagic ∨ i = .sertree → t.inp = s.inp)

/-- R172, R43: what the commands that make a structure leave unchanged: COUNT all but the table chain and
`IN.pos`, BUILD all but the tree and the table, DESTREE these and `IN.pos`, MKTABLE all but the table. -/
def Obligations.FrameBuilding : Prop :=
  ∀ s t : State,
    (exec .count s = .next t →
      t = { s with
        run := t.run, cause := t.cause, finfo := t.finfo, ftV := t.ftV, treeV := t.treeV, tabV := t.tabV
        cnt := t.cnt, node := t.node, weight := t.weight, root := t.root, nnodes := t.nnodes, ct := t.ct
        inp := t.inp } ∧ t.inp.bytes = s.inp.bytes) ∧
    (exec .build s = .next t →
      t = { s with
        run := t.run, cause := t.cause, finfo := t.finfo, treeV := t.treeV, tabV := t.tabV
        node := t.node, weight := t.weight, live := t.live, root := t.root, nnodes := t.nnodes, ct := t.ct }) ∧
    (exec .destree s = .next t →
      t = { s with
        run := t.run, cause := t.cause, finfo := t.finfo, treeV := t.treeV, tabV := t.tabV
        node := t.node, weight := t.weight, root := t.root, nnodes := t.nnodes, ct := t.ct, inp := t.inp } ∧
      t.inp.bytes = s.inp.bytes) ∧
    (exec .mktable s = .next t →
      t = { s with run := t.run, cause := t.cause, finfo := t.finfo, tabV := t.tabV, ct := t.ct }) ∧
    ∀ i ∈ [Instr.count, .build, .destree, .mktable], exec i s = .next t → t.run = .ready →
      t.cause = s.cause ∧ t.finfo = s.finfo

/-- R172, R41: CLR, ENCODE and DECODE never change the input's bytes, the parameters or what waits on the host
port. -/
def Obligations.FrameWhole : Prop :=
  ∀ i ∈ [Instr.clr, .encode, .decode], ∀ s t : State, exec i s = .next t →
    t.inp.bytes = s.inp.bytes ∧ t.params = s.params ∧ t.host = s.host ∧ t.readData = s.readData ∧
      t.openReads = s.openReads ∧ (t.run = .ready → t.cause = 0 ∧ t.finfo = 0)

/-- R211: a new tree invalidates the code table, a new COUNT the tree too, and the stale consumer is refused. -/
def Obligations.NewTreeInvalidatesTable : Prop :=
  ∀ s t : State, s.run = .ready →
    (∀ i, (i = .build ∧ s.ftV = true) ∨ i = .destree → exec i s = .next t → t.tabV = false ∧
      (t.run = .ready → exec .encpay t = .next { t with run := .fault, cause := 5, finfo := 7 })) ∧
    (exec .count s = .next t → t.treeV = false ∧ t.tabV = false ∧
      (t.run = .ready →
        exec .encpay t = .next { t with run := .fault, cause := 5, finfo := 7 } ∧
        exec .sertree t = .next { t with run := .fault, cause := 5, finfo := 6 } ∧
        exec .mktable t = .next { t with run := .fault, cause := 5, finfo := 4 } ∧
        exec .decpay t = .next { t with run := .fault, cause := 5, finfo := 10 }))

/-! ### The ports -/

/-- R50 to R54: the port primitives, no access answering `error`. -/
def Obligations.PortPrimitives : Prop :=
  (∀ s : State, quiet s.inp.errors →
    inMore s = .done (decide (s.inp.pos < 8 * s.inp.bytes.length)) (s.withInErrors (s.inp.errors.drop 1)) ∧
    inRewind s = .done () { s with inp := { s.inp with pos := 0, errors := s.inp.errors.drop 1 } } ∧
    (s.inp.pos = 8 * s.inp.bytes.length → inBit s = .done none (s.withInErrors (s.inp.errors.drop 1))) ∧
    (∀ b bs, s.inRest = b :: bs → inBit s = .done (some b) (s.advanceIn 1)) ∧
    (∀ n bs rest, s.inRest = bs ++ rest → bs.length = n → inBits n s = .done (some (valOf bs)) (s.advanceIn n)) ∧
    (∀ n, s.inp.pos ≤ 8 * s.inp.bytes.length → s.inRest.length < n → ∃ e,
      inBits n s = .done none { s with inp := { s.inp with pos := 8 * s.inp.bytes.length, errors := e } })) ∧
  ∀ s : State, quiet s.out.errors →
    (∀ b, outBit b s = .done () (s.appendOut [b])) ∧
    (∀ v n, outBits v n s = .done () (s.appendOut (bitsOf n v))) ∧
    outReset s = .done () { s with out := { bits := [], errors := s.out.errors.drop 1 } }

/-- R55: an access that the environment answers with `error` has no effect on the port and raises
`IO_FAILURE(0)` or `IO_FAILURE(1)`, whether or not the source is exhausted; a failing bit of `InBits` or
`OutBits` leaves what the bits before it did. -/
def Obligations.PortErrorComesFirst : Prop :=
  (∀ (s : State) (rest : List Bool), s.inp.errors = true :: rest →
    inMore s = raise .ioFailure 0 (s.withInErrors rest) ∧ inBit s = raise .ioFailure 0 (s.withInErrors rest) ∧
    inRewind s = raise .ioFailure 0 (s.withInErrors rest)) ∧
  (∀ (s : State) (rest : List Bool), s.out.errors = true :: rest →
    (∀ b, outBit b s = raise .ioFailure 1 (s.withOutErrors rest)) ∧
    outReset s = raise .ioFailure 1 (s.withOutErrors rest)) ∧
  (∀ (s : State) (n j : Nat) (rest : List Bool), j < n → j ≤ s.inRest.length →
    s.inp.errors = List.replicate j false ++ true :: rest →
    inBits n s = raise .ioFailure 0 { s with inp := { s.inp with pos := s.inp.pos + j, errors := rest } }) ∧
  ∀ (s : State) (v n j : Nat) (rest : List Bool), j < n →
    s.out.errors = List.replicate j false ++ true :: rest →
    outBits v n s = raise .ioFailure 1
      { s with out := { bits := s.out.bits ++ (bitsOf n v).take j, errors := rest } }

/-- R57, R58: the bit at a stream position, the 8-bit read on a byte boundary, and `pack`: zero pad bits up to a
whole byte, the inverse of the bit view. -/
def Obligations.BitAndByteOrder : Prop :=
  (∀ s : State, quiet s.inp.errors →
    (∀ b : Byte, s.inp.bytes[s.inp.pos / 8]? = some b →
      inBit s = .done (some (b.getLsbD (7 - s.inp.pos % 8))) (s.advanceIn 1)) ∧
    ∀ (j : Nat) (b : Byte), s.inp.pos = 8 * j → s.inp.bytes[j]? = some b →
      inBits 8 s = .done (some b.toNat) (s.advanceIn 8)) ∧
  (∀ (bytes : List Byte) (p : Nat), bitAt bytes p = (unpack bytes)[p]?) ∧
  (∀ bits : List Bool, unpack (pack bits) = bits ++ List.replicate ((8 - bits.length % 8) % 8) false) ∧
  ∀ bytes : List Byte, pack (unpack bytes) = bytes

/-- R209, R199: between commands the environment may set the input, within its length, and the output; with
nothing waiting a step changes nothing. A touch while `BUSY` is refused by name, which is the model's choice. -/
def Obligations.HostBetweenCommands : Prop :=
  (∀ (s : State) (bytes : List Byte) (pos : Nat), s.run ≠ .busy → pos ≤ 8 * bytes.length →
    hostEvent (.setIn bytes pos) s = .next { s with inp := { s.inp with bytes := bytes, pos := pos } }) ∧
  (∀ (s : State) (bits : List Bool), s.run ≠ .busy →
    hostEvent (.setOut bits) s = .next { s with out := { s.out with bits := bits } }) ∧
  (∀ (s : State) (bytes : List Byte) (pos : Nat) (bits : List Bool), s.run = .busy →
    hostEvent (.setIn bytes pos) s = .refused .portTouchedWhileBusy ∧
    hostEvent (.setOut bits) s = .refused .portTouchedWhileBusy) ∧
  ∀ s : State, s.host = [] → step s = .next s

/-! ### COUNT and BUILD -/

/-- R112: a fault-free COUNT and its table. That the discarded memories hold nothing is log entry 4 (DESIGN
CHOICE). -/
def Obligations.CountResult : Prop :=
  (∀ s : State, s.run = .ready → quiet s.inp.errors → countsFit s.params s.inp.bytes →
    exec .count s = .next
      { s.dropAll with
        ftV := true, cnt := countTable s.inp.bytes
        inp := { s.inp with
          pos := 8 * s.inp.bytes.length, errors := s.inp.errors.drop (9 * s.inp.bytes.length + 2) } }) ∧
  ∀ src : List Byte,
    (countTable src).length = 257 ∧ (∀ b : Byte, (countTable src)[b.toNat]? = some (src.count b)) ∧
    (countTable src)[256]? = some 1 ∧ (countTable src).sum = src.length + 1 ∧
    1 ≤ (tableSyms (countTable src)).length ∧ (tableSyms (countTable src)).length ≤ 257 ∧
    ((tableSyms (countTable src)).length = 1 ↔ src = [])

/-- R113: when the counts do not fit, COUNT stops at the first increment that does not fit, which is not
performed; a count that COUNT completes with is exact. That the discarded memories hold nothing is log entry 4
(DESIGN CHOICE). -/
def Obligations.CountOverflow : Prop :=
  (∀ s : State, s.run = .ready → quiet s.inp.errors → ¬ countsFit s.params s.inp.bytes →
    ∃ n ∈ s.params.countWidth, ∃ pre b post, s.inp.bytes = pre ++ b :: post ∧ countsFit s.params pre ∧
      pre.count b = 2 ^ n - 1 ∧
      exec .count s = .next
        { s.dropAll with
          run := .fault, cause := 6, finfo := b.zeroExtend 32
          inp := { s.inp with
            pos := 8 * (pre.length + 1), errors := s.inp.errors.drop (9 * (pre.length + 1) + 1) } }) ∧
  ∀ s t : State, s.run = .ready → exec .count s = .next t → t.run = .ready →
    t.cnt = countTable s.inp.bytes ∧ countsFit s.params s.inp.bytes

/-- R121, R125, R36, R31: what BUILD makes of a table: `2k-1` nodes, the leaves first in ascending order of
symbol, children below their parents, the root last, `LIVE` at the root only, one leaf for each symbol of the
table. The discarded code table holding nothing is log entry 4. -/
def Obligations.BuildResult : Prop :=
  ∀ s : State, s.run = .ready → s.ftV = true → TableInv s →
    ∃ t tree, exec .build s = .next t ∧
      t = { s with
        treeV := true, tabV := false, ct := [], node := t.node, weight := t.weight, live := t.live
        root := t.root, nnodes := t.nnodes } ∧
      t.tree = some tree ∧ tree.nodes = t.nnodes.toNat ∧
      t.nnodes.toNat = 2 * (tableSyms s.cnt).length - 1 ∧ t.root.toNat = 2 * (tableSyms s.cnt).length - 2 ∧
      t.node.length = 2 * (tableSyms s.cnt).length - 1 ∧
      (∀ i, t.live[i]? = some true ↔ i = t.root.toNat) ∧
      (∀ i, i < (tableSyms s.cnt).length →
        t.node[i]? = ((tableSyms s.cnt)[i]?).map fun sym => .leaf (BitVec.ofNat 9 sym)) ∧
      (tableSyms s.cnt).Pairwise (· < ·) ∧
      (∀ i, (tableSyms s.cnt).length ≤ i → i < t.node.length → ∃ l r : NodeIdx,
        t.node[i]? = some (.internal l r) ∧ l.toNat < i ∧ r.toNat < i) ∧
      tree.leaves.Nodup ∧
      (∀ sym : Sym, sym ∈ tree.leaves ↔ ∃ c, s.cnt[sym.toNat]? = some c ∧ c ≠ 0) ∧
      TreeInv t

/-- R123: the weights BUILD leaves: a leaf's is its count, an internal node's the sum of its children's, the
root's the sum of all counts; none passes `CNT_W + 9` bits. -/
def Obligations.BuildWeights : Prop :=
  ∀ s t : State, s.run = .ready → s.ftV = true → TableInv s → exec .build s = .next t →
    (∀ (i : Nat) (sym : Sym), t.node[i]? = some (.leaf sym) → t.weight[i]? = s.cnt[sym.toNat]?) ∧
    (∀ (i : Nat) (l r : NodeIdx), t.node[i]? = some (.internal l r) → ∃ wl wr, t.weight[l.toNat]? = some wl ∧
      t.weight[r.toNat]? = some wr ∧ t.weight[i]? = some (wl + wr)) ∧
    t.weight[t.root.toNat]? = some s.cnt.sum ∧
    (∀ src, s.cnt = countTable src → t.weight[t.root.toNat]? = some (src.length + 1)) ∧
    ∀ n ∈ s.params.countWidth, ∀ w ∈ t.weight, w < 2 ^ (n + 9)

/-- R120, R121, R122, R124: `ExtractMin` takes the live node whose pair (weight, index) is least, and takes one
whenever one is live; the first node extracted becomes the left child, so within every internal node BUILD makes
the left child is the lesser. Every merge is greedy: of the nodes below an internal node `i` that are the child of
no internal node below `i`, the two children of `i` are the least, every other one coming after its right child. -/
def Obligations.QueueOrder : Prop :=
  (∀ (p q : Pool) (w i : Nat), extractMin p = some (w, i, q) →
    p.live[i]? = some true ∧ p.weight[i]? = some w ∧ q = { p with live := p.live.set i false } ∧
    ∀ j wj, p.live[j]? = some true → p.weight[j]? = some wj → w < wj ∨ (w = wj ∧ i ≤ j)) ∧
  (∀ (p : Pool) (j wj : Nat), p.live[j]? = some true → p.weight[j]? = some wj → (extractMin p).isSome = true) ∧
  ∀ s t : State, s.run = .ready → s.ftV = true → TableInv s → exec .build s = .next t →
    ∀ (i : Nat) (l r : NodeIdx), t.node[i]? = some (.internal l r) → ∃ wl wr, t.weight[l.toNat]? = some wl ∧
      t.weight[r.toNat]? = some wr ∧ (wl < wr ∨ (wl = wr ∧ l.toNat < r.toNat)) ∧
      ∀ j, j < i → j ≠ l.toNat → j ≠ r.toNat →
        (∀ k, k < i → ∀ l' r' : NodeIdx, t.node[k]? = some (.internal l' r') → j ≠ l'.toNat ∧ j ≠ r'.toNat) →
        ∃ wj, t.weight[j]? = some wj ∧ (wr < wj ∨ (wr = wj ∧ r.toNat < j))

/-- R126: a table of one symbol gives a tree of one leaf. That the discarded code table holds nothing is log
entry 4 (DESIGN CHOICE). -/
def Obligations.BuildOneSymbol : Prop :=
  ∀ (s : State) (sym : Sym) (c : Nat), s.run = .ready → s.ftV = true → sym.toNat ≤ 256 → c ≠ 0 →
    s.cnt = (List.replicate Config.nsym 0).set sym.toNat c →
    ∃ t, exec .build s = .next t ∧
      t = { s with
        treeV := true, tabV := false, ct := [], node := [.leaf sym], weight := [c]
        live := true :: List.replicate (Config.nodeCap - 1) false, root := 0, nnodes := 1 } ∧
      t.tree = some (.leaf sym) ∧ countTable [] = (List.replicate Config.nsym 0).set 256 1

/-- R127: an empty table raises `INPUT_ERROR(0)`, and no state with the invariant has one. That the discarded
memories hold nothing is log entry 4 (DESIGN CHOICE), and that `LIVE` is then all 0 is log entry 11 (DEDUCED). -/
def Obligations.BuildEmptyTable : Prop :=
  (∀ s : State, s.run = .ready → s.ftV = true → s.cnt = List.replicate Config.nsym 0 →
    exec .build s = .next
      { s.dropTree with run := .fault, cause := 4, finfo := 0, live := List.replicate Config.nodeCap false }) ∧
  ∀ s t : State, Inv s → s.run = .ready → exec .build s = .next t → t.run = .ready ∨ t.cause ≠ 4

/-! ### MKTABLE and the Tree Codec -/

/-- R141, R142, R145, R38: the table of a tree: a symbol has a code exactly when it is a leaf's, and the code
word is the path of its last leaf, of its one leaf when it has one. -/
def Obligations.MktableResult : Prop :=
  ∀ (s : State) (tree : CodeTree), s.run = .ready → s.treeV = true → s.tree = some tree → tree.wf = true →
    ∃ ct, exec .mktable s = .next { s with ct := ct, tabV := true } ∧ ct.length = 257 ∧
      (∀ sym : Sym, sym.toNat ≤ 256 →
        ((∃ c, ct[sym.toNat]? = some (some c)) ↔ sym ∈ tree.leaves) ∧
        codeWord ct sym.toNat = lastPath tree sym ∧
        ∀ p, (sym, p) ∈ tree.paths → tree.leaves.count sym = 1 → codeWord ct sym.toNat = some p) ∧
      ∀ (sym : Nat) (c : CodeCell), ct[sym]? = some (some c) → c.val.toNat < 2 ^ c.len.toNat ∧ c.len.toNat ≤ 256

/-- R89: no code word of a table MKTABLE makes is a prefix of another. -/
def Obligations.CodesPrefixFree : Prop :=
  ∀ (s t : State) (tree : CodeTree), s.run = .ready → s.treeV = true → s.tree = some tree → tree.wf = true →
    exec .mktable s = .next t → ∀ a b wa wb, a ≠ b → codeWord t.ct a = some wa → codeWord t.ct b = some wb →
      ¬ wa <+: wb

/-- R143: every depth and every pattern of a tree of at most 513 nodes fits its field; a tree from BUILD over `k`
symbols has depth at most `k - 1`, so a code of length 256 needs all 257 symbols. -/
def Obligations.CodeWidthsSuffice : Prop :=
  (∀ (tree : CodeTree) (p : Sym × List Bool), tree.nodes ≤ 513 → p ∈ tree.paths →
    p.2.length ≤ 256 ∧ (BitVec.ofNat 9 p.2.length).toNat = p.2.length ∧
    (BitVec.ofNat 256 (valOf p.2)).toNat = valOf p.2) ∧
  ∀ (s t : State) (tree : CodeTree), s.run = .ready → s.ftV = true → TableInv s → exec .build s = .next t →
    t.tree = some tree → ∀ p ∈ tree.paths, p.2.length ≤ (tableSyms s.cnt).length - 1 ∧
      (p.2.length = 256 → (tableSyms s.cnt).length = 257)

/-- R131: SERTREE appends the tree field; when an access fails, the bits before it stay. -/
def Obligations.SertreeResult : Prop :=
  ∀ (s : State) (tree : CodeTree), s.run = .ready → s.treeV = true → s.tree = some tree →
    (quiet s.out.errors → exec .sertree s = .next (s.appendOut (ser tree))) ∧
    ∀ j rest, j < (ser tree).length → s.out.errors = List.replicate j false ++ true :: rest →
      exec .sertree s = .next
        { s with
          run := .fault, cause := 3, finfo := 1
          out := { bits := s.out.bits ++ (ser tree).take j, errors := rest } }

/-- R132: SERTREE writes `11*L - 1` bits, and the same bits for the same abstract tree whatever its cells. -/
def Obligations.SertreeLength : Prop :=
  ∀ (s u : State) (tree : CodeTree), s.run = .ready → u.run = .ready → s.treeV = true → u.treeV = true →
    s.tree = some tree → u.tree = some tree → quiet s.out.errors → quiet u.out.errors →
    ∃ bits t v, exec .sertree s = .next t ∧ exec .sertree u = .next v ∧ t.out.bits = s.out.bits ++ bits ∧
      v.out.bits = u.out.bits ++ bits ∧ bits.length = 11 * tree.leaves.length - 1

/-- R87: the tree field is self-delimiting, its length is `11*L - 1`, `Ser` is injective, and the parser undoes
it. -/
def Obligations.TreeFieldSelfDelimiting : Prop :=
  (∀ (t t' : CodeTree) (r r' : List Bool), ser t ++ r = ser t' ++ r' → t = t' ∧ r = r') ∧
  (∀ t : CodeTree, (ser t).length = 11 * t.leaves.length - 1 ∧ t.nodes = t.leaves.length + (t.leaves.length - 1) ∧
    1 ≤ t.leaves.length) ∧
  ∀ (t : CodeTree) (rest : List Bool), t.nodes ≤ 513 → (∀ sym ∈ t.leaves, sym.toNat ≤ 256) →
    desBits (ser t ++ rest) 0 = .tree t rest t.nodes

/-- R135: `Des` satisfies its equations, and DESTREE is `Des` on the bits of `IN` from `IN.pos`. That the
discarded memories hold nothing after a fault is log entry 4 (DESIGN CHOICE). -/
def Obligations.DestreeIsDes : Prop :=
  (∀ n, n ≤ 513 → desBits [] n = .malformed 0 []) ∧
  (∀ b s, desBits (b :: s) 513 = .capacity s) ∧
  (∀ s n, n < 513 → s.length < 9 → desBits (false :: s) n = .malformed 1 []) ∧
  (∀ v s n, n < 513 → v.length = 9 → 256 < valOf v → desBits (false :: (v ++ s)) n = .malformed 2 s) ∧
  (∀ v s n, n < 513 → v.length = 9 → valOf v ≤ 256 →
    desBits (false :: (v ++ s)) n = .tree (.leaf (BitVec.ofNat 9 (valOf v))) s (n + 1)) ∧
  (∀ s n, n < 513 → desBits (true :: s) n =
    match desBits s (n + 1) with
    | .tree l s1 n1 =>
      (match desBits s1 n1 with
        | .tree r s2 n2 => .tree (.node l r) s2 n2
        | .malformed i s2 => .malformed i s2
        | .capacity s2 => .capacity s2)
    | .malformed i s1 => .malformed i s1
    | .capacity s1 => .capacity s1) ∧
  ∀ s : State, s.run = .ready → quiet s.inp.errors →
    match desBits s.inRest 0 with
    | .tree tree rest n => ∃ t, exec .destree s = .next t ∧ t.tree = some tree ∧ t.nnodes.toNat = n ∧
        t.run = .ready ∧ t.treeV = true ∧ t.inp.pos = s.inp.pos + (s.inRest.length - rest.length)
    | .malformed info rest => ∃ e, exec .destree s = .next
        { s.dropTree with
          run := .fault, cause := 2, finfo := info
          inp := { s.inp with pos := s.inp.pos + (s.inRest.length - rest.length), errors := e } }
    | .capacity rest => ∃ e, exec .destree s = .next
        { s.dropTree with
          run := .fault, cause := 8, finfo := 0
          inp := { s.inp with pos := s.inp.pos + (s.inRest.length - rest.length), errors := e } }

/-- R134, R138: DESTREE reads the tree field of any tree the block can hold, repeated symbols and a missing
sentinel included, and stops on the bit after it. That the weights and the discarded code table hold nothing is
log entry 4 (DESIGN CHOICE). -/
def Obligations.DestreeResult : Prop :=
  ∀ (s : State) (tree : CodeTree) (rest : List Bool), s.run = .ready → quiet s.inp.errors → tree.wf = true →
    s.inRest = ser tree ++ rest →
    ∃ t, exec .destree s = .next t ∧
      t = { s with
        treeV := true, tabV := false, node := preorderCells 0 tree, weight := [], ct := [], root := 0
        nnodes := BitVec.ofNat 10 tree.nodes, inp := (s.advanceIn (11 * tree.leaves.length - 1)).inp } ∧
      t.tree = some tree ∧ t.inRest = rest

/-- R137: the numbering DESTREE leaves. -/
def Obligations.DestreeNumbering : Prop :=
  ∀ s t : State, s.run = .ready → exec .destree s = .next t → t.run = .ready →
    ∃ tree, t.tree = some tree ∧ t.root = 0 ∧ t.nnodes.toNat = tree.nodes ∧ t.nnodes.toNat % 2 = 1 ∧
      1 ≤ t.nnodes.toNat ∧ t.nnodes.toNat ≤ 513 ∧ t.node.length = tree.nodes ∧
      ∀ (i : Nat) (l r : NodeIdx), t.node[i]? = some (.internal l r) →
        l.toNat = i + 1 ∧ i < r.toNat ∧
        ∃ left, treeAt Config.nodeCap t.node l.toNat = some left ∧ r.toNat = i + 1 + left.nodes

/-- R139: a tree goes through SERTREE and DESTREE unchanged, whatever its cells were, and has the same code
table after as before. -/
def Obligations.TreeRoundTrip : Prop :=
  ∀ (s u : State) (tree : CodeTree) (bits rest : List Bool) (t : State),
    s.run = .ready → s.treeV = true → TreeInv s → s.tree = some tree → quiet s.out.errors →
    exec .sertree s = .next t → t.out.bits = s.out.bits ++ bits →
    u.run = .ready → quiet u.inp.errors → u.inRest = bits ++ rest →
    ∃ v, exec .destree u = .next v ∧ v.run = .ready ∧ v.tree = some tree ∧ v.nnodes = s.nnodes ∧ v.root = 0 ∧
      ∃ a b, exec .mktable s = .next a ∧ exec .mktable v = .next b ∧ a.ct = b.ct

/-! ### Encoder and decoder -/

/-- R151: WRMAGIC appends the 32 bits of `MAGIC`; when an access fails, the bits before it stay. -/
def Obligations.WrmagicResult : Prop :=
  ∀ s : State, s.run = .ready →
    (quiet s.out.errors → exec .wrmagic s = .next (s.appendOut (bitsOf 32 s.params.magic.toNat))) ∧
    ∀ j rest, j < 32 → s.out.errors = List.replicate j false ++ true :: rest →
      exec .wrmagic s = .next
        { s with
          run := .fault, cause := 3, finfo := 1
          out := { bits := s.out.bits ++ (bitsOf 32 s.params.magic.toNat).take j, errors := rest } }

/-- R153, R88: ENCPAY appends the payload of the whole source. R55, R193: when an access fails, whichever it is,
the accesses before it have had their effect and no other has. The failing access is, clause by clause: bit `j` of
a byte's code word; bit `j` of the sentinel's; the rewind; the `m`-th access of the pass over byte `k`, the 0-th
being its `InMore`, which is the only one after the last byte. -/
def Obligations.EncpayResult : Prop :=
  ∀ s : State, s.run = .ready → s.tabV = true →
    (∀ p, quiet s.inp.errors → quiet s.out.errors → payload s.ct s.inp.bytes = some p →
      exec .encpay s = .next
        { s.appendOut p with
          inp := { s.inp with
            pos := 8 * s.inp.bytes.length, errors := s.inp.errors.drop (9 * s.inp.bytes.length + 2) } }) ∧
    (∀ (pre post : List Byte) (b : Byte) (ws w : List Bool) (j : Nat) (rest : List Bool),
      s.inp.bytes = pre ++ b :: post → codesOf s.ct pre = some ws → codeWord s.ct b.toNat = some w → j < w.length →
      quiet (s.inp.errors.take (9 * (pre.length + 1) + 1)) →
      s.out.errors = List.replicate (ws.length + j) false ++ true :: rest →
      exec .encpay s = .next
        { s with
          run := .fault, cause := 3, finfo := 1
          inp := { s.inp with
            pos := 8 * (pre.length + 1), errors := s.inp.errors.drop (9 * (pre.length + 1) + 1) }
          out := { bits := s.out.bits ++ ws ++ w.take j, errors := rest } }) ∧
    (∀ (ws w : List Bool) (j : Nat) (rest : List Bool),
      codesOf s.ct s.inp.bytes = some ws → codeWord s.ct 256 = some w → j < w.length →
      quiet (s.inp.errors.take (9 * s.inp.bytes.length + 2)) →
      s.out.errors = List.replicate (ws.length + j) false ++ true :: rest →
      exec .encpay s = .next
        { s with
          run := .fault, cause := 3, finfo := 1
          inp := { s.inp with
            pos := 8 * s.inp.bytes.length, errors := s.inp.errors.drop (9 * s.inp.bytes.length + 2) }
          out := { bits := s.out.bits ++ ws ++ w.take j, errors := rest } }) ∧
    (∀ rest, s.inp.errors = true :: rest →
      exec .encpay s = .next
        { s with run := .fault, cause := 3, finfo := 0, inp := { s.inp with errors := rest } }) ∧
    ∀ (k m : Nat) (ws rest : List Bool),
      (k < s.inp.bytes.length ∧ m ≤ 8) ∨ (k = s.inp.bytes.length ∧ m = 0) →
      codesOf s.ct (s.inp.bytes.take k) = some ws → quiet (s.out.errors.take ws.length) →
      s.inp.errors = List.replicate (9 * k + m + 1) false ++ true :: rest →
      exec .encpay s = .next
        { s.appendOut ws with
          run := .fault, cause := 3, finfo := 0
          inp := { s.inp with pos := 8 * k + (m - 1), errors := rest } }

/-- R154: a source byte, or the sentinel, without a code raises `NO_CODE` before anything is written for it;
under ENCODE it is unreachable. -/
def Obligations.NoCodeFault : Prop :=
  (∀ (s : State) (pre post : List Byte) (b : Byte) (ws : List Bool), s.run = .ready → s.tabV = true →
    quiet s.inp.errors → quiet s.out.errors → s.inp.bytes = pre ++ b :: post → codesOf s.ct pre = some ws →
    s.ct[b.toNat]? = some none →
    ∃ ei eo, exec .encpay s = .next
      { s with
        run := .fault, cause := 7, finfo := b.zeroExtend 32
        inp := { s.inp with pos := 8 * (pre.length + 1), errors := ei }
        out := { bits := s.out.bits ++ ws, errors := eo } }) ∧
  (∀ (s : State) (ws : List Bool), s.run = .ready → s.tabV = true → quiet s.inp.errors → quiet s.out.errors →
    codesOf s.ct s.inp.bytes = some ws → s.ct[256]? = some none →
    ∃ ei eo, exec .encpay s = .next
      { s with
        run := .fault, cause := 7, finfo := 256
        inp := { s.inp with pos := 8 * s.inp.bytes.length, errors := ei }
        out := { bits := s.out.bits ++ ws, errors := eo } }) ∧
  ∀ s t : State, s.run = .ready → exec .encode s = .next t → t.run = .fault → t.cause ≠ 7

/-- R156: the payload's length is the sum of count times code length, which for a tree from BUILD is the sum of
the internal weights; ENCPAY is a function of the source and the table. -/
def Obligations.PayloadLength : Prop :=
  (∀ (ct : List (Option CodeCell)) (src : List Byte) (p : List Bool), payload ct src = some p →
    p.length = codedLength (countTable src) ct) ∧
  (∀ (s t u : State) (src : List Byte), s.run = .ready → s.ftV = true → TableInv s → s.cnt = countTable src →
    exec .build s = .next t → exec .mktable t = .next u →
    codedLength s.cnt u.ct = innerWeight t.node t.weight) ∧
  ∀ s u t v : State, s.run = .ready → u.run = .ready → s.tabV = true → u.tabV = true →
    quiet s.inp.errors → quiet s.out.errors → quiet u.inp.errors → quiet u.out.errors →
    s.inp.bytes = u.inp.bytes → s.ct = u.ct → s.out.bits = u.out.bits →
    exec .encpay s = .next t → exec .encpay u = .next v → t.out.bits = v.out.bits

/-- R161: RDMAGIC compares the first 32 bits of the input with `MAGIC`; what it does on a short input and on a
failing access. -/
def Obligations.RdmagicResult : Prop :=
  ∀ s : State, s.run = .ready →
    (quiet s.inp.errors → 4 ≤ s.inp.bytes.length →
      (valOf ((unpack s.inp.bytes).take 32) = s.params.magic.toNat →
        exec .rdmagic s = .next { s with inp := { s.inp with pos := 32, errors := s.inp.errors.drop 33 } }) ∧
      (valOf ((unpack s.inp.bytes).take 32) ≠ s.params.magic.toNat →
        exec .rdmagic s = .next
          { s with
            run := .fault, cause := 1, finfo := 0
            inp := { s.inp with pos := 32, errors := s.inp.errors.drop 33 } })) ∧
    (quiet s.inp.errors → s.inp.bytes.length < 4 →
      exec .rdmagic s = .next
        { s with
          run := .fault, cause := 1, finfo := 1
          inp := { s.inp with
            pos := 8 * s.inp.bytes.length, errors := s.inp.errors.drop (8 * s.inp.bytes.length + 2) } }) ∧
    ∀ j rest, j ≤ 32 → j ≤ 8 * s.inp.bytes.length + 1 →
      s.inp.errors = List.replicate j false ++ true :: rest →
      exec .rdmagic s = .next
        { s with
          run := .fault, cause := 3, finfo := 0
          inp := { s.inp with pos := if j = 0 then s.inp.pos else j - 1, errors := rest } }

/-- R163, R165, R166: DECPAY on a tree whose root is internal: it emits the bytes its walk meets, stops on the
bit after the sentinel's code word, or raises `MALFORMED_BITSTREAM(3)` when the bits run out. R55, R193: when an
access fails, the accesses before it have had their effect and no other has: the read after the first `j` bits, or
bit `m` of the byte that the bit after the first `n` completes. -/
def Obligations.DecpayWalk : Prop :=
  ∀ (s : State) (l r : CodeTree), s.run = .ready → s.treeV = true → s.tree = some (.node l r) →
    (∀ bytes rest, quiet s.inp.errors → quiet s.out.errors →
      walkBits (.node l r) (.node l r) s.inRest = (bytes, some rest) →
      exec .decpay s = .next ((s.advanceIn (s.inRest.length - rest.length)).appendOut (unpack bytes)) ∧
      rest.length ≤ s.inRest.length) ∧
    (∀ bytes, quiet s.inp.errors → quiet s.out.errors →
      walkBits (.node l r) (.node l r) s.inRest = (bytes, none) →
      ∃ e, exec .decpay s = .next
        { s.appendOut (unpack bytes) with
          run := .fault, cause := 2, finfo := 3
          inp := { s.inp with pos := s.inp.pos + s.inRest.length, errors := e } }) ∧
    (∀ (bytes : List Byte) (j : Nat) (rest : List Bool), j ≤ s.inRest.length →
      walkBits (.node l r) (.node l r) (s.inRest.take j) = (bytes, none) →
      quiet (s.out.errors.take (8 * bytes.length)) → s.inp.errors = List.replicate j false ++ true :: rest →
      exec .decpay s = .next
        { s.appendOut (unpack bytes) with
          run := .fault, cause := 3, finfo := 0
          inp := { s.inp with pos := s.inp.pos + j, errors := rest } }) ∧
    ∀ (bytes : List Byte) (b : Byte) (n m : Nat) (rest : List Bool), n < s.inRest.length → m < 8 →
      walkBits (.node l r) (.node l r) (s.inRest.take n) = (bytes, none) →
      walkBits (.node l r) (.node l r) (s.inRest.take (n + 1)) = (bytes ++ [b], none) →
      quiet (s.inp.errors.take (n + 1)) → s.out.errors = List.replicate (8 * bytes.length + m) false ++ true :: rest →
      exec .decpay s = .next
        { s.advanceIn (n + 1) with
          run := .fault, cause := 3, finfo := 1
          out := { bits := s.out.bits ++ unpack bytes ++ (unpack [b]).take m, errors := rest } }

/-- R164: DECPAY on a tree whose root is a leaf. -/
def Obligations.DecpayLeafRoot : Prop :=
  ∀ (s : State) (sym : Sym), s.run = .ready → s.treeV = true → s.tree = some (.leaf sym) →
    (sym = 256 → exec .decpay s = .next s) ∧
    (sym ≠ 256 → exec .decpay s = .next { s with run := .fault, cause := 2, finfo := 4 })

/-- R167, R92: what DECPAY completes with is a whole number of bytes, each a leaf's symbol other than the
sentinel. -/
def Obligations.DecodedBytesAreLeaves : Prop :=
  ∀ (s t : State) (tree : CodeTree), s.run = .ready → s.treeV = true → s.tree = some tree → tree.wf = true →
    exec .decpay s = .next t → t.run = .ready →
    ∃ bytes, t.out.bits = s.out.bits ++ unpack bytes ∧ ∀ b ∈ bytes, symOfByte b ∈ tree.leaves

/-- R167 (b), R145, R166: DECPAY undoes ENCPAY, with or without repeated symbols in the tree, whatever bits
follow the payload. -/
def Obligations.PayloadRoundTrip : Prop :=
  ∀ (s : State) (tree : CodeTree) (src : List Byte) (p rest : List Bool), s.run = .ready → s.treeV = true →
    s.tree = some tree → tree.wf = true → quiet s.inp.errors → quiet s.out.errors →
    payload (codeTable tree) src = some p → s.inRest = p ++ rest →
    exec .decpay s = .next ((s.advanceIn p.length).appendOut (unpack src))

/-! ### ENCODE and DECODE -/

/-- R177, R84: ENCODE writes the container of its source, with the tree BUILD makes of the source's counts. -/
def Obligations.EncodeResult : Prop :=
  ∀ s : State, s.run = .ready → quiet s.inp.errors → quiet s.out.errors → countsFit s.params s.inp.bytes →
    ∃ t tree p, exec .encode s = .next t ∧ t.run = .ready ∧ t.tree = some tree ∧ tree.wf = true ∧
      t.ct = codeTable tree ∧ t.cnt = countTable s.inp.bytes ∧
      payload (codeTable tree) s.inp.bytes = some p ∧ t.out.bits = container s.params.magic tree p ∧
      t.ftV = true ∧ t.treeV = true ∧ t.tabV = true ∧ t.inp.pos = 8 * s.inp.bytes.length ∧
      t.cause = 0 ∧ t.finfo = 0 ∧
      ∃ b, exec .build { s with ftV := true, cnt := countTable s.inp.bytes } = .next b ∧ b.tree = some tree

/-- R178: DECODE reads a container and leaves the decoded bytes, whatever bits follow the payload. -/
def Obligations.DecodeResult : Prop :=
  ∀ (s : State) (tree : CodeTree) (src : List Byte) (p rest : List Bool), s.run = .ready → quiet s.inp.errors →
    quiet s.out.errors → tree.wf = true → payload (codeTable tree) src = some p →
    unpack s.inp.bytes = container s.params.magic tree p ++ rest →
    ∃ t, exec .decode s = .next t ∧ t.run = .ready ∧ t.out.bits = unpack src ∧ pack t.out.bits = src ∧
      t.tree = some tree ∧ t.ftV = false ∧ t.treeV = true ∧ t.tabV = false ∧ t.inRest = rest ∧
      t.inp.pos = (container s.params.magic tree p).length ∧ t.cause = 0 ∧ t.finfo = 0

/-- R162: under DECODE a format mismatch stops the sequence before DESTREE: no bit past the 32nd is read,
`TREE_V` stays 0 and `OUT` stays empty. -/
def Obligations.MagicMismatchStopsDecode : Prop :=
  ∀ s : State, s.run = .ready → quiet s.inp.errors → quiet s.out.errors →
    valOf ((unpack s.inp.bytes).take 32) ≠ s.params.magic.toNat ∨ s.inp.bytes.length < 4 →
    ∃ t, exec .decode s = .next t ∧ t.run = .fault ∧ t.cause = 1 ∧ t.inp.pos = min 32 (8 * s.inp.bytes.length) ∧
      t.treeV = false ∧ t.out.bits = []

/-- R179 (d): ENCODE and DECODE equal their command sequences, from every state in `READY` and whichever port
accesses fail. -/
def Obligations.CompositesAreSequences : Prop :=
  ∀ s : State, s.run = .ready →
    exec .encode s = execSeq [.clr, .count, .build, .wrmagic, .sertree, .mktable, .encpay] s ∧
    exec .decode s = execSeq [.clr, .rdmagic, .destree, .decpay] s

/-- R179 (a): `decode(encode(S)) = S`, the empty source included, for any value of the pad bits and whatever
whole bytes follow. -/
def Obligations.CodecRoundTrip : Prop :=
  ∀ s u t : State, s.run = .ready → quiet s.inp.errors → quiet s.out.errors →
    exec .encode s = .next t → t.run = .ready →
    u.run = .ready → quiet u.inp.errors → quiet u.out.errors → u.params.magic = s.params.magic →
    ((∃ rest, unpack u.inp.bytes = t.out.bits ++ rest) ∨ u.inp.bytes = pack t.out.bits) →
    ∃ v, exec .decode u = .next v ∧ v.run = .ready ∧ pack v.out.bits = s.inp.bytes

/-- R155: the container of the empty source: 42 bits, six bytes. -/
def Obligations.EmptySourceContainer : Prop :=
  ∀ s : State, s.run = .ready → quiet s.inp.errors → quiet s.out.errors → s.inp.bytes = [] →
    ∃ t, exec .encode s = .next t ∧ t.run = .ready ∧ t.tree = some (.leaf 256) ∧
      t.ct[256]? = some (some { len := 0, val := 0 }) ∧ payload t.ct [] = some [] ∧
      t.out.bits = bitsOf 32 s.params.magic.toNat ++ false :: bitsOf 9 256 ∧ t.out.bits.length = 42 ∧
      (pack t.out.bits).length = 6

/-- R55, R193 for COUNT and DESTREE, whose port is `IN` alone: when an access fails, the accesses before it have
had their effect on `IN.pos`, the structures are discarded, and the fault is `IO_FAILURE(0)`. For COUNT the failing
access is the rewind, or the `m`-th of the pass over byte `k`, the 0-th being its `InMore`, which is the only one
after the last byte; for DESTREE it is the read after the first `j` bits, which do not complete the tree field.
That the discarded memories hold nothing is log entry 4 (DESIGN CHOICE). -/
def Obligations.CountDestreePortFailure : Prop :=
  ∀ s : State, s.run = .ready →
    (∀ rest, s.inp.errors = true :: rest →
      exec .count s = .next
        { s.dropAll with run := .fault, cause := 3, finfo := 0, inp := { s.inp with errors := rest } }) ∧
    (∀ (k m : Nat) (rest : List Bool), (k < s.inp.bytes.length ∧ m ≤ 8) ∨ (k = s.inp.bytes.length ∧ m = 0) →
      countsFit s.params (s.inp.bytes.take k) →
      s.inp.errors = List.replicate (9 * k + m + 1) false ++ true :: rest →
      exec .count s = .next
        { s.dropAll with
          run := .fault, cause := 3, finfo := 0
          inp := { s.inp with pos := 8 * k + (m - 1), errors := rest } }) ∧
    ∀ (j : Nat) (info : Word) (rest : List Bool), j ≤ s.inRest.length → info = 0 ∨ info = 1 →
      desBits (s.inRest.take j) 0 = .malformed info [] → s.inp.errors = List.replicate j false ++ true :: rest →
      exec .destree s = .next
        { s.dropTree with
          run := .fault, cause := 3, finfo := 0
          inp := { s.inp with pos := s.inp.pos + j, errors := rest } }
end

