-- ==== Sys2Proof/Laws/Bits.lean ====
section
/-! SUPPORT. Bit strings: `bits(v, n)` and `val` are inverse (R9), the bits of a byte string (R57), `pack`
(R58). -/

namespace Sys2Proof

@[simp] theorem bitsOf_length (n v : Nat) : (bitsOf n v).length = n := by
  induction n with
  | zero => rfl
  | succ n ih => simp [bitsOf, ih]

theorem bitsOf_mod (n v : Nat) : ∀ m, n ≤ m → bitsOf n (v % 2 ^ m) = bitsOf n v := by
  induction n with
  | zero => intros; rfl
  | succ n ih =>
    intro m h
    simp only [bitsOf, Nat.testBit_mod_two_pow, ih m (by omega)]
    simp [show n < m by omega]

theorem bitsOf_append (n m v : Nat) : bitsOf (n + m) v = bitsOf n (v / 2 ^ m) ++ bitsOf m v := by
  induction n with
  | zero => simp [bitsOf]
  | succ n ih =>
    rw [show n + 1 + m = (n + m) + 1 by omega, bitsOf, ih, bitsOf, Nat.testBit_div_two_pow]
    simp

theorem valOf_append_singleton (s : List Bool) (b : Bool) : valOf (s ++ [b]) = 2 * valOf s + b.toNat := by
  simp [valOf, List.foldl_append]

theorem bitsOf_succ_end (n v : Nat) : bitsOf (n + 1) v = bitsOf n (v / 2) ++ [v.testBit 0] := by
  simpa [bitsOf] using bitsOf_append n 1 v

@[simp] theorem valOf_bitsOf (n v : Nat) : valOf (bitsOf n v) = v % 2 ^ n := by
  induction n generalizing v with
  | zero => simp [bitsOf, valOf, Nat.mod_one]
  | succ n ih =>
    rw [bitsOf_succ_end, valOf_append_singleton, ih, Nat.pow_succ, Nat.mul_comm (2 ^ n) 2, Nat.mod_mul]
    rcases Nat.mod_two_eq_zero_or_one v with h | h <;> (simp [Nat.testBit_zero, h] <;> omega)

theorem bitsOf_valOf (s : List Bool) : bitsOf s.length (valOf s) = s := by
  induction s using List.reverseRecOn with
  | nil => rfl
  | append_singleton s b ih =>
    rw [List.length_append, List.length_singleton, bitsOf_succ_end, valOf_append_singleton]
    have h1 : (2 * valOf s + b.toNat) / 2 = valOf s := by cases b <;> (simp <;> omega)
    have h2 : (2 * valOf s + b.toNat).testBit 0 = b := by cases b <;> simp [Nat.testBit_zero]
    rw [h1, ih, h2]

theorem valOf_lt (s : List Bool) : valOf s < 2 ^ s.length := by
  have h := congrArg valOf (bitsOf_valOf s)
  rw [valOf_bitsOf] at h
  rw [← h]; exact Nat.mod_lt _ (by positivity)

@[simp] theorem unpack_length (bs : List Byte) : (unpack bs).length = 8 * bs.length := by
  induction bs with
  | nil => rfl
  | cons b bs ih => simp [unpack, ih]; omega

theorem unpack_append (as bs : List Byte) : unpack (as ++ bs) = unpack as ++ unpack bs := by
  induction as with
  | nil => rfl
  | cons a as ih => simp [unpack, ih]

theorem bitsOf_getElem? (n v p : Nat) (h : p < n) : (bitsOf n v)[p]? = some (v.testBit (n - 1 - p)) := by
  induction n generalizing p with
  | zero => omega
  | succ n ih =>
    cases p with
    | zero => simp [bitsOf]
    | succ p => simp only [bitsOf, List.getElem?_cons_succ]; rw [ih p (by omega)]; congr 2; omega

/-- R57: the port's bit at a position is that bit of the input's bit string. -/
theorem bitAt_eq (bs : List Byte) (p : Nat) : bitAt bs p = (unpack bs)[p]? := by
  induction bs generalizing p with
  | nil => simp [bitAt, unpack]
  | cons b bs ih =>
    by_cases h : p < 8
    · have h0 : p / 8 = 0 := by omega
      have h1 : p % 8 = p := by omega
      simp only [bitAt, h0, h1, unpack]
      rw [List.getElem?_append_left (by simpa using h), bitsOf_getElem? 8 _ p h]
      simp [BitVec.getLsbD]
    · obtain ⟨q, rfl⟩ : ∃ q, p = q + 8 := ⟨p - 8, by omega⟩
      have h0 : (q + 8) / 8 = q / 8 + 1 := by omega
      have h1 : (q + 8) % 8 = q % 8 := by omega
      have := ih q
      simp only [bitAt, h0, h1, unpack] at this ⊢
      rw [List.getElem?_append_right (by simp), List.getElem?_cons_succ, this]
      simp

theorem valOf_byte (b : Byte) : valOf (bitsOf 8 b.toNat) = b.toNat := by
  rw [valOf_bitsOf]; exact Nat.mod_eq_of_lt b.isLt

theorem packN_length (n : Nat) (s : List Bool) (h : s.length ≤ 8 * n) :
    8 * (packN n s).length = s.length + (8 - s.length % 8) % 8 := by
  induction n generalizing s with
  | zero => simp at h; simp [packN, h]
  | succ n ih =>
    cases s with
    | nil => simp [packN]
    | cons b bs =>
      simp only [packN, List.length_cons]
      rw [Nat.mul_add, ih _ (by simp at h ⊢; omega)]
      simp only [List.length_drop, List.length_cons]
      omega

/-- R58: the bits of the packed file are the string and its zero pad bits. -/
theorem unpack_packN (n : Nat) (s : List Bool) (h : s.length ≤ 8 * n) :
    unpack (packN n s) = s ++ List.replicate ((8 - s.length % 8) % 8) false := by
  induction n generalizing s with
  | zero => simp at h; simp [packN, unpack, h]
  | succ n ih =>
    cases s with
    | nil => simp [packN, unpack]
    | cons b bs =>
      simp only [packN, unpack]
      rw [ih _ (by simp at h ⊢; omega)]
      generalize hs : b :: bs = s
      have hl : ((s.take 8) ++ List.replicate (8 - (s.take 8).length) false).length = 8 := by simp
      rw [BitVec.toNat_ofNat, bitsOf_mod 8 _ 8 (le_refl 8)]
      conv => lhs; lhs; lhs; rw [← hl]
      rw [bitsOf_valOf]
      by_cases h8 : s.length < 8
      · have hd : s.drop 8 = [] := List.drop_eq_nil_of_le (by omega)
        have hpos : 0 < s.length := by simp [← hs]
        rw [hd, List.take_of_length_le (by omega)]
        simp [Nat.mod_eq_of_lt h8, show (8 - s.length) % 8 = 8 - s.length by omega]
      · simp only [List.length_take, List.length_drop]
        rw [show 8 - min 8 s.length = 0 by omega, show (s.length - 8) % 8 = s.length % 8 by omega]
        simp [← List.append_assoc]

theorem unpack_pack (s : List Bool) :
    unpack (pack s) = s ++ List.replicate ((8 - s.length % 8) % 8) false :=
  unpack_packN _ _ (by omega)

theorem packN_unpack (n : Nat) (bs : List Byte) (h : bs.length ≤ n) : packN n (unpack bs) = bs := by
  induction n generalizing bs with
  | zero => simp at h; simp [packN, h]
  | succ n ih =>
    cases bs with
    | nil => simp [packN, unpack]
    | cons b bs =>
      have : unpack (b :: bs) = b.toNat.testBit 7 :: ((bitsOf 7 b.toNat) ++ unpack bs) := by
        simp [unpack, bitsOf]
      rw [this, packN, ← List.cons_append, show b.toNat.testBit 7 :: bitsOf 7 b.toNat = bitsOf 8 b.toNat from rfl]
      have ht : (bitsOf 8 b.toNat ++ unpack bs).take 8 = bitsOf 8 b.toNat := by
        rw [List.take_append_of_le_length (by simp)]; simp [List.take_of_length_le]
      have hd : (bitsOf 8 b.toNat ++ unpack bs).drop 8 = unpack bs := by
        rw [List.drop_append_of_le_length (by simp)]; simp
      simp only [ht, hd]
      rw [ih bs (by simpa using h)]
      simp
      exact BitVec.eq_of_toNat_eq (by have := b.isLt; simp; omega)

theorem pack_unpack (bs : List Byte) : pack (unpack bs) = bs :=
  packN_unpack _ _ (by simp; omega)

end Sys2Proof
end

