-- ==== Sys2Proof/Laws/State.lean ====
section
/-! SUPPORT. One lemma per field per named update of State, each true by rfl, so that no later proof unfolds
a record update. -/

namespace Sys2Proof.Machine

variable (s : State)

@[simp] theorem State.withInPos_run (pos : Nat) : (s.withInPos pos).run = s.run := rfl
@[simp] theorem State.withInPos_ftV (pos : Nat) : (s.withInPos pos).ftV = s.ftV := rfl
@[simp] theorem State.withInPos_treeV (pos : Nat) : (s.withInPos pos).treeV = s.treeV := rfl
@[simp] theorem State.withInPos_tabV (pos : Nat) : (s.withInPos pos).tabV = s.tabV := rfl
@[simp] theorem State.withInPos_cause (pos : Nat) : (s.withInPos pos).cause = s.cause := rfl
@[simp] theorem State.withInPos_finfo (pos : Nat) : (s.withInPos pos).finfo = s.finfo := rfl
@[simp] theorem State.withInPos_root (pos : Nat) : (s.withInPos pos).root = s.root := rfl
@[simp] theorem State.withInPos_nnodes (pos : Nat) : (s.withInPos pos).nnodes = s.nnodes := rfl
@[simp] theorem State.withInPos_cnt (pos : Nat) : (s.withInPos pos).cnt = s.cnt := rfl
@[simp] theorem State.withInPos_node (pos : Nat) : (s.withInPos pos).node = s.node := rfl
@[simp] theorem State.withInPos_weight (pos : Nat) : (s.withInPos pos).weight = s.weight := rfl
@[simp] theorem State.withInPos_live (pos : Nat) : (s.withInPos pos).live = s.live := rfl
@[simp] theorem State.withInPos_ct (pos : Nat) : (s.withInPos pos).ct = s.ct := rfl
@[simp] theorem State.withInPos_inp (pos : Nat) : (s.withInPos pos).inp = { s.inp with pos := pos } := rfl
@[simp] theorem State.withInPos_out (pos : Nat) : (s.withInPos pos).out = s.out := rfl
@[simp] theorem State.withInPos_params (pos : Nat) : (s.withInPos pos).params = s.params := rfl
@[simp] theorem State.withInPos_host (pos : Nat) : (s.withInPos pos).host = s.host := rfl
@[simp] theorem State.withInPos_readData (pos : Nat) : (s.withInPos pos).readData = s.readData := rfl
@[simp] theorem State.withInPos_openReads (pos : Nat) : (s.withInPos pos).openReads = s.openReads := rfl

@[simp] theorem State.withInErrors_run (e : List Bool) : (s.withInErrors e).run = s.run := rfl
@[simp] theorem State.withInErrors_ftV (e : List Bool) : (s.withInErrors e).ftV = s.ftV := rfl
@[simp] theorem State.withInErrors_treeV (e : List Bool) : (s.withInErrors e).treeV = s.treeV := rfl
@[simp] theorem State.withInErrors_tabV (e : List Bool) : (s.withInErrors e).tabV = s.tabV := rfl
@[simp] theorem State.withInErrors_cause (e : List Bool) : (s.withInErrors e).cause = s.cause := rfl
@[simp] theorem State.withInErrors_finfo (e : List Bool) : (s.withInErrors e).finfo = s.finfo := rfl
@[simp] theorem State.withInErrors_root (e : List Bool) : (s.withInErrors e).root = s.root := rfl
@[simp] theorem State.withInErrors_nnodes (e : List Bool) : (s.withInErrors e).nnodes = s.nnodes := rfl
@[simp] theorem State.withInErrors_cnt (e : List Bool) : (s.withInErrors e).cnt = s.cnt := rfl
@[simp] theorem State.withInErrors_node (e : List Bool) : (s.withInErrors e).node = s.node := rfl
@[simp] theorem State.withInErrors_weight (e : List Bool) : (s.withInErrors e).weight = s.weight := rfl
@[simp] theorem State.withInErrors_live (e : List Bool) : (s.withInErrors e).live = s.live := rfl
@[simp] theorem State.withInErrors_ct (e : List Bool) : (s.withInErrors e).ct = s.ct := rfl
@[simp] theorem State.withInErrors_inp (e : List Bool) : (s.withInErrors e).inp = { s.inp with errors := e } := rfl
@[simp] theorem State.withInErrors_out (e : List Bool) : (s.withInErrors e).out = s.out := rfl
@[simp] theorem State.withInErrors_params (e : List Bool) : (s.withInErrors e).params = s.params := rfl
@[simp] theorem State.withInErrors_host (e : List Bool) : (s.withInErrors e).host = s.host := rfl
@[simp] theorem State.withInErrors_readData (e : List Bool) : (s.withInErrors e).readData = s.readData := rfl
@[simp] theorem State.withInErrors_openReads (e : List Bool) : (s.withInErrors e).openReads = s.openReads := rfl

@[simp] theorem State.withOutBits_run (b : List Bool) : (s.withOutBits b).run = s.run := rfl
@[simp] theorem State.withOutBits_ftV (b : List Bool) : (s.withOutBits b).ftV = s.ftV := rfl
@[simp] theorem State.withOutBits_treeV (b : List Bool) : (s.withOutBits b).treeV = s.treeV := rfl
@[simp] theorem State.withOutBits_tabV (b : List Bool) : (s.withOutBits b).tabV = s.tabV := rfl
@[simp] theorem State.withOutBits_cause (b : List Bool) : (s.withOutBits b).cause = s.cause := rfl
@[simp] theorem State.withOutBits_finfo (b : List Bool) : (s.withOutBits b).finfo = s.finfo := rfl
@[simp] theorem State.withOutBits_root (b : List Bool) : (s.withOutBits b).root = s.root := rfl
@[simp] theorem State.withOutBits_nnodes (b : List Bool) : (s.withOutBits b).nnodes = s.nnodes := rfl
@[simp] theorem State.withOutBits_cnt (b : List Bool) : (s.withOutBits b).cnt = s.cnt := rfl
@[simp] theorem State.withOutBits_node (b : List Bool) : (s.withOutBits b).node = s.node := rfl
@[simp] theorem State.withOutBits_weight (b : List Bool) : (s.withOutBits b).weight = s.weight := rfl
@[simp] theorem State.withOutBits_live (b : List Bool) : (s.withOutBits b).live = s.live := rfl
@[simp] theorem State.withOutBits_ct (b : List Bool) : (s.withOutBits b).ct = s.ct := rfl
@[simp] theorem State.withOutBits_inp (b : List Bool) : (s.withOutBits b).inp = s.inp := rfl
@[simp] theorem State.withOutBits_out (b : List Bool) : (s.withOutBits b).out = { s.out with bits := b } := rfl
@[simp] theorem State.withOutBits_params (b : List Bool) : (s.withOutBits b).params = s.params := rfl
@[simp] theorem State.withOutBits_host (b : List Bool) : (s.withOutBits b).host = s.host := rfl
@[simp] theorem State.withOutBits_readData (b : List Bool) : (s.withOutBits b).readData = s.readData := rfl
@[simp] theorem State.withOutBits_openReads (b : List Bool) : (s.withOutBits b).openReads = s.openReads := rfl

@[simp] theorem State.withOutErrors_run (e : List Bool) : (s.withOutErrors e).run = s.run := rfl
@[simp] theorem State.withOutErrors_ftV (e : List Bool) : (s.withOutErrors e).ftV = s.ftV := rfl
@[simp] theorem State.withOutErrors_treeV (e : List Bool) : (s.withOutErrors e).treeV = s.treeV := rfl
@[simp] theorem State.withOutErrors_tabV (e : List Bool) : (s.withOutErrors e).tabV = s.tabV := rfl
@[simp] theorem State.withOutErrors_cause (e : List Bool) : (s.withOutErrors e).cause = s.cause := rfl
@[simp] theorem State.withOutErrors_finfo (e : List Bool) : (s.withOutErrors e).finfo = s.finfo := rfl
@[simp] theorem State.withOutErrors_root (e : List Bool) : (s.withOutErrors e).root = s.root := rfl
@[simp] theorem State.withOutErrors_nnodes (e : List Bool) : (s.withOutErrors e).nnodes = s.nnodes := rfl
@[simp] theorem State.withOutErrors_cnt (e : List Bool) : (s.withOutErrors e).cnt = s.cnt := rfl
@[simp] theorem State.withOutErrors_node (e : List Bool) : (s.withOutErrors e).node = s.node := rfl
@[simp] theorem State.withOutErrors_weight (e : List Bool) : (s.withOutErrors e).weight = s.weight := rfl
@[simp] theorem State.withOutErrors_live (e : List Bool) : (s.withOutErrors e).live = s.live := rfl
@[simp] theorem State.withOutErrors_ct (e : List Bool) : (s.withOutErrors e).ct = s.ct := rfl
@[simp] theorem State.withOutErrors_inp (e : List Bool) : (s.withOutErrors e).inp = s.inp := rfl
@[simp] theorem State.withOutErrors_out (e : List Bool) : (s.withOutErrors e).out = { s.out with errors := e } := rfl
@[simp] theorem State.withOutErrors_params (e : List Bool) : (s.withOutErrors e).params = s.params := rfl
@[simp] theorem State.withOutErrors_host (e : List Bool) : (s.withOutErrors e).host = s.host := rfl
@[simp] theorem State.withOutErrors_readData (e : List Bool) : (s.withOutErrors e).readData = s.readData := rfl
@[simp] theorem State.withOutErrors_openReads (e : List Bool) : (s.withOutErrors e).openReads = s.openReads := rfl

@[simp] theorem State.advanceIn_run (k : Nat) : (s.advanceIn k).run = s.run := rfl
@[simp] theorem State.advanceIn_ftV (k : Nat) : (s.advanceIn k).ftV = s.ftV := rfl
@[simp] theorem State.advanceIn_treeV (k : Nat) : (s.advanceIn k).treeV = s.treeV := rfl
@[simp] theorem State.advanceIn_tabV (k : Nat) : (s.advanceIn k).tabV = s.tabV := rfl
@[simp] theorem State.advanceIn_cause (k : Nat) : (s.advanceIn k).cause = s.cause := rfl
@[simp] theorem State.advanceIn_finfo (k : Nat) : (s.advanceIn k).finfo = s.finfo := rfl
@[simp] theorem State.advanceIn_root (k : Nat) : (s.advanceIn k).root = s.root := rfl
@[simp] theorem State.advanceIn_nnodes (k : Nat) : (s.advanceIn k).nnodes = s.nnodes := rfl
@[simp] theorem State.advanceIn_cnt (k : Nat) : (s.advanceIn k).cnt = s.cnt := rfl
@[simp] theorem State.advanceIn_node (k : Nat) : (s.advanceIn k).node = s.node := rfl
@[simp] theorem State.advanceIn_weight (k : Nat) : (s.advanceIn k).weight = s.weight := rfl
@[simp] theorem State.advanceIn_live (k : Nat) : (s.advanceIn k).live = s.live := rfl
@[simp] theorem State.advanceIn_ct (k : Nat) : (s.advanceIn k).ct = s.ct := rfl
@[simp] theorem State.advanceIn_inp (k : Nat) : (s.advanceIn k).inp = { s.inp with pos := s.inp.pos + k, errors := s.inp.errors.drop k } := rfl
@[simp] theorem State.advanceIn_out (k : Nat) : (s.advanceIn k).out = s.out := rfl
@[simp] theorem State.advanceIn_params (k : Nat) : (s.advanceIn k).params = s.params := rfl
@[simp] theorem State.advanceIn_host (k : Nat) : (s.advanceIn k).host = s.host := rfl
@[simp] theorem State.advanceIn_readData (k : Nat) : (s.advanceIn k).readData = s.readData := rfl
@[simp] theorem State.advanceIn_openReads (k : Nat) : (s.advanceIn k).openReads = s.openReads := rfl

@[simp] theorem State.appendOut_run (b : List Bool) : (s.appendOut b).run = s.run := rfl
@[simp] theorem State.appendOut_ftV (b : List Bool) : (s.appendOut b).ftV = s.ftV := rfl
@[simp] theorem State.appendOut_treeV (b : List Bool) : (s.appendOut b).treeV = s.treeV := rfl
@[simp] theorem State.appendOut_tabV (b : List Bool) : (s.appendOut b).tabV = s.tabV := rfl
@[simp] theorem State.appendOut_cause (b : List Bool) : (s.appendOut b).cause = s.cause := rfl
@[simp] theorem State.appendOut_finfo (b : List Bool) : (s.appendOut b).finfo = s.finfo := rfl
@[simp] theorem State.appendOut_root (b : List Bool) : (s.appendOut b).root = s.root := rfl
@[simp] theorem State.appendOut_nnodes (b : List Bool) : (s.appendOut b).nnodes = s.nnodes := rfl
@[simp] theorem State.appendOut_cnt (b : List Bool) : (s.appendOut b).cnt = s.cnt := rfl
@[simp] theorem State.appendOut_node (b : List Bool) : (s.appendOut b).node = s.node := rfl
@[simp] theorem State.appendOut_weight (b : List Bool) : (s.appendOut b).weight = s.weight := rfl
@[simp] theorem State.appendOut_live (b : List Bool) : (s.appendOut b).live = s.live := rfl
@[simp] theorem State.appendOut_ct (b : List Bool) : (s.appendOut b).ct = s.ct := rfl
@[simp] theorem State.appendOut_inp (b : List Bool) : (s.appendOut b).inp = s.inp := rfl
@[simp] theorem State.appendOut_out (b : List Bool) : (s.appendOut b).out = { bits := s.out.bits ++ b, errors := s.out.errors.drop b.length } := rfl
@[simp] theorem State.appendOut_params (b : List Bool) : (s.appendOut b).params = s.params := rfl
@[simp] theorem State.appendOut_host (b : List Bool) : (s.appendOut b).host = s.host := rfl
@[simp] theorem State.appendOut_readData (b : List Bool) : (s.appendOut b).readData = s.readData := rfl
@[simp] theorem State.appendOut_openReads (b : List Bool) : (s.appendOut b).openReads = s.openReads := rfl

@[simp] theorem State.dropTab_run : (s.dropTab).run = s.run := rfl
@[simp] theorem State.dropTab_ftV : (s.dropTab).ftV = s.ftV := rfl
@[simp] theorem State.dropTab_treeV : (s.dropTab).treeV = s.treeV := rfl
@[simp] theorem State.dropTab_tabV : (s.dropTab).tabV = false := rfl
@[simp] theorem State.dropTab_cause : (s.dropTab).cause = s.cause := rfl
@[simp] theorem State.dropTab_finfo : (s.dropTab).finfo = s.finfo := rfl
@[simp] theorem State.dropTab_root : (s.dropTab).root = s.root := rfl
@[simp] theorem State.dropTab_nnodes : (s.dropTab).nnodes = s.nnodes := rfl
@[simp] theorem State.dropTab_cnt : (s.dropTab).cnt = s.cnt := rfl
@[simp] theorem State.dropTab_node : (s.dropTab).node = s.node := rfl
@[simp] theorem State.dropTab_weight : (s.dropTab).weight = s.weight := rfl
@[simp] theorem State.dropTab_live : (s.dropTab).live = s.live := rfl
@[simp] theorem State.dropTab_ct : (s.dropTab).ct = [] := rfl
@[simp] theorem State.dropTab_inp : (s.dropTab).inp = s.inp := rfl
@[simp] theorem State.dropTab_out : (s.dropTab).out = s.out := rfl
@[simp] theorem State.dropTab_params : (s.dropTab).params = s.params := rfl
@[simp] theorem State.dropTab_host : (s.dropTab).host = s.host := rfl
@[simp] theorem State.dropTab_readData : (s.dropTab).readData = s.readData := rfl
@[simp] theorem State.dropTab_openReads : (s.dropTab).openReads = s.openReads := rfl

@[simp] theorem State.dropTree_run : (s.dropTree).run = s.run := rfl
@[simp] theorem State.dropTree_ftV : (s.dropTree).ftV = s.ftV := rfl
@[simp] theorem State.dropTree_treeV : (s.dropTree).treeV = false := rfl
@[simp] theorem State.dropTree_tabV : (s.dropTree).tabV = false := rfl
@[simp] theorem State.dropTree_cause : (s.dropTree).cause = s.cause := rfl
@[simp] theorem State.dropTree_finfo : (s.dropTree).finfo = s.finfo := rfl
@[simp] theorem State.dropTree_root : (s.dropTree).root = 0 := rfl
@[simp] theorem State.dropTree_nnodes : (s.dropTree).nnodes = 0 := rfl
@[simp] theorem State.dropTree_cnt : (s.dropTree).cnt = s.cnt := rfl
@[simp] theorem State.dropTree_node : (s.dropTree).node = [] := rfl
@[simp] theorem State.dropTree_weight : (s.dropTree).weight = [] := rfl
@[simp] theorem State.dropTree_live : (s.dropTree).live = s.live := rfl
@[simp] theorem State.dropTree_ct : (s.dropTree).ct = [] := rfl
@[simp] theorem State.dropTree_inp : (s.dropTree).inp = s.inp := rfl
@[simp] theorem State.dropTree_out : (s.dropTree).out = s.out := rfl
@[simp] theorem State.dropTree_params : (s.dropTree).params = s.params := rfl
@[simp] theorem State.dropTree_host : (s.dropTree).host = s.host := rfl
@[simp] theorem State.dropTree_readData : (s.dropTree).readData = s.readData := rfl
@[simp] theorem State.dropTree_openReads : (s.dropTree).openReads = s.openReads := rfl

@[simp] theorem State.dropAll_run : (s.dropAll).run = s.run := rfl
@[simp] theorem State.dropAll_ftV : (s.dropAll).ftV = false := rfl
@[simp] theorem State.dropAll_treeV : (s.dropAll).treeV = false := rfl
@[simp] theorem State.dropAll_tabV : (s.dropAll).tabV = false := rfl
@[simp] theorem State.dropAll_cause : (s.dropAll).cause = s.cause := rfl
@[simp] theorem State.dropAll_finfo : (s.dropAll).finfo = s.finfo := rfl
@[simp] theorem State.dropAll_root : (s.dropAll).root = 0 := rfl
@[simp] theorem State.dropAll_nnodes : (s.dropAll).nnodes = 0 := rfl
@[simp] theorem State.dropAll_cnt : (s.dropAll).cnt = [] := rfl
@[simp] theorem State.dropAll_node : (s.dropAll).node = [] := rfl
@[simp] theorem State.dropAll_weight : (s.dropAll).weight = [] := rfl
@[simp] theorem State.dropAll_live : (s.dropAll).live = s.live := rfl
@[simp] theorem State.dropAll_ct : (s.dropAll).ct = [] := rfl
@[simp] theorem State.dropAll_inp : (s.dropAll).inp = s.inp := rfl
@[simp] theorem State.dropAll_out : (s.dropAll).out = s.out := rfl
@[simp] theorem State.dropAll_params : (s.dropAll).params = s.params := rfl
@[simp] theorem State.dropAll_host : (s.dropAll).host = s.host := rfl
@[simp] theorem State.dropAll_readData : (s.dropAll).readData = s.readData := rfl
@[simp] theorem State.dropAll_openReads : (s.dropAll).openReads = s.openReads := rfl

@[simp] theorem faultEntry_run (c : Cause) (i : Word) : (faultEntry c i s).run = .fault := rfl
@[simp] theorem faultEntry_ftV (c : Cause) (i : Word) : (faultEntry c i s).ftV = s.ftV := rfl
@[simp] theorem faultEntry_treeV (c : Cause) (i : Word) : (faultEntry c i s).treeV = s.treeV := rfl
@[simp] theorem faultEntry_tabV (c : Cause) (i : Word) : (faultEntry c i s).tabV = s.tabV := rfl
@[simp] theorem faultEntry_cause (c : Cause) (i : Word) : (faultEntry c i s).cause = c.code := rfl
@[simp] theorem faultEntry_finfo (c : Cause) (i : Word) : (faultEntry c i s).finfo = i := rfl
@[simp] theorem faultEntry_root (c : Cause) (i : Word) : (faultEntry c i s).root = s.root := rfl
@[simp] theorem faultEntry_nnodes (c : Cause) (i : Word) : (faultEntry c i s).nnodes = s.nnodes := rfl
@[simp] theorem faultEntry_cnt (c : Cause) (i : Word) : (faultEntry c i s).cnt = s.cnt := rfl
@[simp] theorem faultEntry_node (c : Cause) (i : Word) : (faultEntry c i s).node = s.node := rfl
@[simp] theorem faultEntry_weight (c : Cause) (i : Word) : (faultEntry c i s).weight = s.weight := rfl
@[simp] theorem faultEntry_live (c : Cause) (i : Word) : (faultEntry c i s).live = s.live := rfl
@[simp] theorem faultEntry_ct (c : Cause) (i : Word) : (faultEntry c i s).ct = s.ct := rfl
@[simp] theorem faultEntry_inp (c : Cause) (i : Word) : (faultEntry c i s).inp = s.inp := rfl
@[simp] theorem faultEntry_out (c : Cause) (i : Word) : (faultEntry c i s).out = s.out := rfl
@[simp] theorem faultEntry_params (c : Cause) (i : Word) : (faultEntry c i s).params = s.params := rfl
@[simp] theorem faultEntry_host (c : Cause) (i : Word) : (faultEntry c i s).host = s.host := rfl
@[simp] theorem faultEntry_readData (c : Cause) (i : Word) : (faultEntry c i s).readData = s.readData := rfl
@[simp] theorem faultEntry_openReads (c : Cause) (i : Word) : (faultEntry c i s).openReads = s.openReads := rfl

@[simp] theorem applyReset_run : (applyReset s).run = .ready := rfl
@[simp] theorem applyReset_ftV : (applyReset s).ftV = false := rfl
@[simp] theorem applyReset_treeV : (applyReset s).treeV = false := rfl
@[simp] theorem applyReset_tabV : (applyReset s).tabV = false := rfl
@[simp] theorem applyReset_cause : (applyReset s).cause = 0 := rfl
@[simp] theorem applyReset_finfo : (applyReset s).finfo = 0 := rfl
@[simp] theorem applyReset_root : (applyReset s).root = 0 := rfl
@[simp] theorem applyReset_nnodes : (applyReset s).nnodes = 0 := rfl
@[simp] theorem applyReset_cnt : (applyReset s).cnt = [] := rfl
@[simp] theorem applyReset_node : (applyReset s).node = [] := rfl
@[simp] theorem applyReset_weight : (applyReset s).weight = [] := rfl
@[simp] theorem applyReset_live : (applyReset s).live = [] := rfl
@[simp] theorem applyReset_ct : (applyReset s).ct = [] := rfl
@[simp] theorem applyReset_inp : (applyReset s).inp = { s.inp with pos := 0 } := rfl
@[simp] theorem applyReset_out : (applyReset s).out = { s.out with bits := [] } := rfl
@[simp] theorem applyReset_params : (applyReset s).params = s.params := rfl
@[simp] theorem applyReset_host : (applyReset s).host = s.host := rfl
@[simp] theorem applyReset_readData : (applyReset s).readData = s.readData := rfl
@[simp] theorem applyReset_openReads : (applyReset s).openReads = s.openReads := rfl

end Sys2Proof.Machine
end

