-- ==== Sys2Proof/Laws/Ports.lean ====
section
/-! SUPPORT. One spec lemma per port primitive: what it does on a quiet port (R50 to R54), what an `error`
answer does (R55), and what it leaves unchanged in every case. -/

namespace Sys2Proof.Machine

@[simp] theorem andThen_done {α β} (a : α) (s : State) (k : α → State → Run β) :
    (Run.done a s).andThen k = k a s := rfl
@[simp] theorem andThen_ended {α β} (s : State) (k : α → State → Run β) :
    (Run.ended s : Run α).andThen k = .ended s := rfl
@[simp] theorem andThen_stuck {α β} (f : Fault) (k : α → State → Run β) :
    (Run.stuck f : Run α).andThen k = .stuck f := rfl
@[simp] theorem andThen_raise {α β} (c : Cause) (i : Word) (s : State) (k : α → State → Run β) :
    (raise c i s : Run α).andThen k = raise c i s := rfl

@[simp] theorem andThen_assoc {α β γ} (r : Run α) (k : α → State → Run β) (l : β → State → Run γ) :
    (r.andThen k).andThen l = r.andThen fun a s => (k a s).andThen l := by
  cases r <;> rfl

theorem quiet_nil : quiet [] := by simp [quiet]
theorem quiet_tail {e : Bool} {es : List Bool} (h : quiet (e :: es)) : quiet es :=
  fun x hx => h x (List.mem_cons_of_mem _ hx)
theorem quiet_drop {es : List Bool} (h : quiet es) (k : Nat) : quiet (es.drop k) :=
  fun x hx => h x (List.mem_of_mem_drop hx)

theorem quiet_take {es : List Bool} (h : quiet es) (k : Nat) : quiet (es.take k) :=
  fun x hx => h x (List.mem_of_mem_take hx)

/-- Answers granted in a row, taken apart. -/
theorem quiet_take_add {es : List Bool} {j k : Nat} :
    quiet (es.take (j + k)) ↔ quiet (es.take j) ∧ quiet ((es.drop j).take k) := by
  rw [List.take_add]
  simp only [quiet, List.mem_append, or_imp, forall_and]

theorem quiet_replicate (k : Nat) (rest : List Bool) : quiet ((List.replicate k false ++ rest).take k) := by
  intro x hx
  rw [List.take_left' (by simp)] at hx
  exact (List.mem_replicate.1 hx).2

/-- An access of `IN` that the environment grants goes through. -/
theorem inAccess_granted {s : State} (h : quiet (s.inp.errors.take 1)) :
    inAccess s = .done () (s.withInErrors (s.inp.errors.drop 1)) := by
  unfold inAccess
  split
  · rename_i he
    rw [show s.inp.errors.drop 1 = s.inp.errors by simp [he]]; rfl
  · rename_i he; simp [he]
  · rename_i he; rw [he] at h; simp at h

/-- An access of `OUT` that the environment grants goes through. -/
theorem outAccess_granted {s : State} (h : quiet (s.out.errors.take 1)) :
    outAccess s = .done () (s.withOutErrors (s.out.errors.drop 1)) := by
  unfold outAccess
  split
  · rename_i he
    rw [show s.out.errors.drop 1 = s.out.errors by simp [he]]; rfl
  · rename_i he; simp [he]
  · rename_i he; rw [he] at h; simp at h

theorem inMore_granted {s : State} (h : quiet (s.inp.errors.take 1)) :
    inMore s = .done (decide (s.inp.pos < 8 * s.inp.bytes.length)) (s.withInErrors (s.inp.errors.drop 1)) := by
  rw [inMore, inAccess_granted h]; rfl

theorem inRewind_granted {s : State} (h : quiet (s.inp.errors.take 1)) :
    inRewind s = .done () { s with inp := { s.inp with pos := 0, errors := s.inp.errors.drop 1 } } := by
  simp [inRewind, inAccess_granted h, State.withInPos, State.withInErrors]

theorem inMore_quiet {s : State} (h : quiet s.inp.errors) :
    inMore s = .done (decide (s.inp.pos < 8 * s.inp.bytes.length)) (s.withInErrors (s.inp.errors.drop 1)) :=
  inMore_granted (quiet_take h 1)

theorem inRewind_quiet {s : State} (h : quiet s.inp.errors) :
    inRewind s = .done () { s with inp := { s.inp with pos := 0, errors := s.inp.errors.drop 1 } } :=
  inRewind_granted (quiet_take h 1)

theorem outReset_quiet {s : State} (h : quiet s.out.errors) :
    outReset s = .done () { s with out := { bits := [], errors := s.out.errors.drop 1 } } := by
  simp [outReset, outAccess_granted (quiet_take h 1), State.withOutBits, State.withOutErrors]

theorem inRest_cons {s : State} {b : Bool} {bs : List Bool} (h : s.inRest = b :: bs) :
    bitAt s.inp.bytes s.inp.pos = some b := by
  rw [bitAt_eq, ← List.head?_drop]; simp [State.inRest] at h; simp [h]

theorem inRest_nil {s : State} (h : s.inRest = []) : bitAt s.inp.bytes s.inp.pos = none := by
  rw [bitAt_eq, ← List.head?_drop]; simp only [State.inRest] at h; simp [h]

theorem inRest_advance {s : State} {k : Nat} : (s.advanceIn k).inRest = s.inRest.drop k := by
  simp [State.inRest, List.drop_drop]

theorem inRest_length (s : State) : s.inRest.length = 8 * s.inp.bytes.length - s.inp.pos := by
  simp [State.inRest]

theorem advanceIn_advanceIn (s : State) (j k : Nat) : (s.advanceIn j).advanceIn k = s.advanceIn (j + k) := by
  simp [State.advanceIn, List.drop_drop, Nat.add_assoc]

theorem appendOut_appendOut (s : State) (a b : List Bool) :
    (s.appendOut a).appendOut b = s.appendOut (a ++ b) := by
  simp [State.appendOut, List.drop_drop]

theorem inBit_granted_cons {s : State} {b : Bool} {bs : List Bool} (h : quiet (s.inp.errors.take 1))
    (hr : s.inRest = b :: bs) : inBit s = .done (some b) (s.advanceIn 1) := by
  simp [inBit, inAccess_granted h, inRest_cons hr, State.withInErrors, State.withInPos, State.advanceIn]

theorem inBit_quiet_cons {s : State} {b : Bool} {bs : List Bool} (h : quiet s.inp.errors)
    (hr : s.inRest = b :: bs) : inBit s = .done (some b) (s.advanceIn 1) :=
  inBit_granted_cons (quiet_take h 1) hr

theorem inBit_quiet_nil {s : State} (h : quiet s.inp.errors) (hr : s.inRest = []) :
    inBit s = .done none (s.withInErrors (s.inp.errors.drop 1)) := by
  simp [inBit, inAccess_granted (quiet_take h 1), inRest_nil hr]

theorem inBitsFrom_granted {n v : Nat} {s : State} {bs rest : List Bool} (h : quiet (s.inp.errors.take n))
    (hr : s.inRest = bs ++ rest) (hn : bs.length = n) :
    inBitsFrom n v s = .done (some (bs.foldl (fun v b => 2 * v + b.toNat) v)) (s.advanceIn n) := by
  induction n generalizing v s bs with
  | zero => simp at hn; subst hn; simp [inBitsFrom, State.advanceIn]
  | succ n ih =>
    cases bs with
    | nil => simp at hn
    | cons b bs =>
      rw [Nat.add_comm, quiet_take_add] at h
      simp only [inBitsFrom, inBit_granted_cons h.1 (by simpa using hr), andThen_done]
      rw [ih (bs := bs) (by simpa using h.2) (by rw [inRest_advance, hr]; simp) (by simpa using hn)]
      simp [advanceIn_advanceIn, Nat.mul_comm, Nat.add_comm]

/-- R52: `InBits(n)` with enough bits, its accesses granted. -/
theorem inBits_granted {n : Nat} {s : State} {bs rest : List Bool} (h : quiet (s.inp.errors.take n))
    (hr : s.inRest = bs ++ rest) (hn : bs.length = n) :
    inBits n s = .done (some (valOf bs)) (s.advanceIn n) := inBitsFrom_granted h hr hn

/-- R52: `InBits(n)` on a quiet port with enough bits. -/
theorem inBits_quiet {n : Nat} {s : State} {bs rest : List Bool} (h : quiet s.inp.errors)
    (hr : s.inRest = bs ++ rest) (hn : bs.length = n) :
    inBits n s = .done (some (valOf bs)) (s.advanceIn n) := inBits_granted (quiet_take h n) hr hn

theorem inBitsFrom_short {n v : Nat} {s : State} (h : quiet s.inp.errors) (hn : s.inRest.length < n) :
    inBitsFrom n v s = .done none
      { s with inp := { s.inp with
          pos := s.inp.pos + s.inRest.length, errors := s.inp.errors.drop (s.inRest.length + 1) } } := by
  induction n generalizing v s with
  | zero => simp at hn
  | succ n ih =>
    cases hr : s.inRest with
    | nil => simp [inBitsFrom, inBit_quiet_nil h hr, State.withInErrors]
    | cons b bs =>
      simp only [inBitsFrom, inBit_quiet_cons h hr, andThen_done]
      rw [ih (by simpa using quiet_drop h 1) (by rw [inRest_advance, hr]; simp [hr] at hn ⊢; omega)]
      simp [inRest_advance, hr, Nat.add_assoc, Nat.add_comm 1]

/-- R52: `InBits(n)` on a quiet port with fewer than `n` bits consumes them all and answers `exhausted`. -/
theorem inBits_short {n : Nat} {s : State} (h : quiet s.inp.errors) (hn : s.inRest.length < n) :
    inBits n s = .done none
      { s with inp := { s.inp with
          pos := s.inp.pos + s.inRest.length, errors := s.inp.errors.drop (s.inRest.length + 1) } } :=
  inBitsFrom_short h hn

theorem outBit_granted {s : State} (b : Bool) (h : quiet (s.out.errors.take 1)) :
    outBit b s = .done () (s.appendOut [b]) := by
  simp [outBit, outAccess_granted h, State.withOutErrors, State.withOutBits, State.appendOut]

theorem outBit_quiet {s : State} (b : Bool) (h : quiet s.out.errors) :
    outBit b s = .done () (s.appendOut [b]) := outBit_granted b (quiet_take h 1)

/-- R54: a bit string whose accesses are granted is appended whole. -/
theorem outString_granted {s : State} {bs : List Bool} (h : quiet (s.out.errors.take bs.length)) :
    outString bs s = .done () (s.appendOut bs) := by
  induction bs generalizing s with
  | nil => simp [outString, State.appendOut]
  | cons b bs ih =>
    rw [List.length_cons, Nat.add_comm, quiet_take_add] at h
    rw [outString, outBit_granted b h.1, andThen_done, ih (by simpa using h.2), appendOut_appendOut]
    rfl

/-- R54: a bit string on a quiet port is appended whole. -/
theorem outString_quiet {s : State} (bs : List Bool) (h : quiet s.out.errors) :
    outString bs s = .done () (s.appendOut bs) := outString_granted (quiet_take h _)

theorem outBits_quiet {s : State} (v n : Nat) (h : quiet s.out.errors) :
    outBits v n s = .done () (s.appendOut (bitsOf n v)) := outString_quiet _ h

/-- R55, R193: the bits before the failing access stay in `OUT`; `IO_FAILURE(1)` is raised. -/
theorem outString_error {s : State} {bs : List Bool} {j : Nat} {rest : List Bool} (hj : j < bs.length)
    (he : s.out.errors = List.replicate j false ++ true :: rest) :
    outString bs s = raise .ioFailure 1
      { s with out := { bits := s.out.bits ++ bs.take j, errors := rest } } := by
  induction bs generalizing s j with
  | nil => simp at hj
  | cons b bs ih =>
    cases j with
    | zero => simp at he; simp [outString, outBit, outAccess, he, State.withOutErrors]
    | succ j =>
      simp only [List.replicate_succ, List.cons_append] at he
      simp only [outString, outBit, outAccess, he, andThen_done]
      rw [ih (j := j) (by simpa using hj) (by simp)]
      simp [State.withOutBits, State.withOutErrors]

/-- R55 within `InBits`: the bits before the failing access are consumed. -/
theorem inBitsFrom_error {n j v : Nat} {s : State} {rest : List Bool} (hj : j < n) (hr : j ≤ s.inRest.length)
    (he : s.inp.errors = List.replicate j false ++ true :: rest) :
    inBitsFrom n v s = raise .ioFailure 0 { s with inp := { s.inp with pos := s.inp.pos + j, errors := rest } } := by
  induction j generalizing n v s with
  | zero =>
    cases n with
    | zero => omega
    | succ n => simp at he; simp [inBitsFrom, inBit, inAccess, he, State.withInErrors]
  | succ j ih =>
    cases n with
    | zero => omega
    | succ n =>
      simp only [List.replicate_succ, List.cons_append] at he
      cases hl : s.inRest with
      | nil => rw [hl] at hr; simp at hr
      | cons b bs =>
        have hb := inRest_cons hl
        simp only [inBitsFrom, inBit, inAccess, he, andThen_done, State.withInErrors_inp, hb]
        rw [ih (by omega) ?_ rfl]
        · simp [State.withInPos, State.withInErrors, Nat.add_assoc, Nat.add_comm 1]
        · have : ((s.withInErrors (List.replicate j false ++ true :: rest)).withInPos (s.inp.pos + 1)).inRest = bs := by
            have : s.inRest.drop 1 = bs := by rw [hl]; rfl
            rw [← this]; simp [State.inRest, List.drop_drop]
          rw [this]; rw [hl] at hr; simpa using hr


/-- R52, R55: `InBits(n)` failing after `j` bits. -/
theorem inBits_error {n j : Nat} {s : State} {rest : List Bool} (hj : j < n) (hr : j ≤ s.inRest.length)
    (he : s.inp.errors = List.replicate j false ++ true :: rest) :
    inBits n s = raise .ioFailure 0 { s with inp := { s.inp with pos := s.inp.pos + j, errors := rest } } :=
  inBitsFrom_error hj hr he

theorem inAccess_error {s : State} {rest : List Bool} (he : s.inp.errors = true :: rest) :
    inAccess s = raise .ioFailure 0 (s.withInErrors rest) := by simp [inAccess, he]

theorem inMore_error {s : State} {rest : List Bool} (he : s.inp.errors = true :: rest) :
    inMore s = raise .ioFailure 0 (s.withInErrors rest) := by simp [inMore, inAccess_error he]

theorem inBit_error {s : State} {rest : List Bool} (he : s.inp.errors = true :: rest) :
    inBit s = raise .ioFailure 0 (s.withInErrors rest) := by simp [inBit, inAccess_error he]

theorem inRewind_error {s : State} {rest : List Bool} (he : s.inp.errors = true :: rest) :
    inRewind s = raise .ioFailure 0 (s.withInErrors rest) := by simp [inRewind, inAccess_error he]

end Sys2Proof.Machine
end

