-- ==== Sys2Proof/Laws/Ends.lean ====
section
/-! SUPPORT. How a piece of a command can end, said once: `Ends` speaks of all three ends of a Run, its rule for
`andThen` chains the statements of a command, and each port primitive has one lemma for all answers of the
environment (R55), its frame included. -/

namespace Sys2Proof.Machine

/-- `P` holds of every normal end, `E` of every state a `raise` leaves, and `S` if the run is stuck. -/
def Run.Ends {α : Type} (r : Run α) (P : α → State → Prop) (E : State → Prop) (S : Prop) : Prop :=
  match r with
  | .done a s => P a s
  | .ended s => E s
  | .stuck _ => S

@[simp] theorem ends_done {α} (a : α) (s : State) (P E S) : (Run.done a s).Ends P E S ↔ P a s := Iff.rfl
@[simp] theorem ends_ended {α} (s : State) (P : α → State → Prop) (E S) :
    (Run.ended s : Run α).Ends P E S ↔ E s := Iff.rfl
@[simp] theorem ends_stuck {α} (f : Fault) (P : α → State → Prop) (E S) :
    (Run.stuck f : Run α).Ends P E S ↔ S := Iff.rfl

theorem Run.Ends.andThen {α β} {r : Run α} {k : α → State → Run β} {P : α → State → Prop}
    {Q : β → State → Prop} {E : State → Prop} {S : Prop} (h : r.Ends P E S)
    (hk : ∀ a s, P a s → (k a s).Ends Q E S) : (r.andThen k).Ends Q E S := by
  cases r with
  | done a s => exact hk a s h
  | ended s => exact h
  | stuck f => exact h

theorem Run.Ends.mono {α} {r : Run α} {P Q : α → State → Prop} {E F : State → Prop} {S T : Prop}
    (h : r.Ends P E S) (hp : ∀ a s, P a s → Q a s) (he : ∀ s, E s → F s) (hs : S → T) : r.Ends Q F T := by
  cases r with
  | done a s => exact hp a s h
  | ended s => exact he s h
  | stuck f => exact hs h

/-- The states fault entry makes of the causes `A` in the states `F`. -/
def Raises (A : Cause → Word → Prop) (F : State → Prop) (t : State) : Prop :=
  ∃ c i u, A c i ∧ F u ∧ t = faultEntry c i u

theorem Raises.mono {A B : Cause → Word → Prop} {F G : State → Prop} {t : State} (h : Raises A F t)
    (ha : ∀ c i, A c i → B c i) (hf : ∀ u, F u → G u) : Raises B G t := by
  obtain ⟨c, i, u, h1, h2, h3⟩ := h
  exact ⟨c, i, u, ha _ _ h1, hf _ h2, h3⟩

@[simp] theorem ends_raise {α} {c : Cause} {i : Word} {s : State} {P : α → State → Prop} {E : State → Prop}
    {S : Prop} : (raise c i s : Run α).Ends P E S ↔ E (faultEntry c i s) := Iff.rfl

/-- `u` differs from `s` at most in `IN.pos` and the input port's answers, and `IN.pos` did not leave the
input. -/
def InMoved (s u : State) : Prop :=
  u = { s with inp := { s.inp with pos := u.inp.pos, errors := u.inp.errors } } ∧
    (s.inp.pos ≤ 8 * s.inp.bytes.length → u.inp.pos ≤ 8 * s.inp.bytes.length)

/-- `u` differs from `s` at most in the output port's answers and in bits appended to `OUT`. -/
def OutMoved (s u : State) : Prop :=
  ∃ bits e, u = { s with out := { bits := s.out.bits ++ bits, errors := e } }

/-- The one fault of the input port (R183). -/
def inFailure (c : Cause) (i : Word) : Prop := c = .ioFailure ∧ i = 0
/-- The one fault of the output port (R183). -/
def outFailure (c : Cause) (i : Word) : Prop := c = .ioFailure ∧ i = 1

theorem InMoved.refl (s : State) : InMoved s s := ⟨rfl, id⟩

theorem InMoved.trans {s t u : State} (h1 : InMoved s t) (h2 : InMoved t u) : InMoved s u := by
  obtain ⟨h1, p1⟩ := h1
  obtain ⟨h2, p2⟩ := h2
  have hb : t.inp.bytes = s.inp.bytes := by rw [h1]
  rw [hb] at p2
  refine ⟨?_, fun h => p2 (p1 h)⟩
  rw [h2]
  conv => lhs; rw [h1]

theorem OutMoved.refl (s : State) : OutMoved s s := ⟨[], s.out.errors, by simp⟩

theorem OutMoved.trans {s t u : State} (h1 : OutMoved s t) (h2 : OutMoved t u) : OutMoved s u := by
  obtain ⟨b1, e1, rfl⟩ := h1
  obtain ⟨b2, e2, rfl⟩ := h2
  exact ⟨b1 ++ b2, e2, by simp⟩

theorem inAccess_ends (s : State) :
    (inAccess s).Ends (fun _ u => ∃ e, u = s.withInErrors e) (Raises inFailure fun u => ∃ e, u = s.withInErrors e)
      False := by
  unfold inAccess
  split
  · exact ⟨s.inp.errors, rfl⟩
  · exact ⟨_, rfl⟩
  · exact ⟨_, _, _, ⟨rfl, rfl⟩, ⟨_, rfl⟩, rfl⟩

theorem outAccess_ends (s : State) :
    (outAccess s).Ends (fun _ u => ∃ e, u = s.withOutErrors e)
      (Raises outFailure fun u => ∃ e, u = s.withOutErrors e) False := by
  unfold outAccess
  split
  · exact ⟨s.out.errors, rfl⟩
  · exact ⟨_, rfl⟩
  · exact ⟨_, _, _, ⟨rfl, rfl⟩, ⟨_, rfl⟩, rfl⟩

theorem inMoved_errors (s : State) (e : List Bool) : InMoved s (s.withInErrors e) := ⟨rfl, id⟩

theorem outMoved_errors (s : State) (e : List Bool) : OutMoved s (s.withOutErrors e) :=
  ⟨[], e, by simp [State.withOutErrors]⟩

theorem inMore_ends (s : State) :
    (inMore s).Ends (fun b u => (∃ e, u = s.withInErrors e) ∧ (b = true ↔ s.inp.pos < 8 * s.inp.bytes.length))
      (Raises inFailure (InMoved s)) False := by
  refine Run.Ends.andThen ((inAccess_ends s).mono (fun _ _ h => h) ?_ id) ?_
  · exact fun t h => h.mono (fun _ _ h => h) (by rintro u ⟨e, rfl⟩; exact inMoved_errors s e)
  · rintro _ u ⟨e, rfl⟩
    simp only [ends_done]
    exact ⟨⟨e, rfl⟩, decide_eq_true_iff⟩

/-- R51 with all answers of the environment. -/
theorem inBit_ends (s : State) :
    (inBit s).Ends
      (fun b u => InMoved s u ∧
        ((b = none ∧ s.inRest = [] ∧ u.inp.pos = s.inp.pos) ∨
          ∃ x, b = some x ∧ s.inRest = x :: u.inRest ∧ u.inp.pos = s.inp.pos + 1))
      (Raises inFailure (InMoved s)) False := by
  refine Run.Ends.andThen ((inAccess_ends s).mono (fun _ _ h => h) ?_ id) ?_
  · exact fun t h => h.mono (fun _ _ h => h) (by rintro u ⟨e, rfl⟩; exact inMoved_errors s e)
  · rintro _ u ⟨e, rfl⟩
    have hb : bitAt (s.withInErrors e).inp.bytes (s.withInErrors e).inp.pos = s.inRest.head? := by
      simp [bitAt_eq, State.inRest, List.head?_drop]
    cases hr : s.inRest with
    | nil =>
      simp only [hb, hr, List.head?_nil, ends_done]
      exact ⟨inMoved_errors s e, .inl (by simp)⟩
    | cons x xs =>
      simp only [hb, hr, List.head?_cons, ends_done]
      have hl := inRest_length s
      rw [hr] at hl
      refine ⟨⟨rfl, fun h => ?_⟩, .inr ⟨x, rfl, ?_, rfl⟩⟩
      · simp at hl ⊢; omega
      · have : xs = s.inRest.drop 1 := by simp [hr]
        rw [this]; simp [State.inRest, List.drop_drop]

theorem inBitsFrom_ends (n v : Nat) (s : State) :
    (inBitsFrom n v s).Ends
      (fun b u => InMoved s u ∧
        ((b = none ∧ s.inRest.length < n ∧ u.inp.pos = s.inp.pos + s.inRest.length) ∨
          (n ≤ s.inRest.length ∧ u.inp.pos = s.inp.pos + n ∧ u.inRest = s.inRest.drop n ∧
            b = some ((s.inRest.take n).foldl (fun v b => 2 * v + b.toNat) v))))
      (Raises inFailure (InMoved s)) False := by
  induction n generalizing v s with
  | zero => exact ⟨InMoved.refl s, .inr ⟨by simp, rfl, by simp, by simp⟩⟩
  | succ n ih =>
    refine Run.Ends.andThen (inBit_ends s) ?_
    rintro b u ⟨hm, ⟨rfl, hr, hp⟩ | ⟨x, rfl, hr, hp⟩⟩
    · simp only [ends_done]
      exact ⟨hm, .inl (by simp [hr, hp])⟩
    · refine (ih (v * 2 + x.toNat) u).mono ?_ (fun t h => h.mono (fun _ _ h => h) fun _ h => hm.trans h) id
      rintro b w ⟨hm2, ⟨rfl, hn, hp2⟩ | ⟨hn, hp2, hr2, rfl⟩⟩
      · exact ⟨hm.trans hm2, .inl ⟨rfl, by simp [hr, hn], by simp [hr, hp2, hp]; omega⟩⟩
      · refine ⟨hm.trans hm2, .inr ⟨by simp [hr, hn], by omega, by simp [hr, hr2], ?_⟩⟩
        simp [hr, Nat.mul_comm]

/-- R52 with all answers of the environment. -/
theorem inBits_ends (n : Nat) (s : State) :
    (inBits n s).Ends
      (fun b u => InMoved s u ∧
        ((b = none ∧ s.inRest.length < n ∧ u.inp.pos = s.inp.pos + s.inRest.length) ∨
          (n ≤ s.inRest.length ∧ u.inp.pos = s.inp.pos + n ∧ u.inRest = s.inRest.drop n ∧
            b = some (valOf (s.inRest.take n)))))
      (Raises inFailure (InMoved s)) False := inBitsFrom_ends n 0 s

theorem inRewind_ends (s : State) :
    (inRewind s).Ends (fun _ u => InMoved s u ∧ u.inp.pos = 0) (Raises inFailure (InMoved s)) False := by
  refine Run.Ends.andThen ((inAccess_ends s).mono (fun _ _ h => h) ?_ id) ?_
  · exact fun t h => h.mono (fun _ _ h => h) (by rintro u ⟨e, rfl⟩; exact inMoved_errors s e)
  · rintro _ u ⟨e, rfl⟩
    exact ⟨⟨rfl, fun _ => by simp [State.withInPos]⟩, rfl⟩

/-- R54 with all answers of the environment. -/
theorem outString_ends (bs : List Bool) (s : State) :
    (outString bs s).Ends (fun _ u => ∃ e, u = { s with out := { bits := s.out.bits ++ bs, errors := e } })
      (Raises outFailure (OutMoved s)) False := by
  induction bs generalizing s with
  | nil => exact ⟨s.out.errors, by simp⟩
  | cons b bs ih =>
    refine Run.Ends.andThen (P := fun _ u => ∃ e, u = { s with out := { bits := s.out.bits ++ [b], errors := e } }) ?_ ?_
    · refine Run.Ends.andThen ((outAccess_ends s).mono (fun _ _ h => h) ?_ id) ?_
      · exact fun t h => h.mono (fun _ _ h => h) (by rintro u ⟨e, rfl⟩; exact outMoved_errors s e)
      · rintro _ u ⟨e, rfl⟩
        exact ⟨e, rfl⟩
    · rintro _ u ⟨e, rfl⟩
      refine (ih _).mono ?_ ?_ id
      · rintro _ u ⟨e, rfl⟩; exact ⟨e, by simp⟩
      · exact fun t h => h.mono (fun _ _ h => h) fun u h => OutMoved.trans ⟨[b], e, rfl⟩ h

end Sys2Proof.Machine
end

