-- ==== Sys2Proof/Laws/Tree.lean ====
section
/-! SUPPORT. The abstract tree (R12): sizes, paths and codes (R87, R89, R142, R143), and the trees a node memory
holds. -/

namespace Sys2Proof

theorem CodeTree.nodes_leaves (t : CodeTree) : t.nodes + 1 = 2 * t.leaves.length := by
  induction t with
  | leaf s => rfl
  | node l r hl hr => simp [CodeTree.nodes, CodeTree.leaves]; omega

theorem CodeTree.leaves_pos (t : CodeTree) : 0 < t.leaves.length := by
  induction t with
  | leaf s => simp [CodeTree.leaves]
  | node l r hl hr => simp [CodeTree.leaves]; omega

theorem CodeTree.nodes_pos (t : CodeTree) : 0 < t.nodes := by
  cases t <;> simp [CodeTree.nodes]

/-- R143: a tree of `n` nodes is at most `(n-1)/2` deep. -/
theorem CodeTree.height_nodes (t : CodeTree) : 2 * t.height + 1 ≤ t.nodes := by
  induction t with
  | leaf s => simp [CodeTree.height, CodeTree.nodes]
  | node l r hl hr =>
    have := l.nodes_pos
    have := r.nodes_pos
    simp only [CodeTree.height, CodeTree.nodes]; omega

theorem CodeTree.paths_fst (t : CodeTree) : t.paths.map (·.1) = t.leaves := by
  induction t with
  | leaf s => rfl
  | node l r hl hr => simp [CodeTree.paths, CodeTree.leaves, ← hl, ← hr, Function.comp_def]

theorem CodeTree.path_length (t : CodeTree) (p : Sym × List Bool) (h : p ∈ t.paths) : p.2.length ≤ t.height := by
  induction t generalizing p with
  | leaf s => simp [CodeTree.paths] at h; simp [h]
  | node l r hl hr =>
    simp only [CodeTree.paths, List.mem_append, List.mem_map] at h
    rcases h with ⟨q, hq, rfl⟩ | ⟨q, hq, rfl⟩
    · have := hl q hq; simp [CodeTree.height]; omega
    · have := hr q hq; simp [CodeTree.height]; omega

/-- R87: `|Ser(t)| = 11*L - 1`. -/
theorem ser_length (t : CodeTree) : (ser t).length + 1 = 11 * t.leaves.length := by
  induction t with
  | leaf s => simp [ser, CodeTree.leaves]
  | node l r hl hr => simp [ser, CodeTree.leaves]; omega

theorem CodeTree.symsOk_node (l r : CodeTree) : (CodeTree.node l r).symsOk = (l.symsOk && r.symsOk) := by
  simp [CodeTree.symsOk, CodeTree.leaves, List.all_append]

theorem CodeTree.symsOk_leaf (s : Sym) : (CodeTree.leaf s).symsOk = decide (s.toNat ≤ Config.eos) := by
  simp [CodeTree.symsOk, CodeTree.leaves]

theorem CodeTree.wf_nodes {t : CodeTree} (h : t.wf = true) : t.nodes ≤ Config.nodeCap := by
  simp [CodeTree.wf] at h; exact h.1

theorem CodeTree.wf_syms {t : CodeTree} (h : t.wf = true) : t.symsOk = true := by
  simp [CodeTree.wf] at h; exact h.2

/-- R143: no leaf of a tree the block can hold is deeper than 256. -/
theorem CodeTree.wf_height {t : CodeTree} (h : t.wf = true) : t.height ≤ 256 := by
  have := t.height_nodes
  have := t.wf_nodes h
  simp only [Config.nodeCap] at this
  omega

namespace Machine

/-- The cells hold the tree below an index. -/
def holds (m : List NodeCell) : Nat → CodeTree → Prop
  | i, .leaf s => m[i]? = some (.leaf s)
  | i, .node l r => ∃ a b : NodeIdx, m[i]? = some (.internal a b) ∧ holds m a.toNat l ∧ holds m b.toNat r

theorem treeAt_of_holds {m : List NodeCell} {t : CodeTree} {i n : Nat} (h : holds m i t) (hn : t.height < n) :
    treeAt n m i = some t := by
  induction t generalizing i n with
  | leaf s =>
    cases n with
    | zero => omega
    | succ n => simp only [holds] at h; simp [treeAt, h]
  | node l r hl hr =>
    obtain ⟨a, b, hi, ha, hb⟩ := h
    cases n with
    | zero => omega
    | succ n =>
      simp only [CodeTree.height] at hn
      simp [treeAt, hi, hl (n := n) ha (by omega), hr (n := n) hb (by omega)]

theorem holds_of_treeAt {m : List NodeCell} {t : CodeTree} {i n : Nat} (h : treeAt n m i = some t) : holds m i t := by
  induction n generalizing i t with
  | zero => simp [treeAt] at h
  | succ n ih =>
    unfold treeAt at h
    split at h
    · simp at h
    · rename_i s hs; simp at h; subst h; exact hs
    · rename_i l r hlr
      split at h
      · rename_i tl tr h1 h2
        simp at h; subst h
        exact ⟨l, r, hlr, ih h1, ih h2⟩
      · simp at h

theorem holds_append {m : List NodeCell} {t : CodeTree} {i : Nat} (x : List NodeCell) (h : holds m i t) :
    holds (m ++ x) i t := by
  induction t generalizing i with
  | leaf s =>
    simp only [holds] at h ⊢
    rw [List.getElem?_append_left (List.getElem?_eq_some_iff.1 h).1]; exact h
  | node l r hl hr =>
    obtain ⟨a, b, hi, ha, hb⟩ := h
    refine ⟨a, b, ?_, hl ha, hr hb⟩
    rw [List.getElem?_append_left (List.getElem?_eq_some_iff.1 hi).1]; exact hi

theorem holds_lt {m : List NodeCell} {t : CodeTree} {i : Nat} (h : holds m i t) : i < m.length := by
  cases t with
  | leaf s => exact (List.getElem?_eq_some_iff.1 h).1
  | node l r => obtain ⟨a, b, hi, -⟩ := h; exact (List.getElem?_eq_some_iff.1 hi).1

/-- The indices of a tree's cells in pre-order. -/
def indices (m : List NodeCell) : Nat → CodeTree → List Nat
  | i, .leaf _ => [i]
  | i, .node l r =>
    match m[i]? with
    | some (.internal a b) => i :: (indices m a.toNat l ++ indices m b.toNat r)
    | _ => [i]

theorem visited_eq_indices {m : List NodeCell} {t : CodeTree} {i n : Nat} (h : holds m i t) (hn : t.height < n) :
    visited n m i = indices m i t := by
  induction t generalizing i n with
  | leaf s =>
    cases n with
    | zero => omega
    | succ n => simp only [holds] at h; simp [visited, indices, h]
  | node l r hl hr =>
    obtain ⟨a, b, hi, ha, hb⟩ := h
    cases n with
    | zero => omega
    | succ n =>
      simp only [CodeTree.height] at hn
      simp [visited, indices, hi, hl (n := n) ha (by omega), hr (n := n) hb (by omega)]

theorem indices_append {m : List NodeCell} {t : CodeTree} {i : Nat} (x : List NodeCell) (h : holds m i t) :
    indices (m ++ x) i t = indices m i t := by
  induction t generalizing i with
  | leaf s => rfl
  | node l r hl hr =>
    obtain ⟨a, b, hi, ha, hb⟩ := h
    have hi2 : (m ++ x)[i]? = some (.internal a b) := by
      rw [List.getElem?_append_left (List.getElem?_eq_some_iff.1 hi).1]; exact hi
    simp only [indices, hi, hi2, hl ha, hr hb]

theorem preorderCells_length (i : Nat) (t : CodeTree) : (preorderCells i t).length = t.nodes := by
  induction t generalizing i with
  | leaf s => rfl
  | node l r hl hr => simp [preorderCells, CodeTree.nodes, hl, hr]; omega

/-- R137: cells numbered in pre-order hold their tree, and its indices are consecutive. -/
theorem preorder_holds (t : CodeTree) (pre post : List NodeCell) (h : pre.length + t.nodes ≤ 1024) :
    holds (pre ++ preorderCells pre.length t ++ post) pre.length t ∧
      indices (pre ++ preorderCells pre.length t ++ post) pre.length t = List.range' pre.length t.nodes := by
  induction t generalizing pre post with
  | leaf s => simp [holds, preorderCells, indices, CodeTree.nodes]
  | node l r hl hr =>
    simp only [CodeTree.nodes] at h
    have hln := l.nodes_pos
    have hrn := r.nodes_pos
    generalize hc : NodeCell.internal (BitVec.ofNat 10 (pre.length + 1))
      (BitVec.ofNat 10 (pre.length + 1 + l.nodes)) = c
    have h1 := hl (pre ++ [c]) (preorderCells (pre.length + 1 + l.nodes) r ++ post) (by simp; omega)
    have h2 := hr (pre ++ [c] ++ preorderCells (pre.length + 1) l) post
      (by simp [preorderCells_length]; omega)
    simp only [List.length_append, List.length_singleton, preorderCells_length] at h1 h2
    have e1 : pre ++ [c] ++ preorderCells (pre.length + 1) l ++
        (preorderCells (pre.length + 1 + l.nodes) r ++ post) =
        pre ++ preorderCells pre.length (.node l r) ++ post := by
      simp [preorderCells, hc]
    have e2 : pre ++ [c] ++ preorderCells (pre.length + 1) l ++ preorderCells (pre.length + 1 + l.nodes) r ++ post =
        pre ++ preorderCells pre.length (.node l r) ++ post := by
      simp [preorderCells, hc]
    rw [e1] at h1
    rw [e2] at h2
    have hi : (pre ++ preorderCells pre.length (.node l r) ++ post)[pre.length]? = some c := by
      simp [preorderCells, hc]
    have ha : (BitVec.ofNat 10 (pre.length + 1)).toNat = pre.length + 1 := by simp; omega
    have hb : (BitVec.ofNat 10 (pre.length + 1 + l.nodes)).toNat = pre.length + 1 + l.nodes := by simp; omega
    subst hc
    refine ⟨⟨_, _, hi, by rw [ha]; exact h1.1, by rw [hb]; exact h2.1⟩, ?_⟩
    simp only [indices, hi, ha, hb, h1.2, h2.2, CodeTree.nodes]
    rw [show 1 + l.nodes + r.nodes = (l.nodes + r.nodes) + 1 by omega, List.range'_succ]
    congr 1
    rw [List.range'_append_1]

theorem preorder_treeAt {t : CodeTree} (h : t.nodes ≤ Config.nodeCap) :
    treeAt Config.nodeCap (preorderCells 0 t) 0 = some t := by
  have := (preorder_holds t [] [] (by simp [Config.nodeCap] at h ⊢; omega)).1
  simp only [List.nil_append, List.append_nil, List.length_nil] at this
  refine treeAt_of_holds this ?_
  have := t.height_nodes
  omega

theorem preorder_visited {t : CodeTree} (h : t.nodes ≤ Config.nodeCap) :
    visited Config.nodeCap (preorderCells 0 t) 0 = List.range t.nodes := by
  have := preorder_holds t [] [] (by simp [Config.nodeCap] at h ⊢; omega)
  simp only [List.nil_append, List.append_nil, List.length_nil] at this
  have hh := t.height_nodes
  rw [visited_eq_indices this.1 (by omega), this.2, List.range_eq_range']

/-- The pair a path accumulates (R93, R141). -/
def pathCell (pattern depth : Nat) (p : List Bool) : CodeCell :=
  { len := BitVec.ofNat 9 (depth + p.length)
    val := BitVec.ofNat 256 (p.foldl (fun v b => 2 * v + b.toNat) pattern) }

/-- R141: the walk writes each leaf's pair, in left-to-right order. -/
theorem walkCodes_eq (t : CodeTree) (pattern depth : Nat) (ct : List (Option CodeCell)) :
    walkCodes t pattern depth ct =
      t.paths.foldl (fun ct p => ct.set p.1.toNat (some (pathCell pattern depth p.2))) ct := by
  induction t generalizing pattern depth ct with
  | leaf s => simp [walkCodes, CodeTree.paths, pathCell]
  | node l r hl hr =>
    simp only [walkCodes, hl, hr, CodeTree.paths, List.foldl_append, List.foldl_map]
    have e1 : ∀ p : Sym × List Bool, pathCell (pattern * 2) (depth + 1) p.2 = pathCell pattern depth (false :: p.2) := by
      intro p; simp [pathCell, Nat.mul_comm, Nat.add_assoc, Nat.add_comm 1]
    have e2 : ∀ p : Sym × List Bool,
        pathCell (pattern * 2 + 1) (depth + 1) p.2 = pathCell pattern depth (true :: p.2) := by
      intro p; simp [pathCell, Nat.mul_comm, Nat.add_assoc, Nat.add_comm 1]
    simp only [e1, e2]

theorem foldl_set_length {α β} (l : List β) (f : β → Nat) (g : β → α) (ct : List α) :
    (l.foldl (fun ct p => ct.set (f p) (g p)) ct).length = ct.length := by
  induction l generalizing ct with
  | nil => rfl
  | cons x l ih => simp [ih]

/-- The last write to a cell decides it (R145). -/
theorem foldl_set_getElem? {α β} (l : List β) (f : β → Nat) (g : β → α) (ct : List α) (i : Nat)
    (hi : i < ct.length) :
    (l.foldl (fun ct p => ct.set (f p) (g p)) ct)[i]? =
      match l.reverse.find? (fun p => decide (f p = i)) with
      | some p => some (g p)
      | none => ct[i]? := by
  induction l using List.reverseRecOn with
  | nil => simp
  | append_singleton l x ih =>
    simp only [List.foldl_append, List.foldl_cons, List.foldl_nil, List.reverse_append, List.reverse_cons,
      List.reverse_nil, List.nil_append, List.singleton_append, List.find?_cons]
    by_cases h : f x = i
    · subst h
      rw [List.getElem?_set_self (by rwa [foldl_set_length])]
      simp
    · rw [List.getElem?_set_ne h, ih]
      simp [h]

theorem codeTable_length (t : CodeTree) : (codeTable t).length = Config.nsym := by
  rw [codeTable, walkCodes_eq, foldl_set_length, List.length_replicate]

/-- R142, R145: a cell of the table is the last path of its symbol, and invalid where there is none. -/
theorem codeTable_getElem? (t : CodeTree) (sym : Sym) (h : sym.toNat < Config.nsym) :
    (codeTable t)[sym.toNat]? = some ((lastPath t sym).map (pathCell 0 0)) := by
  rw [codeTable, walkCodes_eq, foldl_set_getElem? _ _ _ _ _ (by simpa using h)]
  simp only [lastPath, ← BitVec.toNat_inj]
  cases hf : t.paths.reverse.find? (fun p => decide (p.1.toNat = sym.toNat)) with
  | none => simp only [Option.map_none]; rw [List.getElem?_replicate, if_pos h]
  | some p => simp

/-- R93: the stored pair is the path. -/
theorem pathCell_bits (p : List Bool) (h : p.length ≤ 256) :
    bitsOf (pathCell 0 0 p).len.toNat (pathCell 0 0 p).val.toNat = p := by
  have hv := valOf_lt p
  have h1 : (pathCell 0 0 p).len.toNat = p.length := by simp [pathCell]; omega
  have h2 : (pathCell 0 0 p).val.toNat = valOf p := by
    simp only [pathCell, BitVec.toNat_ofNat]
    exact Nat.mod_eq_of_lt (lt_of_lt_of_le hv (Nat.pow_le_pow_right (by norm_num) h))
  rw [h1, h2, bitsOf_valOf]

theorem lastPath_mem {t : CodeTree} {sym : Sym} {p : List Bool} (h : lastPath t sym = some p) :
    (sym, p) ∈ t.paths := by
  simp only [lastPath, Option.map_eq_some_iff] at h
  obtain ⟨q, hq, rfl⟩ := h
  have h1 := List.find?_some hq
  have h2 := List.mem_of_find?_eq_some hq
  simp only [decide_eq_true_eq] at h1
  subst h1
  simpa using h2

theorem lastPath_isSome {t : CodeTree} {sym : Sym} : (lastPath t sym).isSome = true ↔ sym ∈ t.leaves := by
  rw [← t.paths_fst]
  simp [lastPath]

/-- R142: the code word of a symbol is the path of its last leaf. -/
theorem codeWord_codeTable {t : CodeTree} (hw : t.wf = true) (sym : Sym) (h : sym.toNat < Config.nsym) :
    codeWord (codeTable t) sym.toNat = lastPath t sym := by
  rw [codeWord, codeTable_getElem? t sym h]
  cases hp : lastPath t sym with
  | none => rfl
  | some p =>
    have := t.path_length _ (lastPath_mem hp)
    have := t.wf_height hw
    simp only [Option.map_some]
    rw [pathCell_bits p (by simp at *; omega)]

/-- R89: the paths of two leaves are never one the beginning of the other. -/
theorem paths_prefix_free (t : CodeTree) : t.paths.Pairwise fun p q => ¬ p.2 <+: q.2 ∧ ¬ q.2 <+: p.2 := by
  induction t with
  | leaf s => simp [CodeTree.paths]
  | node l r hl hr =>
    simp only [CodeTree.paths, List.pairwise_append, List.pairwise_map]
    refine ⟨hl.imp ?_, hr.imp ?_, ?_⟩
    · intro a b h; simpa [List.cons_prefix_cons] using h
    · intro a b h; simpa [List.cons_prefix_cons] using h
    · simp only [List.mem_map]
      rintro _ ⟨p, -, rfl⟩ _ ⟨q, -, rfl⟩
      simp [List.cons_prefix_cons]

end Machine
end Sys2Proof
end

