-- ==== Sys2Proof/Laws/Build.lean ====
section
/-! SUPPORT. BUILD (R121 to R128): the queue's minimum, the invariant of the pool of live nodes with the trees
below them, and the tree the whole merge leaves. -/

namespace Sys2Proof.Machine

/-- R122: the answer is live, and no live node comes before it in the order of (weight, index). -/
theorem leastLive_some {i w j : Nat} {bs : List Bool} {ws : List Nat} (h : leastLive i bs ws = some (w, j)) :
    i ≤ j ∧ bs[j - i]? = some true ∧ ws[j - i]? = some w ∧
      ∀ k w', bs[k]? = some true → ws[k]? = some w' → w < w' ∨ (w = w' ∧ j ≤ i + k) := by
  induction bs generalizing i w j ws with
  | nil => simp [leastLive] at h
  | cons b bs ih =>
    cases ws with
    | nil => simp [leastLive] at h
    | cons v ws =>
      simp only [leastLive] at h
      cases hr : leastLive (i + 1) bs ws with
      | none =>
        simp only [hr] at h
        split at h
        · rename_i hb
          simp at h
          obtain ⟨rfl, rfl⟩ := h
          refine ⟨le_refl _, by simp [hb], by simp, ?_⟩
          rintro (_ | k) w' hk hw
          · simp at hw; subst hw; exact .inr ⟨rfl, by omega⟩
          · exfalso
            simp only [List.getElem?_cons_succ] at hk hw
            exact absurd hr (leastLive_ne_none hk hw)
        · simp at h
      | some p =>
        obtain ⟨w0, j0⟩ := p
        obtain ⟨h1, h2, h3, h4⟩ := ih hr
        simp only [hr] at h
        split at h
        · rename_i hb
          simp only [Bool.and_eq_true, decide_eq_true_eq] at hb
          simp at h
          obtain ⟨rfl, rfl⟩ := h
          refine ⟨le_refl _, by simp [hb.1], by simp, ?_⟩
          rintro (_ | k) w' hk hw
          · simp at hw; subst hw; exact .inr ⟨rfl, by omega⟩
          · simp only [List.getElem?_cons_succ] at hk hw
            rcases h4 k w' hk hw with h | ⟨h, -⟩
            · exact .inl (by omega)
            · rcases Nat.lt_or_ge v w' with hlt | hge
              · exact .inl hlt
              · exact .inr ⟨by omega, by omega⟩
        · rename_i hb
          simp at h
          obtain ⟨rfl, rfl⟩ := h
          obtain ⟨q, rfl⟩ : ∃ q, j0 = i + 1 + q := ⟨j0 - (i + 1), by omega⟩
          have e1 : i + 1 + q - (i + 1) = q := by omega
          have e2 : i + 1 + q - i = q + 1 := by omega
          rw [e1] at h2 h3
          refine ⟨by omega, by rw [e2]; simpa using h2, by rw [e2]; simpa using h3, ?_⟩
          rintro (_ | k) w' hk hw
          · simp at hk hw
            subst hw
            simp [hk] at hb
            exact .inl hb
          · simp only [List.getElem?_cons_succ] at hk hw
            rcases h4 k w' hk hw with h | ⟨h, h'⟩
            · exact .inl h
            · exact .inr ⟨h, by omega⟩
where
  leastLive_ne_none {i k w : Nat} {bs : List Bool} {ws : List Nat} (hk : bs[k]? = some true)
      (hw : ws[k]? = some w) : leastLive i bs ws ≠ none := by
    induction bs generalizing i k ws with
    | nil => simp at hk
    | cons b bs ih =>
      cases ws with
      | nil => simp at hw
      | cons v ws =>
        simp only [leastLive]
        cases k with
        | zero =>
          simp at hk
          subst hk
          split <;> simp
          split <;> simp
        | succ k =>
          simp only [List.getElem?_cons_succ] at hk hw
          have := ih (i := i + 1) hk hw
          split
          · rename_i h; exact absurd h this
          · split <;> simp

theorem leastLive_isSome {i k w : Nat} {bs : List Bool} {ws : List Nat} (hk : bs[k]? = some true)
    (hw : ws[k]? = some w) : ∃ p, leastLive i bs ws = some p :=
  Option.ne_none_iff_exists'.1 (leastLive_some.leastLive_ne_none hk hw)

/-- The entries of a table (R121): ascending symbols, the counts of the nonzero cells. -/
theorem tableEntries_mem {sym s c : Nat} {cnt : List Nat} :
    (s, c) ∈ tableEntries sym cnt ↔ c ≠ 0 ∧ sym ≤ s ∧ cnt[s - sym]? = some c := by
  induction cnt generalizing sym with
  | nil => simp [tableEntries]
  | cons x cnt ih =>
    have hstep : (s, c) ∈ tableEntries (sym + 1) cnt ↔
        c ≠ 0 ∧ sym + 1 ≤ s ∧ (x :: cnt)[s - sym]? = some c := by
      rw [ih]
      constructor
      · rintro ⟨h1, h2, h3⟩
        refine ⟨h1, h2, ?_⟩
        rw [show s - sym = (s - (sym + 1)) + 1 by omega]; simpa using h3
      · rintro ⟨h1, h2, h3⟩
        refine ⟨h1, h2, ?_⟩
        rw [show s - sym = (s - (sym + 1)) + 1 by omega] at h3; simpa using h3
    simp only [tableEntries]
    split
    · rename_i hx
      rw [List.mem_cons, hstep]
      constructor
      · rintro (h | ⟨h1, h2, h3⟩)
        · simp at h; obtain ⟨rfl, rfl⟩ := h; exact ⟨hx, le_refl _, by simp⟩
        · exact ⟨h1, by omega, h3⟩
      · rintro ⟨h1, h2, h3⟩
        by_cases he : s = sym
        · subst he; simp at h3; exact .inl (by simp [h3])
        · exact .inr ⟨h1, by omega, h3⟩
    · rename_i hx
      rw [hstep]
      constructor
      · rintro ⟨h1, h2, h3⟩; exact ⟨h1, by omega, h3⟩
      · rintro ⟨h1, h2, h3⟩
        refine ⟨h1, ?_, h3⟩
        by_contra hc
        have : s = sym := by omega
        subst this; simp at h3; omega

theorem tableEntries_sorted (sym : Nat) (cnt : List Nat) :
    (tableEntries sym cnt).Pairwise fun a b => a.1 < b.1 := by
  induction cnt generalizing sym with
  | nil => simp [tableEntries]
  | cons x cnt ih =>
    simp only [tableEntries]
    split
    · refine List.pairwise_cons.2 ⟨?_, ih _⟩
      rintro ⟨s, c⟩ h
      have := (tableEntries_mem.1 h).2.1
      simp; omega
    · exact ih _

theorem tableEntries_length (sym : Nat) (cnt : List Nat) : (tableEntries sym cnt).length ≤ cnt.length := by
  induction cnt generalizing sym with
  | nil => simp [tableEntries]
  | cons x cnt ih =>
    simp only [tableEntries]
    have := ih (sym + 1)
    split <;> simp <;> omega

/-- The sum of the counts of a tree's leaves (R123). -/
def treeWeight (cnt : List Nat) (t : CodeTree) : Nat := (t.leaves.map fun s => cnt.getD s.toNat 0).sum

/-- The pool, the live nodes paired with the trees below them: what every pass of BUILD keeps. -/
structure PoolInv (cnt : List Nat) (syms : List Sym) (p : Pool) (F : List (Nat × CodeTree)) : Prop where
  live : ∀ i, p.live[i]? = some true ↔ i ∈ F.map (·.1)
  nodup : (F.map (·.1)).Nodup
  count : p.live.count true = F.length
  trees : ∀ x ∈ F, holds p.node x.1 x.2
  leaves : (F.flatMap fun x => x.2.leaves).Perm syms
  indices : (F.flatMap fun x => indices p.node x.1 x.2).Perm (List.range p.node.length)
  size : p.node.length + F.length = 2 * syms.length
  weights : p.weight.length = p.node.length
  liveLen : p.live.length = Config.nodeCap
  rootWeight : ∀ x ∈ F, p.weight[x.1]? = some (treeWeight cnt x.2)
  merged : ∀ (i : Nat) (l r : NodeIdx), p.node[i]? = some (NodeCell.internal l r) →
    l.toNat < i ∧ r.toNat < i ∧ ∃ wl wr, p.weight[l.toNat]? = some wl ∧ p.weight[r.toNat]? = some wr ∧
      p.weight[i]? = some (wl + wr) ∧ (wl < wr ∨ (wl = wr ∧ l.toNat < r.toNat))
  seeds : ∀ i, i < syms.length → p.node[i]? = (syms[i]?).map .leaf
  inner : ∀ i, syms.length ≤ i → i < p.node.length → ∃ l r : NodeIdx, p.node[i]? = some (NodeCell.internal l r)
  seedWeights : ∀ (i : Nat) (sym : Sym), p.node[i]? = some (NodeCell.leaf sym) →
    p.weight[i]? = some (cnt.getD sym.toNat 0)
  last : p.node.length - 1 ∈ F.map (·.1)
  consumed : ∀ j, j < p.node.length → j ∉ F.map (·.1) → ∃ (i : Nat) (l r : NodeIdx),
    p.node[i]? = some (NodeCell.internal l r) ∧ (j = l.toNat ∨ j = r.toNat)
  greedy : ∀ (i : Nat) (l r : NodeIdx), p.node[i]? = some (NodeCell.internal l r) →
    ∀ j, j < i → j ≠ l.toNat → j ≠ r.toNat →
      (∀ k, k < i → ∀ l' r' : NodeIdx, p.node[k]? = some (NodeCell.internal l' r') → j ≠ l'.toNat ∧ j ≠ r'.toNat) →
      ∃ wr wj, p.weight[r.toNat]? = some wr ∧ p.weight[j]? = some wj ∧ (wr < wj ∨ (wr = wj ∧ r.toNat < j))

theorem set_live {l : List Bool} {i : Nat} {v : Bool} (h : i < l.length) (j : Nat) :
    (l.set i v)[j]? = some true ↔ if j = i then v = true else l[j]? = some true := by
  by_cases hj : j = i
  · subst hj; simp [List.getElem?_set_self h]
  · rw [List.getElem?_set_ne (by omega)]; simp [hj]

/-- R125: a pass on a pool with more than one live node succeeds, keeps the invariant, and lowers the number
of live nodes by one. -/
theorem mergeStep_inv {cnt : List Nat} {syms : List Sym} {p : Pool} {F : List (Nat × CodeTree)}
    (h : PoolInv cnt syms p F) (hk : syms.length ≤ Config.nsym) (h2 : 1 < p.live.count true) :
    ∃ p' F', mergeStep p = some p' ∧ PoolInv cnt syms p' F' ∧ F'.length + 1 = F.length := by
  have hcap : Config.nodeCap = 513 := rfl
  have hsym : Config.nsym = 257 := rfl
  have hF : 1 < F.length := h.count ▸ h2
  -- the first node extracted
  obtain ⟨x0, hx0⟩ : ∃ x, x ∈ F := List.exists_mem_of_length_pos (by omega)
  obtain ⟨⟨wa, a⟩, ha⟩ := leastLive_isSome (i := 0) ((h.live x0.1).2 (List.mem_map_of_mem hx0)) (h.rootWeight x0 hx0)
  obtain ⟨-, ha1, ha2, ha3⟩ := leastLive_some ha
  simp only [Nat.sub_zero, Nat.zero_add] at ha1 ha2 ha3
  have hal : a < p.live.length := (List.getElem?_eq_some_iff.1 ha1).1
  obtain ⟨xa, hxa, rfl⟩ := List.mem_map.1 ((h.live _).1 ha1)
  obtain ⟨F1, hF1⟩ : ∃ F1, F.Perm (xa :: F1) := ⟨F.erase xa, List.perm_cons_erase hxa⟩
  have hnd1 := (hF1.map (·.1)).nodup_iff.1 h.nodup
  simp only [List.map_cons, List.nodup_cons] at hnd1
  have hlive1 : ∀ j, (p.live.set xa.1 false)[j]? = some true ↔ j ∈ F1.map (·.1) := by
    intro j
    rw [set_live hal]
    by_cases hj : j = xa.1
    · subst hj; simp only [if_true]; constructor
      · intro hf; cases hf
      · intro hm; exact absurd hm hnd1.1
    · rw [if_neg hj, h.live, (hF1.map (·.1)).mem_iff]; simp [hj]
  -- the second
  have hF1l : F.length = F1.length + 1 := by rw [hF1.length_eq]; rfl
  obtain ⟨x1, hx1⟩ : ∃ x, x ∈ F1 := List.exists_mem_of_length_pos (by omega)
  have hsub1 : ∀ x ∈ F1, x ∈ F := fun x hx => hF1.mem_iff.2 (List.mem_cons_of_mem _ hx)
  obtain ⟨⟨wb, b⟩, hb⟩ := leastLive_isSome (i := 0) ((hlive1 x1.1).2 (List.mem_map_of_mem hx1))
    (h.rootWeight x1 (hsub1 x1 hx1))
  obtain ⟨-, hb1, hb2, hb3⟩ := leastLive_some hb
  simp only [Nat.sub_zero, Nat.zero_add] at hb1 hb2 hb3
  have hbl : b < (p.live.set xa.1 false).length := (List.getElem?_eq_some_iff.1 hb1).1
  obtain ⟨xb, hxb, rfl⟩ := List.mem_map.1 ((hlive1 _).1 hb1)
  obtain ⟨F2, hF2⟩ : ∃ F2, F1.Perm (xb :: F2) := ⟨F1.erase xb, List.perm_cons_erase hxb⟩
  have hnd2 := (hF2.map (·.1)).nodup_iff.1 hnd1.2
  simp only [List.map_cons, List.nodup_cons] at hnd2
  have hF1l2 : F1.length = F2.length + 1 := by rw [hF2.length_eq]; rfl
  have hFF : F.Perm (xa :: xb :: F2) := hF1.trans (List.Perm.cons _ hF2)
  have hsub2 : ∀ x ∈ F2, x ∈ F := fun x hx => hsub1 x (hF2.mem_iff.2 (List.mem_cons_of_mem _ hx))
  have hxbF : xb ∈ F := hsub1 xb hxb
  have hwa : wa = treeWeight cnt xa.2 := by rw [h.rootWeight xa hxa] at ha2; simpa using ha2.symm
  have hwb : wb = treeWeight cnt xb.2 := by rw [h.rootWeight xb hxbF] at hb2; simpa using hb2.symm
  have hab : xa.1 ≠ xb.1 := fun e => hnd1.1 (e ▸ List.mem_map_of_mem hxb)
  have hlt : ∀ x ∈ F, x.1 < p.node.length := fun x hx => holds_lt (h.trees x hx)
  have hsz := h.size
  have hnl : p.node.length < Config.nodeCap := by omega
  have han : (BitVec.ofNat 10 xa.1).toNat = xa.1 := by have := hlt xa hxa; simp; omega
  have hbn : (BitVec.ofNat 10 xb.1).toNat = xb.1 := by have := hlt xb hxbF; simp; omega
  have hnewn : p.node.length ∉ F.map (·.1) := by
    intro hm
    obtain ⟨x, hx, he⟩ := List.mem_map.1 hm
    have := hlt x hx; omega
  have hmap2 : ∀ j, j ∈ F2.map (·.1) → j ∈ F.map (·.1) := by
    intro j hj; obtain ⟨x, hx, rfl⟩ := List.mem_map.1 hj; exact List.mem_map_of_mem (hsub2 x hx)
  have hlive2 : ∀ j, ((p.live.set xa.1 false).set xb.1 false)[j]? = some true ↔ j ∈ F2.map (·.1) := by
    intro j
    rw [set_live hbl]
    by_cases hj : j = xb.1
    · subst hj; simp only [if_true]; constructor
      · intro hf; cases hf
      · intro hm; exact absurd hm hnd2.1
    · rw [if_neg hj, hlive1, (hF2.map (·.1)).mem_iff]; simp [hj]
  refine ⟨mergeNode wa xa.1 wb xb.1 { p with live := (p.live.set xa.1 false).set xb.1 false },
    (p.node.length, .node xa.2 xb.2) :: F2, ?_, ?_, by simp; omega⟩
  · simp only [mergeStep, extractMin, ha, hb]
  have hll : ((p.live.set xa.1 false).set xb.1 false).length = Config.nodeCap := by simp [h.liveLen]
  constructor
  · -- live
    intro j
    simp only [mergeNode]
    rw [set_live (by rw [hll]; exact hnl)]
    by_cases hj : j = p.node.length
    · subst hj; simp
    · rw [if_neg hj, hlive2]; simp [hj]
  · -- nodup
    simp only [List.map_cons, List.nodup_cons]
    exact ⟨fun hm => hnewn (hmap2 _ hm), hnd2.2⟩
  · -- count
    simp only [mergeNode]
    have c1 : (p.live.set xa.1 false).count true + 1 = p.live.count true := by
      have hpos := List.count_pos_iff.2 (List.mem_of_getElem? ha1)
      rw [List.count_set hal]
      have : p.live[xa.1] = true := by simpa [List.getElem?_eq_getElem hal] using ha1
      simp [this]; omega
    have c2 : ((p.live.set xa.1 false).set xb.1 false).count true + 1 = (p.live.set xa.1 false).count true := by
      have hpos := List.count_pos_iff.2 (List.mem_of_getElem? hb1)
      rw [List.count_set hbl]
      have : (p.live.set xa.1 false)[xb.1] = true := by simpa [List.getElem?_eq_getElem hbl] using hb1
      simp [this]; omega
    have hnl' : p.node.length < ((p.live.set xa.1 false).set xb.1 false).length := by rw [hll]; exact hnl
    have hfalse : ((p.live.set xa.1 false).set xb.1 false)[p.node.length] = false := by
      by_contra hc
      have : ((p.live.set xa.1 false).set xb.1 false)[p.node.length]? = some true := by
        rw [List.getElem?_eq_getElem hnl']; simpa using hc
      exact hnewn (hmap2 _ ((hlive2 _).1 this))
    rw [List.count_set hnl', hfalse]
    have := h.count
    simp; omega
  · -- trees
    simp only [mergeNode, List.mem_cons]
    rintro x (rfl | hx)
    · exact ⟨BitVec.ofNat 10 xa.1, BitVec.ofNat 10 xb.1, by simp, by rw [han]; exact holds_append _ (h.trees xa hxa),
        by rw [hbn]; exact holds_append _ (h.trees xb hxbF)⟩
    · exact holds_append _ (h.trees x (hsub2 x hx))
  · -- leaves
    have := (hFF.flatMap_right fun x => x.2.leaves).symm.trans h.leaves
    simpa [CodeTree.leaves] using this
  · -- indices
    simp only [mergeNode, List.flatMap_cons, List.length_append, List.length_singleton, List.range_succ]
    have hperm := (hFF.flatMap_right fun x => indices p.node x.1 x.2).symm.trans h.indices
    have e1 : indices (p.node ++ [.internal (BitVec.ofNat 10 xa.1) (BitVec.ofNat 10 xb.1)]) p.node.length
        (.node xa.2 xb.2) = p.node.length :: (indices p.node xa.1 xa.2 ++ indices p.node xb.1 xb.2) := by
      simp only [indices, List.getElem?_concat_length, han, hbn, indices_append _ (h.trees xa hxa),
        indices_append _ (h.trees xb hxbF)]
    have e2 : (F2.flatMap fun x => indices (p.node ++ [.internal (BitVec.ofNat 10 xa.1) (BitVec.ofNat 10 xb.1)]) x.1 x.2)
        = F2.flatMap fun x => indices p.node x.1 x.2 := by
      refine List.flatMap_congr fun x hx => ?_
      exact indices_append _ (h.trees x (hsub2 x hx))
    rw [e1, e2]
    simp only [List.flatMap_cons] at hperm
    refine List.Perm.trans ?_ (List.perm_append_comm (l₁ := [p.node.length]))
    simpa using hperm
  · -- size
    simp only [mergeNode, List.length_append, List.length_cons, List.length_nil]
    omega
  · simp [mergeNode, h.weights]
  · simp only [mergeNode, List.length_set]; exact h.liveLen
  · -- rootWeight
    simp only [mergeNode, List.mem_cons]
    rintro x (rfl | hx)
    · rw [← h.weights, List.getElem?_concat_length, hwa, hwb]
      simp [treeWeight, CodeTree.leaves]
    · rw [List.getElem?_append_left (by rw [h.weights]; exact hlt x (hsub2 x hx))]
      exact h.rootWeight x (hsub2 x hx)
  · -- merged
    simp only [mergeNode]
    intro i l r hi
    by_cases hin : i < p.node.length
    · rw [List.getElem?_append_left hin] at hi
      obtain ⟨m1, m2, wl, wr, m3, m4, m5, m6⟩ := h.merged i l r hi
      have hw := h.weights
      refine ⟨m1, m2, wl, wr, ?_, ?_, ?_, m6⟩ <;>
        (rw [List.getElem?_append_left (by omega)]; assumption)
    · have hlen := (List.getElem?_eq_some_iff.1 hi).1
      simp only [List.length_append, List.length_singleton] at hlen
      have hie : i = p.node.length := by omega
      subst hie
      rw [List.getElem?_concat_length] at hi
      simp at hi
      obtain ⟨rfl, rfl⟩ := hi
      have la := hlt xa hxa
      have lb := hlt xb hxbF
      rw [han, hbn]
      have hw := h.weights
      refine ⟨la, lb, wa, wb, ?_, ?_, ?_, ?_⟩
      · rw [List.getElem?_append_left (by omega)]; exact ha2
      · rw [List.getElem?_append_left (by omega)]; exact hb2
      · rw [← hw, List.getElem?_concat_length]
      · have hblive : p.live[xb.1]? = some true := (h.live _).2 (List.mem_map_of_mem hxbF)
        rcases ha3 xb.1 wb hblive hb2 with hlt' | ⟨he, hle⟩
        · exact .inl hlt'
        · exact .inr ⟨he, by omega⟩
  · -- seeds
    intro i hi
    have hs := h.seeds i hi
    have hlt' : i < p.node.length := by
      by_contra hc
      rw [List.getElem?_eq_none (by omega)] at hs
      simp [hi] at hs
    simp only [mergeNode]
    rw [List.getElem?_append_left hlt']
    exact hs
  · -- inner
    intro i hi hlen
    simp only [mergeNode, List.length_append, List.length_singleton] at hlen ⊢
    by_cases hin : i < p.node.length
    · rw [List.getElem?_append_left hin]; exact h.inner i hi hin
    · have hie : i = p.node.length := by omega
      subst hie
      exact ⟨_, _, List.getElem?_concat_length⟩
  · -- seedWeights
    intro i sym hi
    simp only [mergeNode] at hi ⊢
    have hlen := (List.getElem?_eq_some_iff.1 hi).1
    simp only [List.length_append, List.length_singleton] at hlen
    by_cases hin : i < p.node.length
    · rw [List.getElem?_append_left hin] at hi
      rw [List.getElem?_append_left (by rw [h.weights]; exact hin)]
      exact h.seedWeights i sym hi
    · have hie : i = p.node.length := by omega
      subst hie
      rw [List.getElem?_concat_length] at hi
      simp at hi
  · simp [mergeNode]
  · -- consumed
    intro j hj hm
    simp only [mergeNode, List.length_append, List.length_singleton, List.map_cons, List.mem_cons, not_or] at hj hm ⊢
    by_cases hjF : j ∈ F.map (·.1)
    · rw [(hFF.map (·.1)).mem_iff] at hjF
      simp only [List.map_cons, List.mem_cons] at hjF
      refine ⟨p.node.length, _, _, List.getElem?_concat_length, ?_⟩
      rw [han, hbn]
      rcases hjF with h1 | h1 | h1
      · exact .inl h1
      · exact .inr h1
      · exact absurd h1 hm.2
    · obtain ⟨i, l, r, hi, hc⟩ := h.consumed j (by omega) hjF
      exact ⟨i, l, r, by rw [List.getElem?_append_left (List.getElem?_eq_some_iff.1 hi).1]; exact hi, hc⟩
  · -- greedy
    simp only [mergeNode]
    intro i l r hi j hj hjl hjr hfree
    have hlen := (List.getElem?_eq_some_iff.1 hi).1
    simp only [List.length_append, List.length_singleton] at hlen
    have hfree' : ∀ k, k < i → ∀ l' r' : NodeIdx, p.node[k]? = some (NodeCell.internal l' r') →
        j ≠ l'.toNat ∧ j ≠ r'.toNat := by
      intro k hk l' r' he
      exact hfree k hk l' r' (by rw [List.getElem?_append_left (List.getElem?_eq_some_iff.1 he).1]; exact he)
    have hw := h.weights
    by_cases hin : i < p.node.length
    · rw [List.getElem?_append_left hin] at hi
      obtain ⟨wr, wj, g1, g2, g3⟩ := h.greedy i l r hi j hj hjl hjr hfree'
      have := (h.merged i l r hi).2.1
      exact ⟨wr, wj, by rw [List.getElem?_append_left (by omega)]; exact g1,
        by rw [List.getElem?_append_left (by omega)]; exact g2, g3⟩
    · have hie : i = p.node.length := by omega
      subst hie
      rw [List.getElem?_concat_length] at hi
      simp at hi
      obtain ⟨rfl, rfl⟩ := hi
      rw [han] at hjl
      rw [hbn] at hjr ⊢
      have hjF : j ∈ F.map (·.1) := by
        by_contra hc
        obtain ⟨k, l', r', hk, he⟩ := h.consumed j hj hc
        have := hfree' k (List.getElem?_eq_some_iff.1 hk).1 l' r' hk
        exact he.elim this.1 this.2
      obtain ⟨x, hx, rfl⟩ := List.mem_map.1 hjF
      have hwx := h.rootWeight x hx
      have hx1 : x.1 ∈ F1.map (·.1) := by
        rw [(hF1.map (·.1)).mem_iff] at hjF
        simpa [hjl] using hjF
      have lb := hlt xb hxbF
      refine ⟨wb, treeWeight cnt x.2, ?_, ?_, ?_⟩
      · rw [List.getElem?_append_left (by omega)]; exact hb2
      · rw [List.getElem?_append_left (by omega)]; exact hwx
      · rcases hb3 x.1 _ ((hlive1 _).2 hx1) hwx with h1 | ⟨h1, h2⟩
        · exact .inl h1
        · exact .inr ⟨h1, by omega⟩

/-- The whole loop (R121, R125): it ends with one live node, the last one made. -/
theorem mergeLoop_inv {n : Nat} {cnt : List Nat} {syms : List Sym} {p : Pool} {F : List (Nat × CodeTree)}
    (h : PoolInv cnt syms p F) (hk : syms.length ≤ Config.nsym) (hn : F.length ≤ n + 1) :
    ∃ p' t, mergeLoop n p = some p' ∧ PoolInv cnt syms p' [(p'.node.length - 1, t)] := by
  have hF : 0 < F.length := by
    have := h.last
    obtain ⟨x, hx, -⟩ := List.mem_map.1 this
    exact List.length_pos_of_mem hx
  have stop : ∀ {p F}, PoolInv cnt syms p F → F.length = 1 →
      ∃ t, PoolInv cnt syms p [(p.node.length - 1, t)] := by
    intro p F h h1
    obtain ⟨⟨i, t⟩, rfl⟩ := List.length_eq_one_iff.1 h1
    have hl := h.last
    simp at hl
    rw [← hl] at h
    exact ⟨t, h⟩
  induction n generalizing p F with
  | zero =>
    obtain ⟨t, ht⟩ := stop h (by omega)
    have := h.count
    exact ⟨p, t, by rw [mergeLoop, if_neg (by omega)], ht⟩
  | succ n ih =>
    by_cases hc : 1 < p.live.count true
    · obtain ⟨p', F', h1, h2, h3⟩ := mergeStep_inv h hk hc
      have hF' : 0 < F'.length := by have := h.count; omega
      obtain ⟨q, t, hq, hi⟩ := ih h2 (by omega) hF'
      exact ⟨q, t, by rw [mergeLoop, if_pos hc, h1]; exact hq, hi⟩
    · have := h.count
      obtain ⟨t, ht⟩ := stop h (by omega)
      exact ⟨p, t, by rw [mergeLoop, if_neg hc], ht⟩

/-- The symbols of a table as node symbols. -/
def leafSyms (cnt : List Nat) : List Sym := (tableSyms cnt).map (BitVec.ofNat 9)

theorem leafSyms_length (cnt : List Nat) : (leafSyms cnt).length = (tableEntries 0 cnt).length := by
  simp [leafSyms, tableSyms]

/-- The seeding loop of R121 establishes the invariant. -/
theorem seedPool_inv {cnt : List Nat} (hl : cnt.length = Config.nsym) (hpos : 0 < (leafSyms cnt).length) :
    PoolInv cnt (leafSyms cnt) (seedPool cnt)
      ((List.range (leafSyms cnt).length).map fun i => (i, .leaf ((leafSyms cnt).getD i 0))) := by
  have hcap : Config.nodeCap = 513 := rfl
  have hsym : Config.nsym = 257 := rfl
  have hle := tableEntries_length 0 cnt
  have hlen := leafSyms_length cnt
  have hfst : ((List.range (leafSyms cnt).length).map fun i =>
      ((i, CodeTree.leaf ((leafSyms cnt).getD i 0)) : Nat × CodeTree)).map (·.1) = List.range (leafSyms cnt).length := by
    simp [Function.comp_def]
  have hnode : (seedPool cnt).node = (leafSyms cnt).map .leaf := by
    simp [seedPool, leafSyms, tableSyms, Function.comp_def]
  have hnl : (seedPool cnt).node.length = (leafSyms cnt).length := by rw [hnode, List.length_map]
  have hget : ∀ i, i < (leafSyms cnt).length → (leafSyms cnt)[i]? = some ((leafSyms cnt).getD i 0) := by
    intro i hi; simp [hi]
  have hent : ∀ i, i < (leafSyms cnt).length → ∃ s c, (tableEntries 0 cnt)[i]? = some (s, c) ∧
      (leafSyms cnt).getD i 0 = BitVec.ofNat 9 s ∧ (BitVec.ofNat 9 s).toNat = s ∧ cnt.getD s 0 = c := by
    intro i hi
    have hi' : i < (tableEntries 0 cnt).length := by omega
    refine ⟨(tableEntries 0 cnt)[i].1, (tableEntries 0 cnt)[i].2, List.getElem?_eq_getElem hi', ?_, ?_, ?_⟩
    · simp [leafSyms, tableSyms, hi']
    · have hm := tableEntries_mem.1
        (show ((tableEntries 0 cnt)[i].1, (tableEntries 0 cnt)[i].2) ∈ tableEntries 0 cnt from List.getElem_mem hi')
      have := (List.getElem?_eq_some_iff.1 hm.2.2).1
      simp at this ⊢; omega
    · have hm := tableEntries_mem.1
        (show ((tableEntries 0 cnt)[i].1, (tableEntries 0 cnt)[i].2) ∈ tableEntries 0 cnt from List.getElem_mem hi')
      have h3 := hm.2.2
      simp only [Nat.sub_zero] at h3
      rw [List.getD_eq_getElem?_getD, h3]; rfl
  constructor
  · intro i
    rw [hfst, List.mem_range]
    simp only [seedPool]
    rw [← hlen]
    by_cases hi : i < (leafSyms cnt).length
    · rw [List.getElem?_append_left (by simpa using hi)]; simp [hi]
    · rw [List.getElem?_append_right (by simp; omega), List.getElem?_replicate]
      split <;> simp [hi]
  · rw [hfst]; exact List.nodup_range
  · simp [seedPool, hlen, List.count_replicate]
  · simp only [List.mem_map, List.mem_range]
    rintro _ ⟨i, hi, rfl⟩
    simp only [holds, hnode, List.getElem?_map, hget i hi, Option.map_some]
  · have : ((List.range (leafSyms cnt).length).map fun i => (leafSyms cnt).getD i 0) = leafSyms cnt := by
      apply List.ext_getElem?
      intro i
      by_cases hi : i < (leafSyms cnt).length
      · simp [hi]
      · simp [hi]
    simp only [List.flatMap_map, CodeTree.leaves]
    rw [← List.map_eq_flatMap, this]
  · simp only [List.flatMap_map, indices]
    rw [hnl, ← List.map_eq_flatMap]
    simp
  · simp [hnl]; omega
  · simp [seedPool]
  · simp [seedPool]; omega
  · simp only [List.mem_map, List.mem_range]
    rintro _ ⟨i, hi, rfl⟩
    obtain ⟨s, c, h1, h2, h3, h4⟩ := hent i hi
    simp only [treeWeight, CodeTree.leaves, h2, List.map_cons, List.map_nil, h3, h4]
    simp [seedPool, h1]
  · intro i l r h
    rw [hnode] at h
    simp at h
  · intro i hi
    rw [hnode, List.getElem?_map]
  · intro i h1 h2
    omega
  · intro i sym hi
    have hil : i < (leafSyms cnt).length := by rw [← hnl]; exact (List.getElem?_eq_some_iff.1 hi).1
    rw [hnode, List.getElem?_map, hget i hil] at hi
    simp only [Option.map_some, Option.some.injEq, NodeCell.leaf.injEq] at hi
    obtain ⟨s, c, h1, h2, h3, h4⟩ := hent i hil
    rw [← hi, h2, h3, h4]
    simp [seedPool, h1]
  · rw [hfst, hnl, List.mem_range]; omega
  · intro j hj hm
    rw [hfst, List.mem_range] at hm
    omega
  · intro i l r h
    rw [hnode] at h
    simp at h

/-- What BUILD makes of a table with an entry: the pool the loop ends with, and its tree. -/
theorem buildBody_eq {s : State} (hl : s.cnt.length = Config.nsym) (hpos : 0 < (leafSyms s.cnt).length) :
    ∃ p t, PoolInv s.cnt (leafSyms s.cnt) p [(p.node.length - 1, t)] ∧
      buildBody s = .done ()
        { s.dropTree with
          node := p.node, weight := p.weight, live := p.live
          root := BitVec.ofNat 10 (p.node.length - 1), nnodes := BitVec.ofNat 10 p.node.length, treeV := true } := by
  have hk : (leafSyms s.cnt).length ≤ Config.nsym := by
    rw [leafSyms_length, ← hl]; exact tableEntries_length 0 s.cnt
  have hnode : (seedPool s.cnt).node.length = (leafSyms s.cnt).length := by
    simp [seedPool, leafSyms_length]
  obtain ⟨p, t, hp, hi⟩ := mergeLoop_inv (n := (seedPool s.cnt).node.length) (seedPool_inv hl hpos) hk
    (by simp [hnode])
  refine ⟨p, t, hi, ?_⟩
  have hidx : p.live.idxOf true = p.node.length - 1 := by
    have h1 := (hi.live (p.node.length - 1)).2 (by simp)
    have hmem : true ∈ p.live := List.mem_of_getElem? h1
    have hlt := List.idxOf_lt_length_of_mem hmem
    have h2 : p.live[p.live.idxOf true]? = some true := by
      rw [List.getElem?_eq_getElem hlt, List.getElem_idxOf]
    have := (hi.live _).1 h2
    simpa using this
  have hz : (seedPool s.cnt).node.length ≠ 0 := by omega
  simp only [buildBody, State.dropTree_cnt, ne_eq, hl, not_true_eq_false, if_false, hz, hp, hidx]

/-- The tree BUILD leaves (R36, R125, R128): the cells hold it below the root, visiting every cell once. -/
theorem pool_tree {cnt : List Nat} {p : Pool} {t : CodeTree} (hl : cnt.length = Config.nsym)
    (h : PoolInv cnt (leafSyms cnt) p [(p.node.length - 1, t)]) :
    t.wf = true ∧ t.nodes = p.node.length ∧ p.node.length + 1 = 2 * (leafSyms cnt).length ∧
      t.leaves.Perm (leafSyms cnt) ∧
      treeAt Config.nodeCap p.node (p.node.length - 1) = some t ∧
      (visited Config.nodeCap p.node (p.node.length - 1)).Perm (List.range p.node.length) := by
  have hcap : Config.nodeCap = 513 := rfl
  have hsym : Config.nsym = 257 := rfl
  have hperm : t.leaves.Perm (leafSyms cnt) := by simpa using h.leaves
  have hsize := h.size
  simp only [List.length_singleton] at hsize
  have hnl := t.nodes_leaves
  rw [hperm.length_eq] at hnl
  have hk : (leafSyms cnt).length ≤ 257 := by
    rw [leafSyms_length, ← hsym, ← hl]; exact tableEntries_length 0 cnt
  have hn : t.nodes = p.node.length := by omega
  have hh := t.height_nodes
  have htree : holds p.node (p.node.length - 1) t := h.trees _ (List.mem_singleton.2 rfl)
  refine ⟨?_, hn, hsize, hperm, treeAt_of_holds htree (by omega), ?_⟩
  · simp only [CodeTree.wf, Bool.and_eq_true, decide_eq_true_eq, CodeTree.symsOk, List.all_eq_true]
    refine ⟨by omega, fun s hs => ?_⟩
    have := hperm.mem_iff.1 hs
    simp only [leafSyms, tableSyms, List.mem_map] at this
    obtain ⟨_, ⟨⟨s', c⟩, he, rfl⟩, rfl⟩ := this
    have hm := (List.getElem?_eq_some_iff.1 (tableEntries_mem.1 he).2.2).1
    simp [Config.eos] at hm ⊢; omega
  · rw [visited_eq_indices htree (by omega)]
    simpa using h.indices

end Sys2Proof.Machine
end

