-- ==== Sys2Proof/Laws/Codec.lean ====
section
/-! SUPPORT. The Tree Codec: the parser of R135 undoes the serialization of R86 (R87), and DESTREE's recursion
is that parser on a quiet port; how it ends under every answer of the environment. -/

namespace Sys2Proof.Machine

/-- R87: `Des(Ser(t) ++ rest) = (t, rest)`, the nodes counted. -/
theorem des_ser (t : CodeTree) (rest : List Bool) (d n : Nat) (hs : t.symsOk = true)
    (hn : n + t.nodes ≤ Config.nodeCap) (hd : t.height < d) :
    des d (ser t ++ rest) n = .tree t rest (n + t.nodes) := by
  induction t generalizing rest d n with
  | leaf s =>
    cases d with
    | zero => omega
    | succ d =>
      simp only [CodeTree.nodes] at hn
      rw [CodeTree.symsOk_leaf] at hs
      have h9 : (bitsOf 9 s.toNat ++ rest).take 9 = bitsOf 9 s.toNat := by
        rw [List.take_append_of_le_length (by simp), List.take_of_length_le (by simp)]
      have hd9 : (bitsOf 9 s.toNat ++ rest).drop 9 = rest := by
        rw [List.drop_append_of_le_length (by simp), List.drop_of_length_le (by simp)]; rfl
      have hv : valOf (bitsOf 9 s.toNat) = s.toNat := by
        rw [valOf_bitsOf]; exact Nat.mod_eq_of_lt s.isLt
      have he : ¬ 256 < s.toNat := Nat.not_lt.2 (of_decide_eq_true hs)
      simp only [ser, List.cons_append, des, h9, hd9, hv]
      rw [if_neg (by omega), if_neg (by simp), if_neg (by simp), if_neg he]
      simp [CodeTree.nodes]
  | node l r hl hr =>
    cases d with
    | zero => omega
    | succ d =>
      simp only [CodeTree.nodes] at hn
      simp only [CodeTree.height] at hd
      rw [CodeTree.symsOk_node, Bool.and_eq_true] at hs
      have := l.nodes_pos
      have := r.nodes_pos
      simp only [ser, List.cons_append, List.append_assoc, des]
      rw [if_neg (by omega), if_pos trivial, hl _ _ _ hs.1 (by omega) (by omega)]
      simp only
      rw [hr _ _ _ hs.2 (by omega) (by omega)]
      simp only [CodeTree.nodes]
      congr 1; omega

/-- What `des` answers is a tree the block can hold, its nodes counted on from the number given. -/
theorem des_tree {d n n' : Nat} {s rest : List Bool} {t : CodeTree} (h : des d s n = .tree t rest n') :
    t.symsOk = true ∧ n' = n + t.nodes ∧ (n ≤ Config.nodeCap → n' ≤ Config.nodeCap) ∧ s = ser t ++ rest := by
  induction d generalizing n n' s rest t with
  | zero => simp [des] at h
  | succ d ih =>
    cases s with
    | nil => simp [des] at h
    | cons b s =>
      simp only [des] at h
      split at h
      · simp at h
      · rename_i hcap
        split at h
        · rename_i hb
          split at h
          · rename_i l s1 n1 h1
            split at h
            · rename_i r s2 n2 h2
              simp at h
              obtain ⟨rfl, rfl, rfl⟩ := h
              obtain ⟨a1, a2, a3, a4⟩ := ih h1
              obtain ⟨b1, b2, b3, b4⟩ := ih h2
              refine ⟨by rw [CodeTree.symsOk_node, a1, b1]; rfl, by simp only [CodeTree.nodes]; omega, fun _ => by omega, ?_⟩
              rw [a4, b4, hb]; simp [ser]
            · rename_i hne; exact absurd h (hne _ _ _)
          · rename_i hne; exact absurd h (hne _ _ _)
        · rename_i hb
          split at h
          · simp at h
          · rename_i h9
            split at h
            · simp at h
            · rename_i hv
              simp at h
              obtain ⟨rfl, rfl, rfl⟩ := h
              have hl : (s.take 9).length = 9 := by simp; omega
              have hlt : valOf (s.take 9) < 2 ^ 9 := by have := valOf_lt (s.take 9); rwa [hl] at this
              have htn : (BitVec.ofNat 9 (valOf (s.take 9))).toNat = valOf (s.take 9) := by
                rw [BitVec.toNat_ofNat]; exact Nat.mod_eq_of_lt hlt
              refine ⟨?_, rfl, fun _ => by omega, ?_⟩
              · rw [CodeTree.symsOk_leaf, htn]; exact decide_eq_true (Nat.not_lt.1 hv)
              · have := bitsOf_valOf (s.take 9)
                rw [hl] at this
                rw [ser, htn, this, List.cons_append, List.take_append_drop]
                simpa using hb

/-- DESTREE's recursion on a quiet port is the parser of R135 on the bits left; the bound plays no part. -/
theorem desNode_quiet {d n : Nat} {s : State} (h : quiet s.inp.errors) (hn : n ≤ Config.nodeCap)
    (hd : Config.nodeCap - n < d) :
    match des d s.inRest n with
    | .tree t rest n' =>
      desNode d n s = .done (t, n') (s.advanceIn (s.inRest.length - rest.length)) ∧
        rest.length ≤ s.inRest.length
    | .malformed info rest =>
      (∃ e, desNode d n s = raise .malformedBitstream info
        { s with inp := { s.inp with pos := s.inp.pos + (s.inRest.length - rest.length), errors := e } }) ∧
        rest.length ≤ s.inRest.length
    | .capacity rest =>
      (∃ e, desNode d n s = raise .treeCapacity 0
        { s with inp := { s.inp with pos := s.inp.pos + (s.inRest.length - rest.length), errors := e } }) ∧
        rest.length ≤ s.inRest.length := by
  induction d generalizing n s with
  | zero => omega
  | succ d ih =>
    cases hr : s.inRest with
    | nil =>
      simp only [des, desNode, inBit_quiet_nil h hr, andThen_done]
      exact ⟨⟨_, rfl⟩, le_refl _⟩
    | cons b bs =>
      have hq1 : quiet (s.advanceIn 1).inp.errors := quiet_drop h 1
      have hr1 : (s.advanceIn 1).inRest = bs := by rw [inRest_advance, hr]; rfl
      simp only [des, desNode, inBit_quiet_cons h hr, andThen_done]
      by_cases hcap : n = Config.nodeCap
      · simp only [if_pos hcap]
        refine ⟨⟨s.inp.errors.drop 1, ?_⟩, by simp⟩
        simp [State.advanceIn, raise]
      · simp only [if_neg hcap]
        cases b with
        | false =>
          by_cases h9 : bs.length < 9
          · simp only [Bool.false_eq_true, if_false, if_pos h9]
            rw [inBits_short hq1 (by rwa [hr1])]
            refine ⟨⟨(s.advanceIn 1).inp.errors.drop (bs.length + 1), ?_⟩, by simp⟩
            simp only [andThen_done, hr1]
            congr 1
            simp [State.advanceIn, Nat.add_assoc, Nat.add_comm 1]
          · simp only [Bool.false_eq_true, if_false, if_neg h9]
            have hl : (bs.take 9).length = 9 := by simp; omega
            rw [inBits_quiet hq1 (bs := bs.take 9) (rest := bs.drop 9) (by rw [hr1]; simp) hl]
            simp only [andThen_done, advanceIn_advanceIn]
            by_cases hv : 256 < valOf (bs.take 9)
            · simp only [if_pos hv]
              refine ⟨⟨s.inp.errors.drop 10, ?_⟩, by simp; omega⟩
              have : bs.length + 1 - (bs.drop 9).length = 10 := by simp; omega
              simp only [List.length_cons, this]
              rfl
            · simp only [if_neg hv]
              have : bs.length + 1 - (bs.drop 9).length = 10 := by simp; omega
              simp only [List.length_cons, this]
              exact ⟨trivial, by simp; omega⟩
        | true =>
          simp only [if_true]
          have h1 := ih (n := n + 1) (s := s.advanceIn 1) hq1 (by omega) (by omega)
          rw [hr1] at h1
          cases hd1 : des d bs (n + 1) with
          | malformed info rest =>
            simp only [hd1] at h1 ⊢
            obtain ⟨⟨e, h1⟩, hle⟩ := h1
            refine ⟨⟨e, ?_⟩, by simp; omega⟩
            rw [h1, andThen_raise, List.length_cons, show bs.length + 1 - rest.length = 1 + (bs.length - rest.length) by omega]
            simp [State.advanceIn, Nat.add_assoc]
          | capacity rest =>
            simp only [hd1] at h1 ⊢
            obtain ⟨⟨e, h1⟩, hle⟩ := h1
            refine ⟨⟨e, ?_⟩, by simp; omega⟩
            rw [h1, andThen_raise, List.length_cons, show bs.length + 1 - rest.length = 1 + (bs.length - rest.length) by omega]
            simp [State.advanceIn, Nat.add_assoc]
          | tree l s1 n1 =>
            simp only [hd1] at h1 ⊢
            obtain ⟨h1, hle⟩ := h1
            obtain ⟨-, hn1, hcap1, hs1⟩ := des_tree hd1
            have := l.nodes_pos
            simp only [h1, andThen_done, advanceIn_advanceIn]
            have hadv : (s.advanceIn (1 + (bs.length - s1.length))).inRest = s1 := by
              rw [inRest_advance, hr, Nat.add_comm, List.drop_succ_cons, hs1]; simp
            have h2 := ih (n := n1) (s := s.advanceIn (1 + (bs.length - s1.length))) (quiet_drop h _)
              (hcap1 (by omega)) (by omega)
            rw [hadv] at h2
            cases hd2 : des d s1 n1 with
            | malformed info rest =>
              simp only [hd2] at h2 ⊢
              obtain ⟨⟨e, h2⟩, hle2⟩ := h2
              refine ⟨⟨e, ?_⟩, by simp; omega⟩
              rw [h2, andThen_raise, List.length_cons,
                show bs.length + 1 - rest.length = (1 + (bs.length - s1.length)) + (s1.length - rest.length) by omega]
              simp [State.advanceIn, Nat.add_assoc]
            | capacity rest =>
              simp only [hd2] at h2 ⊢
              obtain ⟨⟨e, h2⟩, hle2⟩ := h2
              refine ⟨⟨e, ?_⟩, by simp; omega⟩
              rw [h2, andThen_raise, List.length_cons,
                show bs.length + 1 - rest.length = (1 + (bs.length - s1.length)) + (s1.length - rest.length) by omega]
              simp [State.advanceIn, Nat.add_assoc]
            | tree r s2 n2 =>
              simp only [hd2] at h2 ⊢
              obtain ⟨h2, hle2⟩ := h2
              refine ⟨?_, by simp; omega⟩
              rw [h2, andThen_done, advanceIn_advanceIn, List.length_cons]
              congr 2
              omega

/-- DESTREE on a quiet port whose next bits are a tree field (R134, R87). -/
theorem destreeBody_quiet {s : State} {t : CodeTree} {rest : List Bool} (h : quiet s.inp.errors)
    (ht : t.wf = true) (hr : s.inRest = ser t ++ rest) :
    destreeBody s = .done ()
      { s.dropTree with
        node := preorderCells 0 t, root := 0, nnodes := BitVec.ofNat 10 t.nodes, treeV := true
        inp := (s.advanceIn (ser t).length).inp } := by
  have hn := CodeTree.wf_nodes ht
  have hh := t.height_nodes
  have hq := desNode_quiet (d := Config.nodeCap + 1) (n := 0) (s := s.dropTree) (by simpa using h) (by omega) (by omega)
  have hr' : s.dropTree.inRest = ser t ++ rest := hr
  rw [hr', des_ser t rest _ 0 (CodeTree.wf_syms ht) (by omega) (by omega)] at hq
  simp only at hq
  rw [destreeBody, hq.1]
  simp [State.advanceIn]

/-- The faults DESTREE can raise (R188). -/
def destreeFaults (c : Cause) (i : Word) : Prop :=
  inFailure c i ∨ (c = .malformedBitstream ∧ (i = 0 ∨ i = 1 ∨ i = 2)) ∨ (c = .treeCapacity ∧ i = 0)

/-- DESTREE's recursion under every answer of the environment. -/
theorem desNode_ends {d n : Nat} {s : State} (hn : n ≤ Config.nodeCap) (hd : Config.nodeCap - n < d) :
    (desNode d n s).Ends
      (fun r u => InMoved s u ∧ r.1.symsOk = true ∧ r.2 = n + r.1.nodes ∧ r.2 ≤ Config.nodeCap ∧
        s.inRest = ser r.1 ++ u.inRest)
      (Raises destreeFaults (InMoved s)) False := by
  induction d generalizing n s with
  | zero => omega
  | succ d ih =>
    have hio : ∀ c i, inFailure c i → destreeFaults c i := fun _ _ h => .inl h
    rw [desNode]
    refine Run.Ends.andThen ((inBit_ends s).mono (fun _ _ h => h) (fun t h => h.mono hio fun _ h => h) id) ?_
    rintro tag u ⟨hm, ⟨rfl, hr, -⟩ | ⟨x, rfl, hr, -⟩⟩
    · exact ⟨_, _, u, .inr (.inl ⟨rfl, .inl rfl⟩), hm, rfl⟩
    · simp only
      split
      · exact ⟨_, _, u, .inr (.inr ⟨rfl, rfl⟩), hm, rfl⟩
      · rename_i hcap
        split
        · rename_i hx
          refine Run.Ends.andThen ((ih (n := n + 1) (s := u) (by omega) (by omega)).mono (fun _ _ h => h)
            (fun t h => h.mono (fun _ _ h => h) fun _ h => hm.trans h) id) ?_
          rintro ⟨l, n1⟩ v ⟨hm1, hs1, h1, hc1, hr1⟩
          have := l.nodes_pos
          simp only at h1 hc1 hs1 hr1 ⊢
          refine Run.Ends.andThen ((ih (n := n1) (s := v) (by omega) (by omega)).mono (fun _ _ h => h)
            (fun t h => h.mono (fun _ _ h => h) fun _ h => (hm.trans hm1).trans h) id) ?_
          rintro ⟨r, n2⟩ w ⟨hm2, hs2, h2, hc2, hr2⟩
          simp only [ends_done] at h2 hc2 hs2 hr2 ⊢
          refine ⟨(hm.trans hm1).trans hm2, by rw [CodeTree.symsOk_node, hs1, hs2]; rfl, ?_, hc2, ?_⟩
          · simp only [CodeTree.nodes]; omega
          · rw [hr, hr1, hr2, hx]; simp [ser]
        · rename_i hx
          refine Run.Ends.andThen ((inBits_ends 9 u).mono (fun _ _ h => h)
            (fun t h => h.mono hio fun _ h => hm.trans h) id) ?_
          rintro v w ⟨hm1, ⟨rfl, -, -⟩ | ⟨h9, -, hr1, rfl⟩⟩
          · exact ⟨_, _, w, .inr (.inl ⟨rfl, .inr (.inl rfl)⟩), hm.trans hm1, rfl⟩
          · simp only
            split
            · exact ⟨_, _, w, .inr (.inl ⟨rfl, .inr (.inr rfl)⟩), hm.trans hm1, rfl⟩
            · rename_i hv
              have hl : (u.inRest.take 9).length = 9 := by simp; omega
              have hlt : valOf (u.inRest.take 9) < 2 ^ 9 := by have := valOf_lt (u.inRest.take 9); rwa [hl] at this
              have htn : (BitVec.ofNat 9 (valOf (u.inRest.take 9))).toNat = valOf (u.inRest.take 9) := by
                rw [BitVec.toNat_ofNat]; exact Nat.mod_eq_of_lt hlt
              refine ⟨hm.trans hm1, ?_, rfl, by omega, ?_⟩
              · rw [CodeTree.symsOk_leaf, htn]; exact decide_eq_true (Nat.not_lt.1 hv)
              · have := bitsOf_valOf (u.inRest.take 9)
                rw [hl] at this
                rw [hr, hr1, ser, htn, this, List.cons_append, List.take_append_drop]
                simpa using hx

/-- DESTREE under every answer of the environment (R134, R188). -/
theorem destreeBody_ends (s : State) :
    (destreeBody s).Ends
      (fun _ u => ∃ t : CodeTree, t.wf = true ∧ (∃ inp, InMoved s { s with inp := inp } ∧
        s.inRest = ser t ++ ({ s with inp := inp } : State).inRest ∧
        u = { s.dropTree with
          node := preorderCells 0 t, root := 0, nnodes := BitVec.ofNat 10 t.nodes, treeV := true, inp := inp }))
      (Raises destreeFaults (InMoved s.dropTree)) False := by
  rw [destreeBody]
  refine Run.Ends.andThen (desNode_ends (by omega) (by omega)) ?_
  rintro ⟨t, n⟩ u ⟨hm, hs, hn, hc, hr⟩
  simp only at hs hn hc hr
  have hwf : t.wf = true := by simp [CodeTree.wf, hs]; omega
  refine ⟨t, hwf, u.inp, ⟨?_, ?_⟩, ?_, ?_⟩
  · rw [hm.1]; rfl
  · simpa using hm.2
  · simpa [State.inRest] using hr
  · have h2 : n = t.nodes := by omega
    subst h2
    conv => lhs; rw [hm.1]
    simp only
    congr 1
    rw [hm.1]

end Sys2Proof.Machine
end

