-- ==== Sys2Proof/Laws/Count.lean ====
section
/-! SUPPORT. COUNT (R111 to R113): what one pass of its loop does, the whole loop on a quiet port, and how it
can end under every answer of the environment. -/

namespace Sys2Proof.Machine

/-- The state after the passes of a byte loop over `k` bytes of a quiet input: an `InMore` and eight `InBit`s
each. -/
def State.afterBytes (s : State) (k : Nat) : State :=
  { s with inp := { s.inp with pos := s.inp.pos + 8 * k, errors := s.inp.errors.drop (9 * k) } }

theorem unpack_drop (bs : List Byte) (j : Nat) : (unpack bs).drop (8 * j) = unpack (bs.drop j) := by
  induction j generalizing bs with
  | zero => simp
  | succ j ih =>
    cases bs with
    | nil => simp [unpack]
    | cons b bs =>
      rw [show 8 * (j + 1) = 8 + 8 * j by omega, ← List.drop_drop, unpack]
      simp [ih]

/-- On a byte boundary the rest of the input starts with the byte there (R57, R60). -/
theorem inRest_byte {s : State} {j : Nat} {b : Byte} {bs : List Byte} (hp : s.inp.pos = 8 * j)
    (hb : s.inp.bytes.drop j = b :: bs) : s.inRest = bitsOf 8 b.toNat ++ unpack bs := by
  rw [State.inRest, hp, unpack_drop, hb, unpack]

theorem inBits_byte_ends {s : State} {j : Nat} {b : Byte} {bs : List Byte} (hp : s.inp.pos = 8 * j)
    (hb : s.inp.bytes.drop j = b :: bs) :
    (inBits 8 s).Ends (fun v u => InMoved s u ∧ v = some b.toNat ∧ u.inp.pos = 8 * (j + 1))
      (Raises inFailure (InMoved s)) False := by
  have hr := inRest_byte hp hb
  refine (inBits_ends 8 s).mono ?_ (fun _ h => h) id
  rintro v u ⟨hm, ⟨-, hn, -⟩ | ⟨-, hu, -, rfl⟩⟩
  · rw [hr] at hn; simp at hn
  · refine ⟨hm, ?_, by omega⟩
    rw [hr, List.take_append_of_le_length (by simp), List.take_of_length_le (by simp), valOf_byte]

theorem inBits_byte_granted {s : State} {j : Nat} {b : Byte} {bs : List Byte} (h : quiet (s.inp.errors.take 8))
    (hp : s.inp.pos = 8 * j) (hb : s.inp.bytes.drop j = b :: bs) :
    inBits 8 s = .done (some b.toNat) (s.advanceIn 8) := by
  rw [inBits_granted h (inRest_byte hp hb) (by simp), valOf_byte]

theorem inBits_byte_quiet {s : State} {j : Nat} {b : Byte} {bs : List Byte} (h : quiet s.inp.errors)
    (hp : s.inp.pos = 8 * j) (hb : s.inp.bytes.drop j = b :: bs) :
    inBits 8 s = .done (some b.toNat) (s.advanceIn 8) := inBits_byte_granted (quiet_take h 8) hp hb

theorem length_of_drop {α} {l : List α} {j : Nat} {b : α} {bs : List α} (h : l.drop j = b :: bs) :
    j < l.length := by
  by_contra hc
  rw [List.drop_eq_nil_of_le (by omega)] at h
  simp at h

/-- One byte counted (R111). -/
def bump (cnt : List Nat) (b : Byte) : List Nat := cnt.set b.toNat (cnt.getD b.toNat 0 + 1)

/-- No byte of the list meets a full count (R113). -/
def fits (p : Params) : List Nat → List Byte → Prop
  | _, [] => True
  | cnt, b :: bs => countFull p (cnt.getD b.toNat 0) = false ∧ fits p (bump cnt b) bs

/-- A pass of COUNT's loop over a byte whose count is full (R113). -/
theorem countLoop_full {n j : Nat} {cnt : List Nat} {s : State} {b : Byte} {bs : List Byte}
    (h : quiet s.inp.errors) (hp : s.inp.pos = 8 * j) (hb : s.inp.bytes.drop j = b :: bs)
    (hf : countFull s.params (cnt.getD b.toNat 0) = true) :
    countLoop (n + 1) cnt s = raise .countOverflow (BitVec.ofNat 32 b.toNat) (s.afterBytes 1) := by
  have hj := length_of_drop hb
  rw [countLoop, inMore_quiet h, andThen_done, if_pos (by simp; omega),
    inBits_byte_quiet (s := s.withInErrors (s.inp.errors.drop 1)) (quiet_drop h 1) hp hb]
  simp only [andThen_done]
  rw [if_pos (by exact hf)]
  simp [State.afterBytes, State.advanceIn, State.withInErrors]

/-- A pass of COUNT's loop over a byte whose count is not full, its nine accesses granted (R111). -/
theorem countLoop_step {n j : Nat} {cnt : List Nat} {s : State} {b : Byte} {bs : List Byte}
    (h : quiet (s.inp.errors.take 9)) (hp : s.inp.pos = 8 * j) (hb : s.inp.bytes.drop j = b :: bs)
    (hf : countFull s.params (cnt.getD b.toNat 0) = false) :
    countLoop (n + 1) cnt s = countLoop n (bump cnt b) (s.afterBytes 1) := by
  have hj := length_of_drop hb
  obtain ⟨h1, h8⟩ := quiet_take_add (j := 1) (k := 8).1 h
  rw [countLoop, inMore_granted h1, andThen_done, if_pos (by simp; omega),
    inBits_byte_granted (s := s.withInErrors (s.inp.errors.drop 1)) h8 hp hb]
  simp only [andThen_done]
  rw [if_neg (by simpa using hf)]
  simp [State.afterBytes, State.advanceIn, State.withInErrors, bump]

/-- The last pass of COUNT's loop (R111). -/
theorem countLoop_end {n : Nat} {cnt : List Nat} {s : State} (h : quiet s.inp.errors)
    (hp : s.inp.pos = 8 * s.inp.bytes.length) :
    countLoop (n + 1) cnt s = .done cnt (s.withInErrors (s.inp.errors.drop 1)) := by
  rw [countLoop, inMore_quiet h, andThen_done, if_neg (by simp; omega)]

theorem afterBytes_add (s : State) (j k : Nat) : (s.afterBytes j).afterBytes k = s.afterBytes (j + k) := by
  simp [State.afterBytes, List.drop_drop, Nat.mul_add, Nat.add_assoc]

/-- COUNT's loop over the first bytes of the rest of the source, their accesses granted. -/
theorem countLoop_granted {pre post : List Byte} {n j : Nat} {cnt : List Nat} {s : State}
    (h : quiet (s.inp.errors.take (9 * pre.length))) (hp : s.inp.pos = 8 * j)
    (hb : s.inp.bytes.drop j = pre ++ post) (hf : fits s.params cnt pre) (hn : pre.length < n) :
    countLoop n cnt s = countLoop (n - pre.length) (pre.foldl bump cnt) (s.afterBytes pre.length) := by
  induction pre generalizing n j cnt s with
  | nil => simp [State.afterBytes]
  | cons b pre ih =>
    cases n with
    | zero => simp at hn
    | succ n =>
      rw [List.length_cons, Nat.mul_add, Nat.add_comm, quiet_take_add] at h
      rw [countLoop_step h.1 hp hb hf.1, ih (s := s.afterBytes 1) (j := j + 1) (by exact h.2)
        (by simp [State.afterBytes, hp]; omega) ?_ hf.2 (by simpa using hn), afterBytes_add]
      · simp [Nat.add_comm 1]
      · simp only [State.afterBytes]
        rw [← List.drop_drop, hb]; simp

/-- COUNT's loop over the first bytes of the rest of a quiet source. -/
theorem countLoop_pre {pre post : List Byte} {n j : Nat} {cnt : List Nat} {s : State}
    (h : quiet s.inp.errors) (hp : s.inp.pos = 8 * j) (hb : s.inp.bytes.drop j = pre ++ post)
    (hf : fits s.params cnt pre) (hn : pre.length < n) :
    countLoop n cnt s = countLoop (n - pre.length) (pre.foldl bump cnt) (s.afterBytes pre.length) :=
  countLoop_granted (quiet_take h _) hp hb hf hn

/-- COUNT's loop over a whole quiet source whose counts fit (R111, R112). -/
theorem countLoop_quiet {cnt : List Nat} {s : State} (h : quiet s.inp.errors) (hp : s.inp.pos = 0)
    (hf : fits s.params cnt s.inp.bytes) :
    countLoop (s.inp.bytes.length + 1) cnt s = .done (s.inp.bytes.foldl bump cnt)
      { s with inp := { s.inp with
          pos := 8 * s.inp.bytes.length, errors := s.inp.errors.drop (9 * s.inp.bytes.length + 1) } } := by
  rw [countLoop_pre (pre := s.inp.bytes) (post := []) (j := 0) h (by simpa using hp) (by simp) hf (by omega),
    Nat.add_sub_cancel_left, countLoop_end (by simpa [State.afterBytes] using quiet_drop h _)
      (by simp [State.afterBytes, hp])]
  simp [State.afterBytes, State.withInErrors, hp, List.drop_drop]

theorem bump_length (cnt : List Nat) (b : Byte) : (bump cnt b).length = cnt.length := by simp [bump]

theorem foldl_bump_length (bs : List Byte) (cnt : List Nat) : (bs.foldl bump cnt).length = cnt.length := by
  induction bs generalizing cnt with
  | nil => rfl
  | cons b bs ih => simp [ih, bump_length]

/-- R112: what counting adds to a cell. -/
theorem foldl_bump_getElem? (bs : List Byte) (cnt : List Nat) (i : Nat) (hi : i < 256) (hc : i < cnt.length) :
    (bs.foldl bump cnt)[i]? = some (cnt.getD i 0 + bs.count (BitVec.ofNat 8 i)) := by
  induction bs generalizing cnt with
  | nil => simp [hc]
  | cons b bs ih =>
    rw [List.foldl_cons, ih _ (by rwa [bump_length]), List.count_cons]
    congr 1
    by_cases h : b.toNat = i
    · have hb : b = BitVec.ofNat 8 i := BitVec.eq_of_toNat_eq (by simp [h]; omega)
      subst h
      simp only [bump, List.getD_eq_getElem?_getD, List.getElem?_set_self hc]
      simp; omega
    · have hb : b ≠ BitVec.ofNat 8 i := by
        rintro rfl; simp at h; omega
      simp only [bump, List.getD_eq_getElem?_getD, List.getElem?_set_ne h]
      simp [hb]

/-- R112: the table of a whole source. -/
theorem foldl_bump_table (bs : List Byte) :
    (bs.foldl bump (List.replicate Config.nsym 0)).set Config.eos 1 = countTable bs := by
  have hn : Config.nsym = 257 := rfl
  have he : Config.eos = 256 := rfl
  apply List.ext_getElem?
  intro i
  by_cases h : i < 256
  · have h0 : i < (List.replicate Config.nsym 0).length := by rw [List.length_replicate]; omega
    rw [List.getElem?_set_ne (by omega), foldl_bump_getElem? _ _ _ h h0, countTable,
      List.getElem?_append_left (by rw [List.length_map, List.length_range]; omega), List.getElem?_map,
      List.getElem?_range (by omega), List.getD_eq_getElem?_getD, List.getElem?_replicate]
    split <;> simp [byteCount]
  · have hl : (bs.foldl bump (List.replicate Config.nsym 0)).length = 257 := by
      rw [foldl_bump_length, List.length_replicate, hn]
    have hc : (countTable bs).length = 257 := by simp [countTable, he]
    by_cases h2 : i = 256
    · rw [← he] at h2
      rw [h2, List.getElem?_set_self (by omega), countTable, List.getElem?_append_right (by simp)]
      simp
    · rw [List.getElem?_eq_none (by rw [List.length_set]; omega), List.getElem?_eq_none (by omega)]

theorem countFull_iff (p : Params) (c : Nat) : countFull p c = true ↔ ∃ n ∈ p.countWidth, 2 ^ n - 1 ≤ c := by
  simp only [countFull]
  cases p.countWidth <;> simp

theorem fits_of_room {p : Params} (bs : List Byte) (cnt : List Nat) (hl : cnt.length = Config.nsym)
    (h : ∀ b ∈ bs, ∀ n ∈ p.countWidth, cnt.getD b.toNat 0 + bs.count b ≤ 2 ^ n - 1) : fits p cnt bs := by
  induction bs generalizing cnt with
  | nil => trivial
  | cons b bs ih =>
    refine ⟨?_, ih _ (by rwa [bump_length]) ?_⟩
    · rw [Bool.eq_false_iff, Ne, countFull_iff]
      rintro ⟨n, hn, hle⟩
      have := h b (by simp) n hn
      rw [List.count_cons_self] at this; omega
    · intro x hx n hn
      have := h x (by simp [hx]) n hn
      by_cases hxb : b = x
      · subst hxb
        have hb : b.toNat < cnt.length := by rw [hl]; have := b.isLt; simp [Config.nsym]; omega
        simp only [bump, List.getD_eq_getElem?_getD, List.getElem?_set_self hb]
        simp at this ⊢; omega
      · have hne : b.toNat ≠ x.toNat := fun e => hxb (BitVec.eq_of_toNat_eq e)
        simp only [bump, List.getD_eq_getElem?_getD, List.getElem?_set_ne hne]
        simpa [List.count_cons, hxb] using this

/-- R113: a source whose counts fit is counted to its end. -/
theorem fits_zero {p : Params} {bs : List Byte} (h : countsFit p bs) :
    fits p (List.replicate Config.nsym 0) bs := by
  refine fits_of_room bs _ (by simp) fun b hb n hn => ?_
  have := h b hb n hn
  have hlt : b.toNat < Config.nsym := by have := b.isLt; simp [Config.nsym]; omega
  simpa [List.getElem?_replicate, hlt, byteCount] using this

/-- COUNT on a quiet port, its counts fitting (R111). -/
theorem countBody_quiet {s : State} (h : quiet s.inp.errors) (hf : countsFit s.params s.inp.bytes) :
    countBody s = .done ()
      { s.dropAll with
        cnt := countTable s.inp.bytes, ftV := true
        inp := { s.inp with
          pos := 8 * s.inp.bytes.length, errors := s.inp.errors.drop (9 * s.inp.bytes.length + 2) } } := by
  rw [countBody, inRewind_quiet (by simpa using h), andThen_done,
    countLoop_quiet (by simpa using quiet_drop h 1) rfl (by simpa using fits_zero hf)]
  simp only [andThen_done]
  congr 1
  simp only [State.dropAll_inp, List.drop_drop]
  rw [← foldl_bump_table]
  congr 3
  omega

/-- The faults COUNT can raise (R188): `IO_FAILURE(0)`, and `COUNT_OVERFLOW` with a byte value. -/
def countFaults (c : Cause) (i : Word) : Prop :=
  inFailure c i ∨ (c = .countOverflow ∧ ∃ b : Byte, i = BitVec.ofNat 32 b.toNat)

/-- COUNT's loop under every answer of the environment: it is never stuck, moves the input port alone, and
ends normally only at the end of the source with every byte counted. -/
theorem countLoop_ends {n j : Nat} {cnt : List Nat} {s : State} (hp : s.inp.pos = 8 * j)
    (hj : j ≤ s.inp.bytes.length) (hn : s.inp.bytes.length - j < n) :
    (countLoop n cnt s).Ends
      (fun c u => InMoved s u ∧ u.inp.pos = 8 * u.inp.bytes.length ∧
        c = (s.inp.bytes.drop j).foldl bump cnt ∧ fits s.params cnt (s.inp.bytes.drop j))
      (Raises countFaults (InMoved s)) False := by
  induction n generalizing j cnt s with
  | zero => omega
  | succ n ih =>
    have hio : ∀ c i, inFailure c i → countFaults c i := fun _ _ h => .inl h
    rw [countLoop]
    refine Run.Ends.andThen ((inMore_ends s).mono (fun _ _ h => h) (fun t h => h.mono hio fun _ h => h) id) ?_
    rintro more _ ⟨⟨e, rfl⟩, hmore⟩
    by_cases hlt : j < s.inp.bytes.length
    · have hdrop := List.drop_eq_getElem_cons hlt
      rw [if_pos (hmore.2 (by omega))]
      have hb := inBits_byte_ends (s := s.withInErrors e) (by simpa using hp) hdrop
      refine Run.Ends.andThen (hb.mono (fun _ _ h => h)
        (fun t h => h.mono hio fun _ h => (inMoved_errors s e).trans h) id) ?_
      rintro v u ⟨hm, rfl, hu⟩
      have hm := (inMoved_errors s e).trans hm
      have hbytes : u.inp.bytes = s.inp.bytes := by rw [hm.1]
      have hpar : u.params = s.params := by rw [hm.1]
      simp only [hpar]
      split
      · rw [ends_raise]
        exact ⟨_, _, u, .inr ⟨rfl, _, rfl⟩, hm, rfl⟩
      · rename_i hfull
        have := ih (s := u) (j := j + 1) (cnt := bump cnt s.inp.bytes[j]) (by omega)
          (by rw [hbytes]; omega) (by rw [hbytes]; omega)
        refine this.mono ?_ (fun t h => h.mono (fun _ _ h => h) fun _ h => hm.trans h) id
        rintro c w ⟨hw, hwp, rfl, hf⟩
        rw [hbytes] at hf ⊢
        refine ⟨hm.trans hw, hwp, by rw [hdrop]; rfl, ?_⟩
        rw [hdrop]
        exact ⟨by simpa using hfull, by rwa [hpar] at hf⟩
    · have hnil : s.inp.bytes.drop j = [] := List.drop_eq_nil_of_le (by omega)
      rw [if_neg (by rw [hmore]; omega)]
      exact ⟨inMoved_errors s e, by simp; omega, by rw [hnil]; rfl, by rw [hnil]; trivial⟩

/-- COUNT under every answer of the environment (R111, R188). -/
theorem countBody_ends (s : State) :
    (countBody s).Ends
      (fun _ u => ∃ e, u = { s.dropAll with
        cnt := countTable s.inp.bytes, ftV := true
        inp := { s.inp with pos := 8 * s.inp.bytes.length, errors := e } } ∧
        fits s.params (List.replicate Config.nsym 0) s.inp.bytes)
      (Raises countFaults (InMoved s.dropAll)) False := by
  rw [countBody]
  refine Run.Ends.andThen ((inRewind_ends _).mono (fun _ _ h => h)
    (fun t h => h.mono (fun _ _ h => .inl h) fun _ h => h) id) ?_
  rintro _ u ⟨hm, hp⟩
  have hbytes : u.inp.bytes = s.inp.bytes := by rw [hm.1]; rfl
  refine Run.Ends.andThen ((countLoop_ends (s := u) (j := 0) (by simpa using hp) (by omega) (by omega)).mono
    (fun _ _ h => h) (fun t h => h.mono (fun _ _ h => h) fun _ h => hm.trans h) id) ?_
  rintro c w ⟨hw, hwp, rfl, hf⟩
  have hmw := hm.trans hw
  have hwb : w.inp.bytes = s.inp.bytes := by rw [hmw.1]; rfl
  have hpar : u.params = s.params := by rw [hm.1]; rfl
  refine ⟨w.inp.errors, ?_, by simpa [hbytes, hpar] using hf⟩
  have hpos : w.inp.pos = 8 * s.inp.bytes.length := by rw [hwp, hwb]
  rw [hbytes, List.drop_zero, foldl_bump_table]
  conv => lhs; rw [hmw.1]
  simp [hpos]

end Sys2Proof.Machine
end

