-- ==== Sys2Proof/Laws/Stream.lean ====
section
/-! SUPPORT. The Stream Encoder and Decoder (R153, R154, R163 to R167): ENCPAY's loop on quiet ports, DECPAY's
loop as the walk on bit strings, and the payload's round trip. -/

namespace Sys2Proof.Machine

theorem codeWord_some {ct : List (Option CodeCell)} {sym : Nat} {w : List Bool} (h : codeWord ct sym = some w) :
    ∃ c, ct[sym]? = some (some c) ∧ w = bitsOf c.len.toNat c.val.toNat := by
  unfold codeWord at h
  split at h
  · rename_i c hc; simp at h; exact ⟨c, hc, h.symm⟩
  · simp at h

/-- A symbol with a code is written as its code word (R153). -/
theorem putCode_word {s : State} {sym : Nat} {w : List Bool} (hw : codeWord s.ct sym = some w) :
    putCode sym s = outString w s := by
  obtain ⟨c, hc, rfl⟩ := codeWord_some hw
  simp only [putCode, hc]
  rfl

theorem putCode_quiet {s : State} {sym : Nat} {w : List Bool} (h : quiet s.out.errors)
    (hw : codeWord s.ct sym = some w) : putCode sym s = .done () (s.appendOut w) := by
  rw [putCode_word hw, outString_quiet w h]

/-- A symbol with no code raises `NO_CODE` before anything is written (R154). -/
theorem putCode_noCode {s : State} {sym : Nat} (h : s.ct[sym]? = some none) :
    putCode sym s = raise .noCode (BitVec.ofNat 32 sym) s := by
  simp only [putCode, h]

/-- ENCPAY's loop over the first bytes of the rest of the source, their accesses granted (R153). -/
theorem encLoop_granted {pre post : List Byte} {ws : List Bool} {n j : Nat} {s : State}
    (h : quiet (s.inp.errors.take (9 * pre.length))) (ho : quiet (s.out.errors.take ws.length)) (hp : s.inp.pos = 8 * j) (hb : s.inp.bytes.drop j = pre ++ post)
    (hc : codesOf s.ct pre = some ws) (hn : pre.length < n) :
    encLoop n s = encLoop (n - pre.length) ((s.afterBytes pre.length).appendOut ws) := by
  induction pre generalizing n j ws s with
  | nil => simp [codesOf] at hc; subst hc; simp [State.afterBytes, State.appendOut]
  | cons b pre ih =>
    cases n with
    | zero => simp at hn
    | succ n =>
      have hj := length_of_drop hb
      simp only [codesOf] at hc
      split at hc
      · rename_i w ws' hw hws
        simp at hc
        subst hc
        rw [List.length_cons, Nat.mul_add, Nat.add_comm, quiet_take_add] at h
        rw [List.length_append, quiet_take_add] at ho
        obtain ⟨h1, h8⟩ := quiet_take_add (j := 1) (k := 8).1 h.1
        rw [encLoop, inMore_granted h1, andThen_done, if_pos (by simp; omega),
          inBits_byte_granted (s := s.withInErrors (s.inp.errors.drop 1)) h8 hp hb]
        simp only [andThen_done]
        rw [putCode_word (by exact hw), outString_granted (by exact ho.1), andThen_done]
        have e : ((s.withInErrors (s.inp.errors.drop 1)).advanceIn 8).appendOut w = (s.afterBytes 1).appendOut w := by
          simp [State.afterBytes, State.advanceIn, State.withInErrors]
        rw [e, ih (s := (s.afterBytes 1).appendOut w) (j := j + 1) (ws := ws') (by exact h.2)
          (by exact ho.2) (by simp [State.afterBytes, hp]; omega) ?_ (by exact hws) (by simpa using hn)]
        · rw [List.length_cons, Nat.add_sub_add_right]
          congr 1
          simp [State.afterBytes, State.appendOut, List.drop_drop, Nat.mul_add, Nat.add_assoc, Nat.add_comm]
        · simp only [State.afterBytes, State.appendOut]
          rw [← List.drop_drop, hb]; simp
      · simp at hc

/-- ENCPAY's loop over the first bytes of the rest of a quiet source (R153). -/
theorem encLoop_pre {pre post : List Byte} {ws : List Bool} {n j : Nat} {s : State} (h : quiet s.inp.errors)
    (ho : quiet s.out.errors) (hp : s.inp.pos = 8 * j) (hb : s.inp.bytes.drop j = pre ++ post)
    (hc : codesOf s.ct pre = some ws) (hn : pre.length < n) :
    encLoop n s = encLoop (n - pre.length) ((s.afterBytes pre.length).appendOut ws) :=
  encLoop_granted (quiet_take h _) (quiet_take ho _) hp hb hc hn

/-- ENCPAY on quiet ports, every symbol having a code (R153). -/
theorem encpayBody_quiet {s : State} {p : List Bool} (h : quiet s.inp.errors) (ho : quiet s.out.errors)
    (hp : payload s.ct s.inp.bytes = some p) :
    encpayBody s = .done ()
      { (s.appendOut p) with
        inp := { s.inp with
          pos := 8 * s.inp.bytes.length, errors := s.inp.errors.drop (9 * s.inp.bytes.length + 2) } } := by
  unfold payload at hp
  split at hp
  · rename_i ws w hws hw
    simp at hp
    subst hp
    rw [encpayBody, inRewind_quiet h, andThen_done]
    simp only
    rw [encLoop_pre (pre := s.inp.bytes) (post := []) (j := 0) (ws := ws) (by exact quiet_drop h 1) (by exact ho)
      rfl (by simp) (by exact hws) (by omega), Nat.add_sub_cancel_left, encLoop, inMore_quiet (by exact quiet_drop (quiet_drop h 1) _)]
    simp only [andThen_done]
    rw [if_neg (by simp [State.afterBytes]), andThen_done, putCode_quiet (by exact quiet_drop ho _) (by exact hw)]
    simp [State.afterBytes, State.appendOut, State.withInErrors, List.drop_drop]
  · simp at hp

theorem outBits_byte (sym : Sym) : bitsOf 8 sym.toNat = unpack [sym.truncate 8] := by
  simp only [unpack, List.append_nil]
  rw [show (sym.truncate 8 : Byte).toNat = sym.toNat % 2 ^ 8 by simp]
  exact (bitsOf_mod 8 _ 8 (le_refl _)).symm

/-- DECPAY's loop from an internal node on quiet ports is the walk on the bits left (R163, R165). -/
theorem decLoop_quiet {n : Nat} {a b l r : CodeTree} {s : State} (h : quiet s.inp.errors) (ho : quiet s.out.errors)
    (hn : 2 * s.inRest.length + 1 ≤ n) :
    match walkBits (.node a b) (.node l r) s.inRest with
    | (bytes, some rest) =>
      decLoop n (.node a b) (.node l r) s =
        .done () ((s.advanceIn (s.inRest.length - rest.length)).appendOut (unpack bytes)) ∧
        ∃ used, s.inRest = used ++ rest
    | (bytes, none) =>
      ∃ e, decLoop n (.node a b) (.node l r) s = raise .malformedBitstream 3
        { (s.appendOut (unpack bytes)) with
          inp := { s.inp with pos := s.inp.pos + s.inRest.length, errors := e } } := by
  induction hk : s.inRest.length using Nat.strong_induction_on generalizing n l r s with
  | _ k ih =>
    cases n with
    | zero => omega
    | succ n =>
      cases hr : s.inRest with
      | nil =>
        simp only [walkBits]
        refine ⟨s.inp.errors.drop 1, ?_⟩
        simp only [decLoop, inBit_quiet_nil h hr, andThen_done]
        rw [hr] at hk; simp at hk; subst hk
        simp [unpack, State.appendOut, State.withInErrors]
      | cons x xs =>
        have hq1 : quiet (s.advanceIn 1).inp.errors := quiet_drop h 1
        have hr1 : (s.advanceIn 1).inRest = xs := by rw [inRest_advance, hr]; rfl
        have hkl : k = xs.length + 1 := by rw [← hk, hr]; rfl
        simp only [walkBits, decLoop, inBit_quiet_cons h hr, andThen_done]
        cases hc : (if x then r else l) with
        | node l' r' =>
          simp only
          have := ih xs.length (by omega) (n := n) (l := l') (r := r') (s := s.advanceIn 1) hq1 ho
            (by rw [hr1]; rw [hk] at hn; omega) (by rw [hr1])
          rw [hr1] at this
          cases hw : walkBits (.node a b) (.node l' r') xs with
          | mk bytes o =>
            cases o with
            | none =>
              simp only [hw] at this ⊢
              obtain ⟨e, this⟩ := this
              refine ⟨e, ?_⟩
              rw [this, hkl]
              simp [State.advanceIn, State.appendOut, Nat.add_assoc, Nat.add_comm 1]
            | some rest =>
              simp only [hw] at this ⊢
              obtain ⟨this, used, hu⟩ := this
              refine ⟨?_, x :: used, by rw [hu]; rfl⟩
              rw [this, advanceIn_advanceIn]
              congr 3
              rw [hu] at hkl; simp at hkl
              rw [hu, hkl]; simp; omega
        | leaf sym =>
          cases n with
          | zero => rw [hk] at hn; omega
          | succ n =>
            simp only [decLoop]
            by_cases he : sym.toNat = Config.eos
            · simp only [if_pos he]
              refine ⟨?_, [x], rfl⟩
              rw [hkl, Nat.add_sub_cancel_left]
              simp [State.appendOut, State.advanceIn, unpack]
            · simp only [if_neg he, outBits_quiet sym.toNat 8 (s := s.advanceIn 1) ho, andThen_done]
              have := ih xs.length (by omega) (n := n) (l := a) (r := b)
                (s := (s.advanceIn 1).appendOut (bitsOf 8 sym.toNat)) hq1 (quiet_drop ho _)
                (by rw [show ((s.advanceIn 1).appendOut (bitsOf 8 sym.toNat)).inRest = xs from hr1]; rw [hk] at hn; omega)
                (congrArg List.length hr1)
              rw [show ((s.advanceIn 1).appendOut (bitsOf 8 sym.toNat)).inRest = xs from hr1] at this
              have hcons : ∀ bs : List Byte, unpack (sym.truncate 8 :: bs) = bitsOf 8 sym.toNat ++ unpack bs := by
                intro bs; rw [outBits_byte]; simp [unpack]
              cases hw : walkBits (.node a b) (.node a b) xs with
              | mk bytes o =>
                cases o with
                | none =>
                  simp only [hw] at this ⊢
                  obtain ⟨e, this⟩ := this
                  refine ⟨e, ?_⟩
                  rw [this, hkl, hcons]
                  simp [State.advanceIn, State.appendOut, Nat.add_assoc, Nat.add_comm 1]
                | some rest =>
                  simp only [hw] at this ⊢
                  obtain ⟨this, used, hu⟩ := this
                  refine ⟨?_, x :: used, by rw [hu]; rfl⟩
                  rw [this, hcons]
                  rw [hu] at hkl; simp at hkl
                  rw [hu, hkl]
                  simp [State.advanceIn, State.appendOut, List.drop_drop, Nat.add_assoc]
                  omega

/-- DECPAY on quiet ports with a tree whose root is internal (R163, R165). -/
theorem decpayBody_quiet {s : State} {l r : CodeTree} (h : quiet s.inp.errors) (ho : quiet s.out.errors)
    (ht : s.tree = some (.node l r)) :
    match walkBits (.node l r) (.node l r) s.inRest with
    | (bytes, some rest) =>
      decpayBody s = .done () ((s.advanceIn (s.inRest.length - rest.length)).appendOut (unpack bytes)) ∧
        ∃ used, s.inRest = used ++ rest
    | (bytes, none) =>
      ∃ e, decpayBody s = raise .malformedBitstream 3
        { (s.appendOut (unpack bytes)) with
          inp := { s.inp with pos := s.inp.pos + s.inRest.length, errors := e } } := by
  have := decLoop_quiet (n := decBound s) (a := l) (b := r) (l := l) (r := r) h ho
    (by rw [inRest_length]; simp [decBound])
  simpa only [decpayBody, ht, badRoot, Bool.false_eq_true, if_false] using this

/-- Walking along a leaf's path reaches that leaf (R142, R163). -/
theorem walkBits_path {root t : CodeTree} {sym : Sym} {p rest : List Bool} (hm : (sym, p) ∈ t.paths) (hp : p ≠ []) :
    walkBits root t (p ++ rest) =
      if sym.toNat = Config.eos then ([], some rest)
      else (sym.truncate 8 :: (walkBits root root rest).1, (walkBits root root rest).2) := by
  induction t generalizing p with
  | leaf s => simp [CodeTree.paths] at hm; exact absurd hm.2 hp
  | node l r hl hr =>
    simp only [CodeTree.paths, List.mem_append, List.mem_map] at hm
    have key : ∀ (c : CodeTree) (q : List Bool), (sym, q) ∈ c.paths →
        (∀ {p : List Bool}, (sym, p) ∈ c.paths → p ≠ [] → walkBits root c (p ++ rest) =
          if sym.toNat = Config.eos then ([], some rest)
          else (sym.truncate 8 :: (walkBits root root rest).1, (walkBits root root rest).2)) →
        (match c with
          | .leaf s => if s.toNat = Config.eos then ([], some (q ++ rest))
              else (s.truncate 8 :: (walkBits root root (q ++ rest)).1, (walkBits root root (q ++ rest)).2)
          | c => walkBits root c (q ++ rest)) =
          if sym.toNat = Config.eos then ([], some rest)
          else (sym.truncate 8 :: (walkBits root root rest).1, (walkBits root root rest).2) := by
      intro c q hq ih
      cases c with
      | leaf s =>
        simp [CodeTree.paths] at hq
        obtain ⟨rfl, rfl⟩ := hq
        rfl
      | node a b =>
        refine ih hq ?_
        rintro rfl
        simp [CodeTree.paths] at hq
    rcases hm with ⟨⟨s', q⟩, hq, he⟩ | ⟨⟨s', q⟩, hq, he⟩
    · simp at he; obtain ⟨rfl, rfl⟩ := he
      exact key l q hq hl
    · simp at he; obtain ⟨rfl, rfl⟩ := he
      exact key r q hq hr

/-- R167 (b): the walk undoes the code words of a source. -/
theorem walkBits_payload {l r : CodeTree} {src : List Byte} {p rest : List Bool} (hw : (CodeTree.node l r).wf = true)
    (hp : payload (codeTable (.node l r)) src = some p) :
    walkBits (.node l r) (.node l r) (p ++ rest) = (src, some rest) := by
  have hne : ∀ {sym : Sym} {q : List Bool}, (sym, q) ∈ (CodeTree.node l r).paths → q ≠ [] := by
    rintro sym q hq rfl; simp [CodeTree.paths] at hq
  unfold payload at hp
  split at hp
  · rename_i ws w hws hw256
    simp at hp
    subst hp
    induction src generalizing ws with
    | nil =>
      simp [codesOf] at hws
      subst hws
      rw [show Config.eos = (256 : Sym).toNat from rfl, codeWord_codeTable hw 256 (by decide)] at hw256
      have hm := lastPath_mem hw256
      rw [List.nil_append, walkBits_path hm (hne hm),
        if_pos (show BitVec.toNat (256 : Sym) = Config.eos from rfl)]
    | cons b bs ih =>
      simp only [codesOf] at hws
      split at hws
      · rename_i w0 ws0 h0 hws0
        simp at hws
        subst hws
        have hbs : b.toNat = (symOfByte b).toNat := by
          have := b.isLt
          simp [symOfByte]; omega
        have hlt : (symOfByte b).toNat < 256 := by rw [← hbs]; exact b.isLt
        rw [hbs, codeWord_codeTable hw _ (by have : Config.nsym = 257 := rfl; omega)] at h0
        have hm := lastPath_mem h0
        rw [List.append_assoc, List.append_assoc, walkBits_path hm (hne hm),
          if_neg (by have : Config.eos = 256 := rfl; omega), ← List.append_assoc, ih _ hws0]
        have hbb : (symOfByte b).truncate 8 = b := by
          apply BitVec.eq_of_toNat_eq
          simp [symOfByte]
        rw [hbb]
      · simp at hws
  · simp at hp

end Sys2Proof.Machine
end

