-- ==== Sys2Proof/Laws/Bodies.lean ====
section
/-! SUPPORT. How the body of each command can end under every answer of the environment (R188, R192, R193):
the normal end with its frame, the faults it can raise and the states they leave, and when it could be stuck. -/

namespace Sys2Proof.Machine

/-- `u` differs from `s` at most in the ports: `IN.pos`, both ports' answers, and bits appended to `OUT`. -/
def IOMoved (s u : State) : Prop :=
  (∃ p ei bits eo, u = { s with
      inp := { s.inp with pos := p, errors := ei }, out := { bits := s.out.bits ++ bits, errors := eo } }) ∧
    (s.inp.pos ≤ 8 * s.inp.bytes.length → u.inp.pos ≤ 8 * s.inp.bytes.length)

theorem InMoved.io {s u : State} (h : InMoved s u) : IOMoved s u := by
  refine ⟨⟨u.inp.pos, u.inp.errors, [], s.out.errors, ?_⟩, h.2⟩
  conv => lhs; rw [h.1]
  simp

theorem OutMoved.io {s u : State} (h : OutMoved s u) : IOMoved s u := by
  obtain ⟨bits, e, rfl⟩ := h
  exact ⟨⟨s.inp.pos, s.inp.errors, bits, e, rfl⟩, id⟩

theorem IOMoved.refl (s : State) : IOMoved s s := (InMoved.refl s).io

theorem IOMoved.trans {s t u : State} (h1 : IOMoved s t) (h2 : IOMoved t u) : IOMoved s u := by
  obtain ⟨⟨p1, e1, b1, o1, rfl⟩, q1⟩ := h1
  obtain ⟨⟨p2, e2, b2, o2, rfl⟩, q2⟩ := h2
  exact ⟨⟨p2, e2, b1 ++ b2, o2, by simp⟩, fun h => q2 (q1 h)⟩

/-- The faults ENCPAY can raise (R188), `NO_CODE` only of a symbol it had to write that has no code (R154). -/
def encpayFaults (s : State) (c : Cause) (i : Word) : Prop :=
  inFailure c i ∨ outFailure c i ∨ (c = .noCode ∧ ∃ sym, i = BitVec.ofNat 32 sym ∧ s.ct[sym]? = some none ∧
    (sym = Config.eos ∨ ∃ b ∈ s.inp.bytes, b.toNat = sym))

theorem putCode_ends {sym : Nat} (s : State) (hs : sym = Config.eos ∨ ∃ b ∈ s.inp.bytes, b.toNat = sym) :
    (putCode sym s).Ends (fun _ u => OutMoved s u) (Raises (encpayFaults s) (OutMoved s))
      (s.ct.length ≠ Config.nsym) := by
  have hlt : sym < Config.nsym := by
    rcases hs with rfl | ⟨b, -, rfl⟩
    · decide
    · exact lt_of_lt_of_le b.isLt (by decide)
  unfold putCode
  split
  · rename_i h
    rw [ends_stuck]
    intro hl
    rw [List.getElem?_eq_none_iff] at h
    omega
  · rename_i h
    exact ⟨_, _, s, .inr (.inr ⟨rfl, sym, rfl, h, hs⟩), OutMoved.refl s, rfl⟩
  · refine (outString_ends _ s).mono ?_ (fun t h => h.mono (fun _ _ h => .inr (.inl h)) fun _ h => h) False.elim
    rintro _ u ⟨e, rfl⟩
    exact ⟨_, e, rfl⟩

theorem encLoop_ends {n j : Nat} {s : State} (hp : s.inp.pos = 8 * j) (hj : j ≤ s.inp.bytes.length)
    (hn : s.inp.bytes.length - j < n) :
    (encLoop n s).Ends (fun _ u => IOMoved s u ∧ u.inp.pos = 8 * s.inp.bytes.length)
      (Raises (encpayFaults s) (IOMoved s)) (s.ct.length ≠ Config.nsym) := by
  induction n generalizing j s with
  | zero => omega
  | succ n ih =>
    rw [encLoop]
    refine Run.Ends.andThen ((inMore_ends s).mono (fun _ _ h => h)
      (fun t h => h.mono (fun _ _ h => .inl h) fun _ h => h.io) False.elim) ?_
    rintro more _ ⟨⟨e, rfl⟩, hmore⟩
    by_cases hlt : j < s.inp.bytes.length
    · have hdrop := List.drop_eq_getElem_cons hlt
      rw [if_pos (hmore.2 (by omega))]
      have hb := inBits_byte_ends (s := s.withInErrors e) (by simpa using hp) hdrop
      refine Run.Ends.andThen (hb.mono (fun _ _ h => h)
        (fun t h => h.mono (fun _ _ h => .inl h) fun _ h => ((inMoved_errors s e).trans h).io) False.elim) ?_
      rintro v u ⟨hm, rfl, hu⟩
      have hm := (inMoved_errors s e).trans hm
      have hbytes : u.inp.bytes = s.inp.bytes := by rw [hm.1]
      have hct : u.ct = s.ct := by rw [hm.1]
      have hef : ∀ c i, encpayFaults u c i → encpayFaults s c i := by
        intro c i h; simpa only [encpayFaults, hbytes, hct] using h
      simp only
      have hput := putCode_ends (sym := s.inp.bytes[j].toNat) u
        (.inr ⟨_, by rw [hbytes]; exact List.getElem_mem hlt, rfl⟩)
      refine Run.Ends.andThen (hput.mono (fun _ _ h => h)
        (fun t h => h.mono hef fun _ h => hm.io.trans h.io) (by rw [hct]; exact id)) ?_
      rintro _ w hw
      have hmw := hm.io.trans hw.io
      have hwb : w.inp.bytes = s.inp.bytes := by obtain ⟨b, o, rfl⟩ := hw; exact hbytes
      have hwc : w.ct = s.ct := by obtain ⟨b, o, rfl⟩ := hw; exact hct
      have hwp : w.inp.pos = 8 * (j + 1) := by obtain ⟨b, o, rfl⟩ := hw; exact hu
      refine (ih (s := w) (j := j + 1) hwp (by rw [hwb]; omega) (by rw [hwb]; omega)).mono ?_ ?_ (by rw [hwc]; exact id)
      · rintro _ x ⟨hx, hxp⟩
        exact ⟨hmw.trans hx, by rw [hxp, hwb]⟩
      · exact fun t h => h.mono (by intro c i h; simpa only [encpayFaults, hwb, hwc] using h)
          fun _ h => hmw.trans h
    · rw [if_neg (by rw [hmore]; omega)]
      exact ⟨(inMoved_errors s e).io, by simp; omega⟩

theorem encpayBody_ends (s : State) :
    (encpayBody s).Ends (fun _ u => IOMoved s u ∧ u.inp.pos = 8 * s.inp.bytes.length)
      (Raises (encpayFaults s) (IOMoved s)) (s.ct.length ≠ Config.nsym) := by
  rw [encpayBody]
  refine Run.Ends.andThen ((inRewind_ends s).mono (fun _ _ h => h)
    (fun t h => h.mono (fun _ _ h => .inl h) fun _ h => h.io) False.elim) ?_
  rintro _ u ⟨hm, hp⟩
  have hbytes : u.inp.bytes = s.inp.bytes := by rw [hm.1]
  have hct : u.ct = s.ct := by rw [hm.1]
  refine Run.Ends.andThen ((encLoop_ends (s := u) (j := 0) (by simpa using hp) (by omega) (by omega)).mono
    (fun _ _ h => h) (fun t h => h.mono (by intro c i h; simpa only [encpayFaults, hbytes, hct] using h)
      fun _ h => hm.io.trans h) (by rw [hct]; exact id)) ?_
  rintro _ w ⟨hw, hwp⟩
  have hwb : w.inp.bytes = s.inp.bytes := by obtain ⟨⟨_, _, _, _, rfl⟩, -⟩ := hw; exact hbytes
  have hwc : w.ct = s.ct := by obtain ⟨⟨_, _, _, _, rfl⟩, -⟩ := hw; exact hct
  refine (putCode_ends (sym := Config.eos) w (.inl rfl)).mono ?_ ?_ (by rw [hwc]; exact id)
  · rintro _ x hx
    refine ⟨(hm.io.trans hw).trans hx.io, ?_⟩
    obtain ⟨_, _, rfl⟩ := hx
    simp only [hwp, hbytes]
  · exact fun t h => h.mono (by intro c i h; simpa only [encpayFaults, hwb, hwc] using h)
      fun _ h => (hm.io.trans hw).trans h.io

/-- The faults DECPAY can raise (R188). -/
def decpayFaults (c : Cause) (i : Word) : Prop :=
  inFailure c i ∨ outFailure c i ∨ (c = .malformedBitstream ∧ (i = 3 ∨ i = 4))

/-- `u` differs from `s` at most in the ports, and whole bytes were appended to `OUT` (R167 (c)). -/
def BytesMoved (s u : State) : Prop := IOMoved s u ∧ ∃ bytes, u.out.bits = s.out.bits ++ unpack bytes

theorem decLoop_ends {n : Nat} {a b l r : CodeTree} {s : State} (hn : 2 * s.inRest.length + 1 ≤ n) :
    (decLoop n (.node a b) (.node l r) s).Ends (fun _ u => BytesMoved s u)
      (Raises decpayFaults (IOMoved s)) False := by
  induction hk : s.inRest.length using Nat.strong_induction_on generalizing n l r s with
  | _ k ih =>
    cases n with
    | zero => omega
    | succ n =>
      rw [decLoop]
      refine Run.Ends.andThen ((inBit_ends s).mono (fun _ _ h => h)
        (fun t h => h.mono (fun _ _ h => .inl h) fun _ h => h.io) id) ?_
      rintro x u ⟨hm, ⟨rfl, hr, -⟩ | ⟨x, rfl, hr, -⟩⟩
      · exact ⟨_, _, u, .inr (.inr ⟨rfl, .inl rfl⟩), hm.io, rfl⟩
      · have hlen : s.inRest.length = u.inRest.length + 1 := by rw [hr]; rfl
        simp only
        cases hc : (if x then r else l) with
        | node l' r' =>
          refine (ih u.inRest.length (by omega) (n := n) (s := u) (by omega) rfl).mono ?_
            (fun t h => h.mono (fun _ _ h => h) fun _ h => hm.io.trans h) id
          rintro _ w ⟨hw, bytes, hb⟩
          exact ⟨hm.io.trans hw, bytes, by rw [hb, hm.1]⟩
        | leaf sym =>
          cases n with
          | zero => omega
          | succ n =>
            simp only [decLoop]
            split
            · exact ⟨hm.io, [], by rw [hm.1]; simp [unpack]⟩
            · refine Run.Ends.andThen ((outString_ends _ u).mono (fun _ _ h => h)
                (fun t h => h.mono (fun _ _ h => .inr (.inl h)) fun _ h => hm.io.trans h.io) id) ?_
              rintro _ w ⟨e, rfl⟩
              have ho : OutMoved u { u with out := { bits := u.out.bits ++ bitsOf 8 sym.toNat, errors := e } } :=
                ⟨_, _, rfl⟩
              refine (ih u.inRest.length (by omega) (n := n)
                (s := { u with out := { bits := u.out.bits ++ bitsOf 8 sym.toNat, errors := e } })
                (by show 2 * u.inRest.length + 1 ≤ n; omega) rfl).mono ?_
                (fun t h => h.mono (fun _ _ h => h) fun _ h => (hm.io.trans ho.io).trans h) id
              rintro _ w ⟨hw, bytes, hb⟩
              refine ⟨(hm.io.trans ho.io).trans hw, sym.truncate 8 :: bytes, ?_⟩
              rw [hb, hm.1]
              simp only [outBits_byte]
              simp [unpack]

theorem decpayBody_ends (s : State) :
    (decpayBody s).Ends (fun _ u => BytesMoved s u) (Raises decpayFaults (IOMoved s)) (s.tree = none) := by
  unfold decpayBody
  split
  · rename_i h; exact h
  · rename_i t h
    split
    · exact ⟨_, _, s, .inr (.inr ⟨rfl, .inr rfl⟩), IOMoved.refl s, rfl⟩
    · rename_i hb
      cases t with
      | leaf sym =>
        simp only [badRoot, decide_eq_true_eq, ne_eq, not_not] at hb
        have : decBound s = (decBound s - 1) + 1 := by simp [decBound]
        rw [this, decLoop, if_pos hb]
        exact ⟨IOMoved.refl s, [], by simp [unpack]⟩
      | node l r =>
        exact (decLoop_ends (by rw [inRest_length]; simp [decBound])).mono (fun _ _ h => h) (fun _ h => h) False.elim

/-- The faults RDMAGIC can raise (R188). -/
def rdmagicFaults (c : Cause) (i : Word) : Prop :=
  inFailure c i ∨ (c = .formatMismatch ∧ (i = 0 ∨ i = 1))

theorem rdmagicBody_ends (s : State) :
    (rdmagicBody s).Ends (fun _ u => InMoved s u ∧ u.inp.pos = 32) (Raises rdmagicFaults (InMoved s)) False := by
  rw [rdmagicBody]
  refine Run.Ends.andThen ((inRewind_ends s).mono (fun _ _ h => h)
    (fun t h => h.mono (fun _ _ h => .inl h) fun _ h => h) id) ?_
  rintro _ u ⟨hm, hp⟩
  refine Run.Ends.andThen ((inBits_ends 32 u).mono (fun _ _ h => h)
    (fun t h => h.mono (fun _ _ h => .inl h) fun _ h => hm.trans h) id) ?_
  rintro v w ⟨hw, ⟨rfl, -, -⟩ | ⟨-, hp2, -, rfl⟩⟩
  · exact ⟨_, _, w, .inr ⟨rfl, .inr rfl⟩, hm.trans hw, rfl⟩
  · simp only
    split
    · exact ⟨_, _, w, .inr ⟨rfl, .inl rfl⟩, hm.trans hw, rfl⟩
    · exact ⟨hm.trans hw, by omega⟩

theorem wrmagicBody_ends (s : State) :
    (wrmagicBody s).Ends
      (fun _ u => ∃ e, u = { s with out := { bits := s.out.bits ++ magicBits s.params.magic, errors := e } })
      (Raises outFailure (OutMoved s)) False :=
  outString_ends _ s

theorem sertreeBody_ends (s : State) :
    (sertreeBody s).Ends
      (fun _ u => ∃ t e, s.tree = some t ∧ u = { s with out := { bits := s.out.bits ++ ser t, errors := e } })
      (Raises outFailure (OutMoved s)) (s.tree = none) := by
  unfold sertreeBody
  split
  · rename_i h; exact h
  · rename_i t h
    refine (outString_ends (ser t) s).mono ?_ (fun _ h => h) False.elim
    rintro _ u ⟨e, rfl⟩
    exact ⟨t, e, h, rfl⟩

theorem dropTab_tree (s : State) : s.dropTab.tree = s.tree := rfl

theorem mktableBody_ends (s : State) :
    (mktableBody s).Ends (fun _ u => ∃ t, s.tree = some t ∧ u = { s with ct := codeTable t, tabV := true })
      (fun _ => False) (s.tree = none) := by
  unfold mktableBody
  simp only [dropTab_tree]
  split
  · rename_i h; exact h
  · rename_i t h; exact ⟨t, h, rfl⟩

/-- BUILD under every state (R121, R127): normal with the pool's tree, `INPUT_ERROR(0)` exactly on a table
without entries, stuck only without a whole table. -/
theorem buildBody_ends (s : State) :
    (buildBody s).Ends
      (fun _ u => 0 < (leafSyms s.cnt).length ∧ s.cnt.length = Config.nsym ∧
        ∃ p t, PoolInv s.cnt (leafSyms s.cnt) p [(p.node.length - 1, t)] ∧
          u = { s.dropTree with
            node := p.node, weight := p.weight, live := p.live
            root := BitVec.ofNat 10 (p.node.length - 1), nnodes := BitVec.ofNat 10 p.node.length, treeV := true })
      (fun u => leafSyms s.cnt = [] ∧
        u = faultEntry .inputError 0 { s.dropTree with live := List.replicate Config.nodeCap false })
      (s.cnt.length ≠ Config.nsym) := by
  by_cases hl : s.cnt.length = Config.nsym
  · by_cases hpos : 0 < (leafSyms s.cnt).length
    · obtain ⟨p, t, hp, hb⟩ := buildBody_eq hl hpos
      rw [hb]
      exact ⟨hpos, hl, p, t, hp, rfl⟩
    · have hz : (seedPool s.cnt).node.length = 0 := by
        simp [seedPool]; rw [← List.length_eq_zero_iff, ← leafSyms_length]; omega
      have : buildBody s = raise .inputError 0 { s.dropTree with live := List.replicate Config.nodeCap false } := by
        simp only [buildBody, State.dropTree_cnt, ne_eq, hl, not_true_eq_false, if_false, hz, if_true]
      rw [this]
      exact ⟨List.length_eq_zero_iff.1 (by omega), rfl⟩
  · have : buildBody s = .stuck .unwrittenCell := by
      simp only [buildBody, State.dropTree_cnt, ne_eq, hl, not_false_eq_true, if_true]
    rw [this]
    exact hl

/-- The state CLR makes before it touches the ports (R175). -/
def cleared (s : State) : State := ({ s with cause := 0, finfo := 0 } : State).dropAll

theorem clrBody_ends (s : State) :
    (clrBody s).Ends
      (fun _ u => ∃ ei eo, u = { cleared s with
        inp := { s.inp with pos := 0, errors := ei }, out := { bits := [], errors := eo } })
      (Raises (fun c i => inFailure c i ∨ outFailure c i) fun u =>
        ∃ p ei eo, u = { cleared s with
          inp := { s.inp with pos := p, errors := ei }, out := { s.out with errors := eo } } ∧
          (s.inp.pos ≤ 8 * s.inp.bytes.length → p ≤ 8 * s.inp.bytes.length)) False := by
  rw [clrBody]
  refine Run.Ends.andThen ((inRewind_ends (cleared s)).mono (fun _ _ h => h) ?_ id) ?_
  · refine fun t h => h.mono (fun _ _ h => .inl h) fun u h => ⟨u.inp.pos, u.inp.errors, s.out.errors, ?_, h.2⟩
    conv => lhs; rw [h.1]
    rfl
  · rintro _ u ⟨hm, hp⟩
    have hu : u = { cleared s with inp := { s.inp with pos := 0, errors := u.inp.errors } } := by
      conv => lhs; rw [hm.1, hp]
      rfl
    rw [outReset]
    refine Run.Ends.andThen ((outAccess_ends u).mono (fun _ _ h => h) ?_ id) ?_
    · refine fun t h => h.mono (fun _ _ h => .inr h) ?_
      rintro v ⟨e, rfl⟩
      refine ⟨0, u.inp.errors, e, ?_, fun _ => by omega⟩
      rw [hu]; rfl
    · rintro _ v ⟨e, rfl⟩
      refine ⟨u.inp.errors, e, ?_⟩
      rw [hu]; rfl

end Sys2Proof.Machine
end

