-- ==== Sys2Proof/Laws/Exec.lean ====
section
/-! SUPPORT. The issue of a command (R170) in cases, and what the body of every command keeps: the edge of the
block, and the invariant of the structures (R34, R35, R38, R41). -/

namespace Sys2Proof.Machine

/-- R170: a command that is taken and enabled runs its body from `BUSY`. -/
theorem issue_ready {op : Byte} {en : State → Bool} {body : State → Run Unit} {s : State} (hr : s.run = .ready)
    (he : en s = true) : issue op en body s = complete (body { s with run := .busy }) := by
  simp [issue, hr, he]

/-- R173: without its flag the command is refused before anything else. -/
theorem issue_disabled {op : Byte} {en : State → Bool} {body : State → Run Unit} {s : State} (hr : s.run = .ready)
    (he : en s = false) : issue op en body s = .next (faultEntry .illegalCommand (op.zeroExtend 32) s) := by
  simp [issue, hr, he]

/-- R174: a command that is not taken changes nothing. -/
theorem issue_lost {op : Byte} {en : State → Bool} {body : State → Run Unit} {s : State} (hr : s.run ≠ .ready) :
    issue op en body s = .next s := by
  cases h : s.run <;> simp_all [issue]

theorem issueClr_taken {body : State → Run Unit} {s : State} (hr : s.run ≠ .busy) :
    issueClr body s = complete (body { s with run := .busy }) := by
  cases h : s.run <;> simp_all [issueClr]

/-- How a command's body that can end so leaves the block. -/
theorem complete_next {r : Run Unit} {P : Unit → State → Prop} {E : State → Prop} {S : Prop} {t : State}
    (hb : r.Ends P E S) (h : complete r = .next t) : (∃ u, P () u ∧ t = { u with run := .ready }) ∨ E t := by
  cases r with
  | done a s => simp only [complete, Host.Outcome.next.injEq] at h; exact .inl ⟨s, hb, h.symm⟩
  | ended s => simp only [complete, Host.Outcome.next.injEq] at h; exact .inr (h ▸ hb)
  | stuck f => simp [complete] at h

/-- A body that is never stuck ends in a next state. -/
theorem complete_total {r : Run Unit} {P : Unit → State → Prop} {E : State → Prop} (hb : r.Ends P E False) :
    ∃ t, complete r = .next t := by
  cases r with
  | done a s => exact ⟨_, rfl⟩
  | ended s => exact ⟨_, rfl⟩
  | stuck f => exact hb.elim

/-- The issue of a command in cases: not taken, refused for its flag, or run. -/
theorem issue_next {op : Byte} {en : State → Bool} {body : State → Run Unit} {s t : State}
    {P : Unit → State → Prop} {E : State → Prop} {S : Prop} (hb : (body { s with run := .busy }).Ends P E S)
    (h : issue op en body s = .next t) :
    (s.run ≠ .ready ∧ t = s) ∨
      (s.run = .ready ∧ en s = false ∧ t = faultEntry .illegalCommand (op.zeroExtend 32) s) ∨
      (s.run = .ready ∧ en s = true ∧ ((∃ u, P () u ∧ t = { u with run := .ready }) ∨ E t)) := by
  by_cases hr : s.run = .ready
  · cases he : en s
    · rw [issue_disabled hr he] at h
      exact .inr (.inl ⟨hr, rfl, (Host.Outcome.next.inj h).symm⟩)
    · rw [issue_ready hr he] at h
      exact .inr (.inr ⟨hr, rfl, complete_next hb h⟩)
  · rw [issue_lost hr] at h
    exact .inl ⟨hr, (Host.Outcome.next.inj h).symm⟩

/-- The invariant of the three structures (R34, R31 and R35, R38). -/
structure StructInv (s : State) : Prop where
  table : s.ftV = true → TableInv s
  tree : s.treeV = true → TreeInv s
  tab : s.tabV = true → TabInv s

/-- What the body of a command keeps of a state: everything at the block's edge, the mode it runs in, a clear
fault record, and the invariants. -/
structure Keeps (s u : State) : Prop where
  bytes : u.inp.bytes = s.inp.bytes
  params : u.params = s.params
  host : u.host = s.host
  readData : u.readData = s.readData
  openReads : u.openReads = s.openReads
  run : u.run = s.run
  record : s.cause = 0 ∧ s.finfo = 0 → u.cause = 0 ∧ u.finfo = 0
  inPos : s.inp.pos ≤ 8 * s.inp.bytes.length → u.inp.pos ≤ 8 * u.inp.bytes.length
  inv : countWidthWf s.params.countWidth = true → StructInv s → StructInv u

theorem Keeps.refl (s : State) : Keeps s s := ⟨rfl, rfl, rfl, rfl, rfl, rfl, id, id, fun _ h => h⟩

theorem Keeps.trans {s t u : State} (h1 : Keeps s t) (h2 : Keeps t u) : Keeps s u where
  bytes := h2.bytes.trans h1.bytes
  params := h2.params.trans h1.params
  host := h2.host.trans h1.host
  readData := h2.readData.trans h1.readData
  openReads := h2.openReads.trans h1.openReads
  run := h2.run.trans h1.run
  record := fun h => h2.record (h1.record h)
  inPos := fun h => h2.inPos (h1.inPos h)
  inv := fun hw h => h2.inv (by rwa [h1.params]) (h1.inv hw h)

theorem IOMoved.keeps {s u : State} (h : IOMoved s u) : Keeps s u := by
  obtain ⟨⟨p, ei, bits, eo, rfl⟩, hp⟩ := h
  exact ⟨rfl, rfl, rfl, rfl, rfl, rfl, id, hp, fun _ h => ⟨h.table, h.tree, h.tab⟩⟩

theorem InMoved.keeps {s u : State} (h : InMoved s u) : Keeps s u := h.io.keeps
theorem OutMoved.keeps {s u : State} (h : OutMoved s u) : Keeps s u := h.io.keeps

theorem keeps_dropTab (s : State) : Keeps s s.dropTab :=
  ⟨rfl, rfl, rfl, rfl, rfl, rfl, id, id, fun _ h => ⟨h.table, h.tree, fun h => by simp at h⟩⟩

theorem keeps_dropTree (s : State) : Keeps s s.dropTree :=
  ⟨rfl, rfl, rfl, rfl, rfl, rfl, id, id,
    fun _ h => ⟨h.table, fun h => by simp at h, fun h => by simp at h⟩⟩

theorem keeps_dropAll (s : State) : Keeps s s.dropAll :=
  ⟨rfl, rfl, rfl, rfl, rfl, rfl, id, id,
    fun _ _ => ⟨fun h => by simp at h, fun h => by simp at h, fun h => by simp at h⟩⟩

/-- `LIVE` matters to no invariant (R37). -/
theorem keeps_live (s : State) (l : List Bool) : Keeps s { s with live := l } :=
  ⟨rfl, rfl, rfl, rfl, rfl, rfl, id, id, fun _ h => ⟨h.table, h.tree, h.tab⟩⟩

/-- A source counted to its end has counts that fit (R113). -/
theorem room_of_fits {p : Params} (bs : List Byte) (cnt : List Nat) (hl : cnt.length = Config.nsym)
    (h : fits p cnt bs) : ∀ b ∈ bs, ∀ n ∈ p.countWidth, cnt.getD b.toNat 0 + bs.count b ≤ 2 ^ n - 1 := by
  induction bs generalizing cnt with
  | nil => simp
  | cons b bs ih =>
    have ih := ih (bump cnt b) (by rwa [bump_length]) h.2
    have hb : b.toNat < cnt.length := by rw [hl]; have := b.isLt; simp [Config.nsym]; omega
    have hself : (bump cnt b).getD b.toNat 0 = cnt.getD b.toNat 0 + 1 := by
      simp [bump, List.getD_eq_getElem?_getD, List.getElem?_set_self hb]
    intro x hx n hn
    by_cases hxb : x = b
    · subst hxb
      rw [List.count_cons_self]
      by_cases hm : x ∈ bs
      · have := ih x hm n hn
        rw [hself] at this; omega
      · have hf := h.1
        rw [Bool.eq_false_iff, Ne, countFull_iff] at hf
        have : ¬ 2 ^ n - 1 ≤ cnt.getD x.toNat 0 := fun hle => hf ⟨n, hn, hle⟩
        rw [List.count_eq_zero_of_not_mem hm]; omega
    · have hm : x ∈ bs := by simpa [hxb] using hx
      have := ih x hm n hn
      have hne : b.toNat ≠ x.toNat := fun e => hxb (BitVec.eq_of_toNat_eq e.symm)
      rw [List.count_cons_of_ne (Ne.symm hxb)]
      simpa [bump, List.getD_eq_getElem?_getD, List.getElem?_set_ne hne] using this

theorem countsFit_of_fits {p : Params} {bs : List Byte} (h : fits p (List.replicate Config.nsym 0) bs) :
    countsFit p bs := by
  intro b hb n hn
  have := room_of_fits bs _ (by simp) h b hb n hn
  exact le_trans (Nat.le_add_left _ _) this

theorem countTable_length (src : List Byte) : (countTable src).length = Config.nsym := by
  rw [← foldl_bump_table, List.length_set, foldl_bump_length, List.length_replicate]

theorem countTable_eos (src : List Byte) : (countTable src)[Config.eos]? = some 1 := by
  rw [countTable, List.getElem?_append_right (by simp)]; simp

/-- R112: the count of a byte value. -/
theorem countTable_byte (src : List Byte) (b : Byte) : (countTable src)[b.toNat]? = some (src.count b) := by
  have hb := b.isLt
  have he : Config.eos = 256 := rfl
  rw [countTable, List.getElem?_append_left (by rw [List.length_map, List.length_range]; omega),
    List.getElem?_map, List.getElem?_range (by omega)]
  simp [byteCount]

/-- R34: the table COUNT leaves. -/
theorem countTable_inv {s : State} {src : List Byte} (hw : countWidthWf s.params.countWidth = true)
    (hc : s.cnt = countTable src) (hf : countsFit s.params src) : TableInv s := by
  refine ⟨by rw [hc, countTable_length], by rw [hc, countTable_eos], ?_⟩
  rw [hc]
  intro c hm n hn
  simp only [countTable, List.mem_append, List.mem_map, List.mem_range, List.mem_singleton] at hm
  rcases hm with ⟨b, -, rfl⟩ | rfl
  · by_cases hb : BitVec.ofNat 8 b ∈ src
    · exact hf _ hb n hn
    · simp [byteCount, List.count_eq_zero_of_not_mem hb]
  · rw [Option.mem_def] at hn
    simp only [hn, countWidthWf, decide_eq_true_eq] at hw
    have : 2 ^ 1 ≤ 2 ^ n := Nat.pow_le_pow_right (by omega) hw
    omega

/-- R34: a table with its invariant has an entry, the sentinel's. -/
theorem leafSyms_pos {cnt : List Nat} (h : cnt[Config.eos]? = some 1) : 0 < (leafSyms cnt).length := by
  rw [leafSyms_length]
  exact List.length_pos_of_mem (tableEntries_mem.2 ⟨by decide, Nat.zero_le _, by simpa using h⟩ : (Config.eos, 1) ∈ _)

/-- R35, R137: the tree DESTREE leaves. -/
theorem preorder_inv {s : State} {t : CodeTree} (hw : t.wf = true) (hn : s.node = preorderCells 0 t) (hr : s.root = 0)
    (hk : s.nnodes = BitVec.ofNat 10 t.nodes) : s.tree = some t ∧ TreeInv s := by
  have hle := CodeTree.wf_nodes hw
  have hcap : Config.nodeCap = 513 := rfl
  have ht : s.tree = some t := by rw [State.tree, hn, hr]; exact preorder_treeAt hle
  have hkn : s.nnodes.toNat = t.nodes := by rw [hk]; simp; omega
  refine ⟨ht, t, ht, hw, hkn.symm, by rw [hn, preorderCells_length, hkn], ?_⟩
  rw [hkn, hn, hr]
  exact List.Perm.of_eq (preorder_visited hle)

/-- R35, R125: the tree BUILD leaves. -/
theorem pool_inv {s : State} {cnt : List Nat} {p : Pool} {t : CodeTree} (hl : cnt.length = Config.nsym)
    (hp : PoolInv cnt (leafSyms cnt) p [(p.node.length - 1, t)]) (hn : s.node = p.node)
    (hr : s.root = BitVec.ofNat 10 (p.node.length - 1)) (hk : s.nnodes = BitVec.ofNat 10 p.node.length) :
    s.tree = some t ∧ TreeInv s := by
  obtain ⟨hw, hnodes, -, -, htree, hvis⟩ := pool_tree hl hp
  have hle := CodeTree.wf_nodes hw
  have hcap : Config.nodeCap = 513 := rfl
  have hrn : s.root.toNat = p.node.length - 1 := by rw [hr]; simp; omega
  have hkn : s.nnodes.toNat = p.node.length := by rw [hk]; simp; omega
  have ht : s.tree = some t := by rw [State.tree, hn, hrn]; exact htree
  exact ⟨ht, t, ht, hw, by omega, by rw [hn, hkn], by rw [hkn, hn, hrn]; exact hvis⟩

/-- Any fault's state. -/
abbrev AnyFault (s : State) : State → Prop := Raises (fun _ _ => True) (Keeps s)

theorem countBody_keeps (s : State) : (countBody s).Ends (fun _ u => Keeps s u) (AnyFault s) False := by
  refine (countBody_ends s).mono ?_ (fun t h => h.mono (fun _ _ _ => trivial)
    fun u h => (keeps_dropAll s).trans h.keeps) id
  rintro _ u ⟨e, rfl, hf⟩
  exact ⟨rfl, rfl, rfl, rfl, rfl, rfl, id, fun _ => le_refl _, fun hw _ =>
    ⟨fun _ => countTable_inv hw rfl (countsFit_of_fits hf), fun h => by simp at h, fun h => by simp at h⟩⟩

theorem buildBody_keeps (s : State) :
    (buildBody s).Ends (fun _ u => Keeps s u) (AnyFault s) (s.cnt.length ≠ Config.nsym) := by
  refine (buildBody_ends s).mono ?_ ?_ id
  · rintro _ u ⟨-, hl, p, t, hp, rfl⟩
    exact ⟨rfl, rfl, rfl, rfl, rfl, rfl, id, id, fun _ h =>
      ⟨h.table, fun _ => (pool_inv hl hp rfl rfl rfl).2, fun h => by simp at h⟩⟩
  · rintro t ⟨-, rfl⟩
    exact ⟨_, _, _, trivial, (keeps_dropTree s).trans (keeps_live _ _), rfl⟩

theorem destreeBody_keeps (s : State) : (destreeBody s).Ends (fun _ u => Keeps s u) (AnyFault s) False := by
  refine (destreeBody_ends s).mono ?_ (fun t h => h.mono (fun _ _ _ => trivial)
    fun u h => (keeps_dropTree s).trans h.keeps) id
  rintro _ u ⟨t, hw, inp, hm, -, rfl⟩
  have hb : inp.bytes = s.inp.bytes := hm.keeps.bytes
  exact ⟨hb, rfl, rfl, rfl, rfl, rfl, id, hm.keeps.inPos, fun _ h =>
    ⟨h.table, fun _ => (preorder_inv hw rfl rfl rfl).2, fun h => by simp at h⟩⟩

theorem mktableBody_keeps (s : State) :
    (mktableBody s).Ends (fun _ u => s.treeV = true → Keeps s u) (AnyFault s) (s.tree = none) := by
  refine (mktableBody_ends s).mono ?_ (fun _ h => h.elim) id
  rintro _ u ⟨t, ht, rfl⟩ hv
  refine ⟨rfl, rfl, rfl, rfl, rfl, rfl, id, id, fun _ h => ⟨h.table, h.tree, fun _ => ⟨hv, ?_⟩⟩⟩
  intro t' ht'
  rw [show s.tree = some t' from ht'] at ht
  simp only [Option.some.injEq] at ht
  rw [ht]

theorem clrBody_keeps (s : State) : (clrBody s).Ends (fun _ u => Keeps s u ∧ u.cause = 0 ∧ u.finfo = 0)
    (AnyFault s) False := by
  refine (clrBody_ends s).mono ?_ ?_ id
  · rintro _ u ⟨ei, eo, rfl⟩
    exact ⟨⟨rfl, rfl, rfl, rfl, rfl, rfl, fun _ => ⟨rfl, rfl⟩, fun _ => Nat.zero_le _, fun _ _ =>
      ⟨fun h => by simp [cleared] at h, fun h => by simp [cleared] at h, fun h => by simp [cleared] at h⟩⟩, rfl, rfl⟩
  · rintro t ⟨c, i, u, -, ⟨p, ei, eo, rfl, hp⟩, rfl⟩
    have hk : Keeps s { cleared s with
        inp := { s.inp with pos := p, errors := ei }, out := { s.out with errors := eo } } :=
      ⟨rfl, rfl, rfl, rfl, rfl, rfl, fun _ => ⟨rfl, rfl⟩, hp, fun _ _ =>
        ⟨fun h => by simp [cleared] at h, fun h => by simp [cleared] at h, fun h => by simp [cleared] at h⟩⟩
    exact ⟨c, i, _, trivial, hk, rfl⟩

end Sys2Proof.Machine
end

