-- ==== Sys2Proof/Laws/Composite.lean ====
section
/-! SUPPORT. ENCODE and DECODE (R177, R178): which symbols of a table have codes, how the two bodies can end under
every answer of the environment, and what they do on quiet ports. -/

namespace Sys2Proof.Machine

/-- R36: the symbols of a table as leaf symbols. -/
theorem mem_leafSyms {cnt : List Nat} (hl : cnt.length = Config.nsym) (sym : Sym) :
    sym ∈ leafSyms cnt ↔ ∃ c, cnt[sym.toNat]? = some c ∧ c ≠ 0 := by
  simp only [leafSyms, tableSyms, List.mem_map]
  constructor
  · rintro ⟨_, ⟨⟨s, c⟩, he, rfl⟩, rfl⟩
    obtain ⟨h1, -, h3⟩ := tableEntries_mem.1 he
    have hlt := (List.getElem?_eq_some_iff.1 h3).1
    have hs : (BitVec.ofNat 9 s).toNat = s := by simp [hl, Config.nsym] at hlt ⊢; omega
    exact ⟨c, by rw [hs]; simpa using h3, h1⟩
  · rintro ⟨c, h, hc⟩
    refine ⟨sym.toNat, ⟨(sym.toNat, c), tableEntries_mem.2 ⟨hc, Nat.zero_le _, by simpa using h⟩, rfl⟩, ?_⟩
    exact BitVec.eq_of_toNat_eq (by simp)

theorem leafSyms_nodup {cnt : List Nat} (hl : cnt.length = Config.nsym) : (leafSyms cnt).Nodup := by
  have hsym : Config.nsym = 257 := rfl
  have hs := tableEntries_sorted 0 cnt
  have hb : ∀ e ∈ tableEntries 0 cnt, e.1 < 257 := by
    rintro ⟨a, c⟩ ha
    have := (List.getElem?_eq_some_iff.1 (tableEntries_mem.1 ha).2.2).1
    simp at this ⊢; omega
  rw [leafSyms, tableSyms, List.Nodup, List.pairwise_map, List.pairwise_map]
  refine hs.imp_of_mem ?_
  intro a b ha hb' hab he
  have h1 := hb a ha
  have h2 := hb b hb'
  have := congrArg BitVec.toNat he
  simp at this; omega

/-- R154: a tree of a source's counts has a leaf for each byte of the source and for the sentinel. -/
theorem source_leaves {src : List Byte} {t : CodeTree} (h : t.leaves.Perm (leafSyms (countTable src))) :
    (256 : Sym) ∈ t.leaves ∧ ∀ b ∈ src, symOfByte b ∈ t.leaves := by
  have hl := countTable_length src
  refine ⟨h.mem_iff.2 ((mem_leafSyms hl _).2 ⟨1, countTable_eos src, by omega⟩), fun b hb =>
    h.mem_iff.2 ((mem_leafSyms hl _).2 ⟨src.count b, ?_, ?_⟩)⟩
  · have hs : (symOfByte b).toNat = b.toNat := by
      have := b.isLt
      simp [symOfByte]; omega
    rw [hs, countTable_byte]
  · have := List.count_pos_iff.2 hb; omega

theorem symOfByte_toNat (b : Byte) : (symOfByte b).toNat = b.toNat := by
  have := b.isLt
  simp [symOfByte]; omega

/-- A leaf's symbol has a valid cell (R142). -/
theorem codeTable_valid {t : CodeTree} {sym : Sym} (hs : sym.toNat < Config.nsym) (h : sym ∈ t.leaves) :
    (codeTable t)[sym.toNat]? ≠ some none := by
  rw [codeTable_getElem? t sym hs]
  obtain ⟨p, hp⟩ := Option.isSome_iff_exists.1 (lastPath_isSome.2 h)
  simp [hp]

theorem codesOf_some {t : CodeTree} (hw : t.wf = true) {src : List Byte} (h : ∀ b ∈ src, symOfByte b ∈ t.leaves) :
    ∃ ws, codesOf (codeTable t) src = some ws := by
  induction src with
  | nil => exact ⟨[], rfl⟩
  | cons b bs ih =>
    obtain ⟨ws, hws⟩ := ih fun x hx => h x (List.mem_cons_of_mem _ hx)
    obtain ⟨p, hp⟩ := Option.isSome_iff_exists.1 (lastPath_isSome.2 (h b (by simp)))
    have hlt : (symOfByte b).toNat < Config.nsym := by
      rw [symOfByte_toNat]; exact lt_of_lt_of_le b.isLt (by decide)
    have hc := codeWord_codeTable hw (symOfByte b) hlt
    rw [symOfByte_toNat, hp] at hc
    exact ⟨p ++ ws, by simp [codesOf, hc, hws]⟩

/-- R88: a source has a payload in the table of a tree with all its symbols. -/
theorem payload_some {t : CodeTree} (hw : t.wf = true) {src : List Byte} (he : (256 : Sym) ∈ t.leaves)
    (h : ∀ b ∈ src, symOfByte b ∈ t.leaves) : ∃ p, payload (codeTable t) src = some p := by
  obtain ⟨ws, hws⟩ := codesOf_some hw h
  obtain ⟨p, hp⟩ := Option.isSome_iff_exists.1 (lastPath_isSome.2 he)
  have hc : codeWord (codeTable t) Config.eos = some p := by
    rw [show Config.eos = (256 : Sym).toNat from rfl, codeWord_codeTable hw 256 (by decide), hp]
  exact ⟨ws ++ p, by simp [payload, hws, hc]⟩

/-- The faults ENCODE can raise (R177, R188). -/
def encodeFaults (c : Cause) (i : Word) : Prop :=
  inFailure c i ∨ outFailure c i ∨ (c = .countOverflow ∧ ∃ b : Byte, i = BitVec.ofNat 32 b.toNat)

/-- The normal end of ENCODE or DECODE: the flags as given, the fault record clear. -/
structure Finished (s : State) (ft tree tab : Bool) (u : State) : Prop where
  keeps : Keeps s u
  ftV : u.ftV = ft
  treeV : u.treeV = tree
  tabV : u.tabV = tab
  cause : u.cause = 0
  finfo : u.finfo = 0

/-- ENCODE under every answer of the environment: it is never stuck, and beside port failures only the count
can overflow (R177). -/
theorem encodeBody_ends (s : State) :
    (encodeBody s).Ends (fun _ u => Finished s true true true u) (Raises encodeFaults (Keeps s)) False := by
  have e1 : ∀ c i, inFailure c i ∨ outFailure c i → encodeFaults c i := fun c i h => h.elim .inl fun h => .inr (.inl h)
  have e2 : ∀ c i, countFaults c i → encodeFaults c i := fun c i h => h.elim .inl fun h => .inr (.inr h)
  have e3 : ∀ c i, outFailure c i → encodeFaults c i := fun c i h => .inr (.inl h)
  rw [encodeBody]
  -- CLR
  have hclr := (clrBody_ends s).mono (Q := fun _ u => Keeps s u ∧ u.cause = 0 ∧ u.finfo = 0)
    (F := Raises encodeFaults (Keeps s)) (T := False) ?_ ?_ id
  rotate_left
  · rintro _ u ⟨ei, eo, rfl⟩
    exact ⟨⟨rfl, rfl, rfl, rfl, rfl, rfl, fun _ => ⟨rfl, rfl⟩, fun _ => Nat.zero_le _, fun _ _ =>
      ⟨fun h => by simp [cleared] at h, fun h => by simp [cleared] at h, fun h => by simp [cleared] at h⟩⟩, rfl, rfl⟩
  · refine fun t h => h.mono e1 ?_
    rintro u ⟨p, ei, eo, rfl, hp⟩
    exact ⟨rfl, rfl, rfl, rfl, rfl, rfl, fun _ => ⟨rfl, rfl⟩, hp, fun _ _ =>
        ⟨fun h => by simp [cleared] at h, fun h => by simp [cleared] at h, fun h => by simp [cleared] at h⟩⟩
  refine Run.Ends.andThen hclr ?_
  rintro _ u1 ⟨k1, hc1, hi1⟩
  -- COUNT
  refine Run.Ends.andThen (P := fun _ u => ∃ e, u = { u1.dropAll with
      cnt := countTable u1.inp.bytes, ftV := true
      inp := { u1.inp with pos := 8 * u1.inp.bytes.length, errors := e } } ∧ Keeps s u) ?_ ?_
  · have hk := countBody_keeps u1
    have he := countBody_ends u1
    cases hr : countBody u1 with
    | done a u =>
      rw [hr] at hk he
      obtain ⟨e, rfl, -⟩ := he
      exact ⟨e, rfl, k1.trans hk⟩
    | ended u =>
      rw [hr] at he
      exact Raises.mono he e2 fun v hv => k1.trans ((keeps_dropAll u1).trans hv.keeps)
    | stuck f => rw [hr] at he; exact he
  rintro _ u2 ⟨e2', hu2, k2⟩
  have hcnt : u2.cnt = countTable u1.inp.bytes := by rw [hu2]
  have hl : u2.cnt.length = Config.nsym := by rw [hcnt, countTable_length]
  -- BUILD
  have hk := buildBody_keeps u2
  have he := buildBody_ends u2
  cases hr : buildBody u2 with
  | stuck f => rw [hr] at he; exact absurd hl he
  | ended u =>
    rw [hr] at he
    have := leafSyms_pos (countTable_eos u1.inp.bytes)
    rw [← hcnt, he.1] at this
    simp at this
  | done a u3 =>
  rw [hr] at hk he
  obtain ⟨-, -, p, t, hp, hu3⟩ := he
  have k3 : Keeps s u3 := k2.trans hk
  obtain ⟨hwf, -, -, hperm, -, -⟩ := pool_tree hl hp
  have htree : u3.tree = some t := by rw [hu3]; exact (pool_inv hl hp rfl rfl rfl).1
  have hflags : u3.ftV = true ∧ u3.treeV = true := by rw [hu3, hu2]; exact ⟨rfl, rfl⟩
  rw [hcnt] at hperm
  obtain ⟨hm256, hmsrc⟩ := source_leaves hperm
  have hbytes : u3.inp.bytes = u1.inp.bytes := by rw [k3.bytes, k1.bytes]
  rw [andThen_done]
  -- WRMAGIC and SERTREE
  refine Run.Ends.andThen ((wrmagicBody_ends u3).mono (fun _ _ h => h)
    (fun t h => h.mono e3 fun u h => k3.trans h.keeps) id) ?_
  rintro _ u4 ⟨o4, hu4⟩
  have m4 : OutMoved u3 u4 := ⟨_, _, hu4⟩
  have htree4 : u4.tree = some t := by rw [hu4]; exact htree
  refine Run.Ends.andThen ((sertreeBody_ends u4).mono (fun _ _ h => h)
    (fun t h => h.mono e3 fun u h => (k3.trans m4.keeps).trans h.keeps) (by rw [htree4]; simp)) ?_
  rintro _ u5 ⟨t', o5, ht', hu5⟩
  rw [htree4] at ht'
  simp only [Option.some.injEq] at ht'
  subst ht'
  have m5 : OutMoved u4 u5 := ⟨_, _, hu5⟩
  have k5 := (k3.trans m4.keeps).trans m5.keeps
  have htree5 : u5.tree = some t := by rw [hu5]; exact htree4
  have hflags5 : u5.ftV = true ∧ u5.treeV = true := by rw [hu5, hu4]; exact hflags
  -- MKTABLE
  have hmk : mktableBody u5 = .done () { u5 with ct := codeTable t, tabV := true } := by
    simp only [mktableBody, dropTab_tree, htree5]; rfl
  have k6 : Keeps s { u5 with ct := codeTable t, tabV := true } := by
    have := mktableBody_keeps u5
    rw [hmk] at this
    exact k5.trans (this hflags5.2)
  rw [hmk, andThen_done]
  -- ENCPAY
  refine (encpayBody_ends _).mono ?_ ?_ (fun h => h (codeTable_length t))
  · rintro _ u7 ⟨hm, -⟩
    have hr7 := (k6.trans hm.keeps)
    have hrec : u7.cause = 0 ∧ u7.finfo = 0 := by
      obtain ⟨⟨_, _, _, _, rfl⟩, -⟩ := hm
      rw [hu5, hu4, hu3, hu2]
      exact ⟨hc1, hi1⟩
    refine ⟨hr7, ?_, ?_, ?_, hrec.1, hrec.2⟩ <;> obtain ⟨⟨_, _, _, _, rfl⟩, -⟩ := hm
    · exact hflags5.1
    · exact hflags5.2
    · rfl
  · rintro u ⟨c, i, v, hf, hm, rfl⟩
    refine ⟨c, i, v, ?_, k6.trans hm.keeps, rfl⟩
    rcases hf with h | h | ⟨-, sym, -, hnone, hsym⟩
    · exact .inl h
    · exact .inr (.inl h)
    · exfalso
      rcases hsym with rfl | ⟨b, hb, rfl⟩
      · exact codeTable_valid (t := t) (sym := 256) (by decide) hm256 hnone
      · have hb' : b ∈ u1.inp.bytes := by
          have : u5.inp.bytes = u1.inp.bytes := by rw [hu5, hu4]; exact hbytes
          rw [← this]; exact hb
        have hlt : (symOfByte b).toNat < Config.nsym := by
          rw [symOfByte_toNat]; exact lt_of_lt_of_le b.isLt (by decide)
        have := codeTable_valid hlt (hmsrc b hb')
        rw [symOfByte_toNat] at this
        exact this hnone

/-- The faults DECODE can raise (R178, R188). -/
def decodeFaults (c : Cause) (i : Word) : Prop :=
  inFailure c i ∨ outFailure c i ∨ rdmagicFaults c i ∨ destreeFaults c i ∨ decpayFaults c i

/-- DECODE under every answer of the environment: it is never stuck (R178). -/
theorem decodeBody_ends (s : State) :
    (decodeBody s).Ends (fun _ u => Finished s false true false u) (Raises decodeFaults (Keeps s)) False := by
  rw [decodeBody]
  have hclr := (clrBody_ends s).mono
    (Q := fun _ u => Keeps s u ∧ u.cause = 0 ∧ u.finfo = 0 ∧ u.ftV = false)
    (F := Raises decodeFaults (Keeps s)) (T := False) ?_ ?_ id
  rotate_left
  · rintro _ u ⟨ei, eo, rfl⟩
    exact ⟨⟨rfl, rfl, rfl, rfl, rfl, rfl, fun _ => ⟨rfl, rfl⟩, fun _ => Nat.zero_le _, fun _ _ =>
      ⟨fun h => by simp [cleared] at h, fun h => by simp [cleared] at h, fun h => by simp [cleared] at h⟩⟩,
      rfl, rfl, rfl⟩
  · refine fun t h => h.mono (fun c i h => h.elim .inl fun h => .inr (.inl h)) ?_
    rintro u ⟨p, ei, eo, rfl, hp⟩
    exact ⟨rfl, rfl, rfl, rfl, rfl, rfl, fun _ => ⟨rfl, rfl⟩, hp, fun _ _ =>
        ⟨fun h => by simp [cleared] at h, fun h => by simp [cleared] at h, fun h => by simp [cleared] at h⟩⟩
  refine Run.Ends.andThen hclr ?_
  rintro _ u1 ⟨k1, hc1, hi1, hf1⟩
  refine Run.Ends.andThen ((rdmagicBody_ends u1).mono (fun _ _ h => h)
    (fun t h => h.mono (fun _ _ h => .inr (.inr (.inl h))) fun u h => k1.trans h.keeps) id) ?_
  rintro _ u2 ⟨hm2, -⟩
  have k2 := k1.trans hm2.keeps
  have hc2 : u2.cause = 0 ∧ u2.finfo = 0 ∧ u2.ftV = false := by rw [hm2.1]; exact ⟨hc1, hi1, hf1⟩
  have hk := destreeBody_keeps u2
  have he := destreeBody_ends u2
  cases hr : destreeBody u2 with
  | stuck f => rw [hr] at he; exact he
  | ended u =>
    rw [hr] at he
    exact Raises.mono he (fun _ _ h => .inr (.inr (.inr (.inl h))))
      fun v hv => k2.trans ((keeps_dropTree u2).trans hv.keeps)
  | done a u3 =>
  rw [hr] at hk he
  obtain ⟨t, hw, inp, -, -, hu3⟩ := he
  have k3 : Keeps s u3 := k2.trans hk
  have htree : u3.tree = some t := by rw [hu3]; exact (preorder_inv hw rfl rfl rfl).1
  rw [andThen_done]
  refine (decpayBody_ends u3).mono ?_ (fun t h => h.mono (fun _ _ h => .inr (.inr (.inr (.inr h))))
    fun u h => k3.trans h.keeps) (by rw [htree]; simp)
  rintro _ u4 ⟨hm, -⟩
  have k4 := k3.trans hm.keeps
  refine ⟨k4, ?_, ?_, ?_, ?_, ?_⟩ <;> obtain ⟨⟨_, _, _, _, rfl⟩, -⟩ := hm <;> rw [hu3]
  · exact hc2.2.2
  · rfl
  · exact hc2.1
  · exact hc2.2.1

end Sys2Proof.Machine
end

