-- ==== Sys2Proof/Laws/Failing.lean ====
section
/-! SUPPORT. The loops of COUNT, ENCPAY, DECPAY and DESTREE up to a port access that fails (R55, R193): what is
granted before it goes through, and the failing access ends the run. -/

namespace Sys2Proof.Machine

/-- A pass of a byte loop, an `InMore` and eight `InBit`s, that fails at its `m`-th access; at the end of the
input a pass has no other access than `InMore`. -/
theorem bytePass_error {α} {s : State} {j m : Nat} {rest : List Bool} (k : Option Nat → State → Run α)
    (e : State → Run α) (hp : s.inp.pos = 8 * j)
    (hm : (j < s.inp.bytes.length ∧ m ≤ 8) ∨ (j = s.inp.bytes.length ∧ m = 0))
    (he : s.inp.errors = List.replicate m false ++ true :: rest) :
    ((inMore s).andThen fun more s => if more then (inBits 8 s).andThen k else e s) =
      raise .ioFailure 0 { s with inp := { s.inp with pos := s.inp.pos + (m - 1), errors := rest } } := by
  cases m with
  | zero =>
    rw [inMore_error (rest := rest) (by simpa using he)]
    rfl
  | succ m =>
    obtain ⟨hj, hm⟩ : j < s.inp.bytes.length ∧ m + 1 ≤ 8 := by omega
    simp only [List.replicate_succ, List.cons_append] at he
    rw [inMore_granted (by simp [he]), andThen_done, if_pos (by simp; omega),
      inBits_error (j := m) (rest := rest) (by omega) (by rw [inRest_length]; simp; omega) (by simp [he])]
    rfl

/-- COUNT's loop on a pass that fails. -/
theorem countLoop_error {n j m : Nat} {cnt : List Nat} {s : State} {rest : List Bool} (hp : s.inp.pos = 8 * j)
    (hm : (j < s.inp.bytes.length ∧ m ≤ 8) ∨ (j = s.inp.bytes.length ∧ m = 0))
    (he : s.inp.errors = List.replicate m false ++ true :: rest) :
    countLoop (n + 1) cnt s =
      raise .ioFailure 0 { s with inp := { s.inp with pos := s.inp.pos + (m - 1), errors := rest } } :=
  bytePass_error _ _ hp hm he

/-- ENCPAY's loop on a pass whose read fails. -/
theorem encLoop_error {n j m : Nat} {s : State} {rest : List Bool} (hp : s.inp.pos = 8 * j)
    (hm : (j < s.inp.bytes.length ∧ m ≤ 8) ∨ (j = s.inp.bytes.length ∧ m = 0))
    (he : s.inp.errors = List.replicate m false ++ true :: rest) :
    encLoop (n + 1) s =
      raise .ioFailure 0 { s with inp := { s.inp with pos := s.inp.pos + (m - 1), errors := rest } } :=
  bytePass_error _ _ hp hm he

/-- ENCPAY's loop on a byte whose code word fails to be written whole. -/
theorem encLoop_outError {n k j : Nat} {s : State} {b : Byte} {bs : List Byte} {w rest : List Bool}
    (h : quiet (s.inp.errors.take 9)) (hp : s.inp.pos = 8 * k) (hb : s.inp.bytes.drop k = b :: bs)
    (hw : codeWord s.ct b.toNat = some w) (hj : j < w.length)
    (he : s.out.errors = List.replicate j false ++ true :: rest) :
    encLoop (n + 1) s = raise .ioFailure 1
      { s.afterBytes 1 with out := { bits := s.out.bits ++ w.take j, errors := rest } } := by
  have hk := length_of_drop hb
  obtain ⟨h1, h8⟩ := quiet_take_add (j := 1) (k := 8).1 h
  rw [encLoop, inMore_granted h1, andThen_done, if_pos (by simp; omega),
    inBits_byte_granted (s := s.withInErrors (s.inp.errors.drop 1)) h8 hp hb]
  simp only [andThen_done]
  rw [putCode_word (by exact hw), outString_error hj (by exact he)]
  simp [State.afterBytes, State.advanceIn, State.withInErrors]

/-- DECPAY's loop along bits that end in the middle of a code word: it comes to another internal node, where
the walk on any further bits goes on (R163). -/
theorem decLoop_walked {a b l r : CodeTree} {used more : List Bool} {bytes : List Byte} {n : Nat} {s : State}
    (hw : walkBits (.node a b) (.node l r) used = (bytes, none)) (hr : s.inRest = used ++ more)
    (hi : quiet (s.inp.errors.take used.length)) (ho : quiet (s.out.errors.take (8 * bytes.length)))
    (hn : 2 * used.length < n) :
    ∃ m l' r', n ≤ m + 2 * used.length ∧
      decLoop n (.node a b) (.node l r) s =
        decLoop m (.node a b) (.node l' r') ((s.advanceIn used.length).appendOut (unpack bytes)) ∧
      ∀ xs, walkBits (.node a b) (.node l r) (used ++ xs) =
        (bytes ++ (walkBits (.node a b) (.node l' r') xs).1, (walkBits (.node a b) (.node l' r') xs).2) := by
  induction used generalizing l r bytes n s with
  | nil =>
    simp only [walkBits, Prod.mk.injEq] at hw
    obtain ⟨rfl, -⟩ := hw
    exact ⟨n, l, r, by simp, by simp [unpack, State.advanceIn, State.appendOut], fun xs => rfl⟩
  | cons x used ih =>
    obtain ⟨n, rfl⟩ : ∃ k, n = k + 1 := ⟨n - 1, by omega⟩
    rw [List.length_cons, Nat.add_comm, quiet_take_add] at hi
    rw [List.length_cons] at hn
    have hr1 : (s.advanceIn 1).inRest = used ++ more := by rw [inRest_advance, hr]; rfl
    have hstep : decLoop (n + 1) (.node a b) (.node l r) s =
        decLoop n (.node a b) (if x then r else l) (s.advanceIn 1) := by
      rw [decLoop, inBit_granted_cons hi.1 hr, andThen_done]
    simp only [walkBits, List.cons_append] at hw ⊢
    cases hc : (if x then r else l) with
    | node l' r' =>
      simp only [hc] at hw ⊢
      obtain ⟨m, l2, r2, h1, h2, h3⟩ := ih (s := s.advanceIn 1) (n := n) hw hr1 hi.2 ho (by omega)
      refine ⟨m, l2, r2, by rw [List.length_cons]; omega, ?_, h3⟩
      rw [hstep, hc, h2, advanceIn_advanceIn, List.length_cons, Nat.add_comm]
    | leaf sym =>
      simp only [hc] at hw ⊢
      by_cases hsym : sym.toNat = Config.eos
      · rw [if_pos hsym] at hw; simp at hw
      · rw [if_neg hsym] at hw
        simp only [if_neg hsym]
        obtain ⟨n, rfl⟩ : ∃ k, n = k + 1 := ⟨n - 1, by omega⟩
        obtain ⟨rfl, hw2⟩ := Prod.mk.inj hw
        generalize hbs : (walkBits (.node a b) (.node a b) used).1 = bs at ho ⊢
        rw [List.length_cons, Nat.mul_add, Nat.add_comm, quiet_take_add] at ho
        have hcons : unpack (sym.truncate 8 :: bs) = bitsOf 8 sym.toNat ++ unpack bs := by
          rw [outBits_byte]; simp [unpack]
        obtain ⟨m, l2, r2, h1, h2, h3⟩ := ih (s := (s.advanceIn 1).appendOut (bitsOf 8 sym.toNat)) (n := n)
          (l := a) (r := b) (bytes := bs) (Prod.ext hbs hw2) hr1 hi.2 (by simpa using ho.2) (by omega)
        refine ⟨m, l2, r2, by rw [List.length_cons]; omega, ?_, fun xs => by rw [h3]; rfl⟩
        rw [hstep, hc, decLoop, if_neg hsym, outBits, outString_granted (by simpa using ho.1), andThen_done, h2, hcons]
        congr 1
        simp [State.advanceIn, State.appendOut, List.drop_drop, Nat.add_assoc, Nat.add_comm 1]

/-- DESTREE's recursion reads a tree field whose accesses are granted (R87, R134). -/
theorem desNode_granted {t : CodeTree} {more : List Bool} {d n : Nat} {s : State} (hs : t.symsOk = true)
    (hn : n + t.nodes ≤ Config.nodeCap) (hd : t.height < d) (hr : s.inRest = ser t ++ more)
    (h : quiet (s.inp.errors.take (ser t).length)) :
    desNode d n s = .done (t, n + t.nodes) (s.advanceIn (ser t).length) := by
  induction t generalizing more d n s with
  | leaf sym =>
    obtain ⟨d, rfl⟩ : ∃ k, d = k + 1 := ⟨d - 1, by omega⟩
    rw [CodeTree.symsOk_leaf] at hs
    simp only [CodeTree.nodes] at hn
    simp only [ser, List.length_cons, bitsOf_length, List.cons_append] at hr h ⊢
    obtain ⟨h1, h9⟩ := quiet_take_add (j := 1) (k := 9).1 h
    have hv : valOf (bitsOf 9 sym.toNat) = sym.toNat := by
      rw [valOf_bitsOf]; exact Nat.mod_eq_of_lt sym.isLt
    rw [desNode, inBit_granted_cons h1 hr, andThen_done]
    simp only
    rw [if_neg (by omega), if_neg (by simp),
      inBits_granted (bs := bitsOf 9 sym.toNat) (rest := more) h9 (by rw [inRest_advance, hr]; rfl) (by simp), andThen_done]
    simp only [hv]
    have h256 : ¬ 256 < sym.toNat := Nat.not_lt.2 (of_decide_eq_true hs)
    rw [if_neg h256, advanceIn_advanceIn]
    simp [CodeTree.nodes]
  | node l r hl hrr =>
    obtain ⟨d, rfl⟩ : ∃ k, d = k + 1 := ⟨d - 1, by omega⟩
    rw [CodeTree.symsOk_node, Bool.and_eq_true] at hs
    simp only [CodeTree.nodes] at hn
    simp only [CodeTree.height] at hd
    have := l.nodes_pos
    have := r.nodes_pos
    simp only [ser, List.cons_append, List.append_assoc, List.length_cons, List.length_append] at hr h ⊢
    rw [show (ser l).length + (ser r).length + 1 = 1 + ((ser l).length + (ser r).length) by omega] at h ⊢
    rw [quiet_take_add, quiet_take_add] at h
    rw [desNode, inBit_granted_cons h.1 hr, andThen_done]
    simp only
    rw [if_neg (by omega), if_pos trivial, hl (more := ser r ++ more) (s := s.advanceIn 1) hs.1 (by omega) (by omega)
      (by rw [inRest_advance, hr]; rfl) h.2.1, andThen_done]
    simp only [advanceIn_advanceIn]
    rw [hrr (more := more) hs.2 (by omega) (by omega) (by rw [inRest_advance, hr, Nat.add_comm]; simp)
      (by simpa [List.drop_drop, Nat.add_comm] using h.2.2), andThen_done, advanceIn_advanceIn]
    simp only [CodeTree.nodes]
    congr 2 <;> omega

/-- DESTREE's recursion on bits that do not complete a tree field, the access after them failing (R55, R134). -/
theorem desNode_error {d n : Nat} {info : Word} {xs more rest : List Bool} {s : State}
    (hx : des d xs n = .malformed info []) (hi : info = 0 ∨ info = 1) (hn : n ≤ Config.nodeCap)
    (hd : Config.nodeCap - n < d) (hr : s.inRest = xs ++ more)
    (he : s.inp.errors = List.replicate xs.length false ++ true :: rest) :
    desNode d n s =
      raise .ioFailure 0 { s with inp := { s.inp with pos := s.inp.pos + xs.length, errors := rest } } := by
  induction d generalizing n xs s with
  | zero => omega
  | succ d ih =>
    cases xs with
    | nil => rw [desNode, inBit_error (rest := rest) (by simpa using he), andThen_raise]; rfl
    | cons x xs =>
      simp only [List.length_cons, List.replicate_succ, List.cons_append] at he hr ⊢
      have hr1 : (s.advanceIn 1).inRest = xs ++ more := by rw [inRest_advance, hr]; rfl
      have he1 : (s.advanceIn 1).inp.errors = List.replicate xs.length false ++ true :: rest := by simp [he]
      simp only [des] at hx
      rw [desNode, inBit_granted_cons (by simp [he]) hr, andThen_done]
      simp only
      split at hx
      · simp at hx
      · rename_i hcap
        rw [if_neg hcap]
        split at hx
        · rename_i hxt
          rw [if_pos hxt]
          split at hx
          · rename_i l s1 n1 h1
            obtain ⟨hl, hn1, hcap1, hs1⟩ := des_tree h1
            have := l.nodes_pos
            have := l.height_nodes
            subst hs1
            rw [List.length_append, List.replicate_add, List.append_assoc] at he1
            rw [desNode_granted (t := l) (more := s1 ++ more) hl (by omega) (by omega)
              (by rw [hr1, List.append_assoc]) (by rw [he1]; exact quiet_replicate _ _), andThen_done]
            simp only
            split at hx
            · simp at hx
            · rw [← hn1, ih (xs := s1) (n := n1) (s := (s.advanceIn 1).advanceIn (ser l).length) hx (by omega) (by omega)
                (by rw [inRest_advance, hr1]; simp)
                (by change (s.advanceIn 1).inp.errors.drop _ = _; rw [he1]; simp), andThen_raise]
              congr 1
              simp [State.advanceIn, Nat.add_assoc, Nat.add_comm, Nat.add_left_comm]
          · rw [ih (s := s.advanceIn 1) hx (by omega) (by omega) hr1 he1, andThen_raise]
            congr 1
            simp [State.advanceIn, Nat.add_assoc, Nat.add_comm 1]
        · rename_i hxf
          rw [if_neg hxf]
          split at hx
          · rename_i h9
            rw [inBits_error (j := xs.length) (rest := rest) h9 (by rw [hr1]; simp) he1, andThen_raise]
            congr 1
            simp [State.advanceIn, Nat.add_assoc, Nat.add_comm 1]
          · split at hx
            · simp only [DesResult.malformed.injEq] at hx
              rcases hi with rfl | rfl <;> simp at hx
            · simp at hx

end Sys2Proof.Machine
end

