-- ==== Sys2Proof/Laws/PerInstr.lean ====
section
/-! SUPPORT. The per-instruction family of LAWS.json: what holds of every command as syntax. -/

namespace Sys2Proof.Laws.OneWord

/-- A command is one well-formed word (R80, R81): it decodes back, from bytes and from the opcode table's number,
whatever follows it, and its mnemonic names it (R99). -/
def Statement (i : Instr) : Prop :=
  i.wf = true ∧ wordWf (opcode i) = true ∧ (Sys2Proof.encode i).length = 1 ∧
    (∀ rest : List Byte, Sys2Proof.decode (Sys2Proof.encode i ++ rest) = .command i rest) ∧
    decodeTableWord 8 (opcode i).toNat = some i ∧ commandNamed (mnemonic i) = some i

theorem clr : Statement .clr := ⟨rfl, by decide, rfl, fun _ => rfl, by decide, by decide⟩
theorem count : Statement .count := ⟨rfl, by decide, rfl, fun _ => rfl, by decide, by decide⟩
theorem build : Statement .build := ⟨rfl, by decide, rfl, fun _ => rfl, by decide, by decide⟩
theorem mktable : Statement .mktable := ⟨rfl, by decide, rfl, fun _ => rfl, by decide, by decide⟩
theorem wrmagic : Statement .wrmagic := ⟨rfl, by decide, rfl, fun _ => rfl, by decide, by decide⟩
theorem sertree : Statement .sertree := ⟨rfl, by decide, rfl, fun _ => rfl, by decide, by decide⟩
theorem encpay : Statement .encpay := ⟨rfl, by decide, rfl, fun _ => rfl, by decide, by decide⟩
theorem rdmagic : Statement .rdmagic := ⟨rfl, by decide, rfl, fun _ => rfl, by decide, by decide⟩
theorem destree : Statement .destree := ⟨rfl, by decide, rfl, fun _ => rfl, by decide, by decide⟩
theorem decpay : Statement .decpay := ⟨rfl, by decide, rfl, fun _ => rfl, by decide, by decide⟩
theorem encode : Statement .encode := ⟨rfl, by decide, rfl, fun _ => rfl, by decide, by decide⟩
theorem decode : Statement .decode := ⟨rfl, by decide, rfl, fun _ => rfl, by decide, by decide⟩

end Sys2Proof.Laws.OneWord
end

