-- ==== Sys2Proof/Laws/Results.lean ====
section
/-! SUPPORT. Helper lemmas for statements about results: on tables and weights, on trees and codes, on port
failures inside a field, and on sequences of commands. -/

namespace Sys2Proof.Machine

/-- The counts of a source and the sentinel sum to one more than its length (R112). -/
theorem countTable_sum (src : List Byte) : (countTable src).sum = src.length + 1 := by
  have key : ∀ src : List Byte, (((List.range 256).map fun b => src.count (BitVec.ofNat 8 b)).sum) = src.length := by
    intro src
    induction src with
    | nil => decide +kernel
    | cons x xs ih =>
      simp only [List.count_cons]
      rw [List.sum_map_add, ih]
      have : ((List.range 256).map fun b => if (x == BitVec.ofNat 8 b) = true then 1 else 0).sum = 1 := by
        clear ih
        revert x; decide +kernel
      rw [this]; rfl
  simp only [countTable, List.sum_append, List.sum_singleton]
  rw [show Config.eos = 256 from rfl]
  have := key src
  simp only [byteCount]
  rw [this]

/-- Where a source does not fit, there is a first byte whose increment does not (R113). -/
theorem first_full {p : Params} (bs : List Byte) (cnt : List Nat) (h : ¬ fits p cnt bs) :
   ∃ pre b post, bs = pre ++ b :: post ∧ fits p cnt pre ∧ countFull p ((pre.foldl bump cnt).getD b.toNat 0) = true := by
  induction bs generalizing cnt with
  | nil => exact absurd trivial h
  | cons x xs ih =>
    by_cases hx : countFull p (cnt.getD x.toNat 0) = true
    · exact ⟨[], x, xs, rfl, trivial, hx⟩
    · have : ¬ fits p (bump cnt x) xs := fun hf => h ⟨by simpa using hx, hf⟩
      obtain ⟨pre, b, post, rfl, h1, h2⟩ := ih _ this
      exact ⟨x :: pre, b, post, rfl, ⟨by simpa using hx, h1⟩, h2⟩

/-- An empty table has no entries (R127). -/
theorem tableEntries_zero (sym : Nat) (n : Nat) : tableEntries sym (List.replicate n 0) = [] := by
  induction n generalizing sym with
  | zero => rfl
  | succ n ih => simp [List.replicate_succ, tableEntries, ih]

/-- A table of one nonzero count has one entry (R126). -/
theorem tableEntries_single (sym n j c : Nat) (hj : j < n) (hc : c ≠ 0) : tableEntries sym ((List.replicate n 0).set j c) = [(sym + j, c)] := by
  induction n generalizing sym j with
  | zero => omega
  | succ n ih =>
    cases j with
    | zero => simp [List.replicate_succ, tableEntries, hc, tableEntries_zero]
    | succ j =>
      simp only [List.replicate_succ, List.set_cons_succ, tableEntries]
      rw [if_neg (by simp), ih _ j (by omega)]
      simp; omega

/-- The entries of a table carry all its counts. -/
theorem tableEntries_sum (sym : Nat) (cnt : List Nat) : ((tableEntries sym cnt).map (·.2)).sum = cnt.sum := by
  induction cnt generalizing sym with
  | nil => rfl
  | cons c cs ih =>
    simp only [tableEntries]
    split
    · simp [ih]
    · rename_i h; simp at h; simp [ih, h]

/-- The weight of a tree over a table's symbols is the sum of the counts (R123). -/
theorem treeWeight_root {cnt : List Nat} (hl : cnt.length = Config.nsym) {t : CodeTree} (h : t.leaves.Perm (leafSyms cnt)) : treeWeight cnt t = cnt.sum := by
  rw [treeWeight, (h.map _).sum_eq, leafSyms, tableSyms, List.map_map, List.map_map, ← tableEntries_sum 0 cnt]
  congr 1
  apply List.map_congr_left
  rintro ⟨s, c⟩ he
  have hm := (tableEntries_mem.1 he).2.2
  have hlt := (List.getElem?_eq_some_iff.1 hm).1
  simp [Config.nsym] at hl hm hlt
  have : (BitVec.ofNat 9 s).toNat = s := by simp; omega
  simp only [Function.comp, this]
  rw [List.getD_eq_getElem?_getD, hm]; rfl

/-- No node below another has more weight (R123). -/
theorem subtree_weight_le {cnt syms p F} (h : PoolInv cnt syms p F) : ∀ (t : CodeTree) (i : Nat) (w : Nat), holds p.node i t → p.weight[i]? = some w →
    ∀ j ∈ indices p.node i t, ∀ wj, p.weight[j]? = some wj → wj ≤ w := by
  intro t
  induction t with
  | leaf s => intro i w hh hw j hj wj hwj; simp [indices] at hj; subst hj; rw [hw] at hwj; simp at hwj; omega
  | node tl tr il ir =>
    intro i w hh hw j hj wj hwj
    simp only [holds] at hh
    obtain ⟨l, r, hn, hl, hr⟩ := hh
    simp only [indices, hn] at hj
    obtain ⟨-, -, wl, wr, h1, h2, h3, -⟩ := h.merged i l r hn
    rw [hw] at h3; simp at h3
    simp only [List.mem_cons, List.mem_append] at hj
    rcases hj with rfl | hj | hj
    · rw [hw] at hwj; simp at hwj; omega
    · have := il _ _ hl h1 j hj wj hwj; omega
    · have := ir _ _ hr h2 j hj wj hwj; omega

/-- A weighted sum over the entries is one over the whole table (R156). -/
theorem tableEntries_weighted (f : Nat → Nat) (sym : Nat) (cnt : List Nat) : ((tableEntries sym cnt).map fun e => e.2 * f e.1).sum = ((List.range cnt.length).map fun i => cnt.getD i 0 * f (sym + i)).sum := by
  induction cnt generalizing sym with
  | nil => rfl
  | cons c cs ih =>
    rw [List.length_cons, List.range_succ_eq_map, List.map_cons, List.sum_cons, List.map_map]
    simp only [tableEntries]
    have e : ((List.range cs.length).map ((fun i => (c :: cs).getD i 0 * f (sym + i)) ∘ Nat.succ)) = (List.range cs.length).map fun i => cs.getD i 0 * f (sym + 1 + i) := by
      apply List.map_congr_left; intro i _; simp [Nat.add_assoc, Nat.add_comm 1]
    rw [e, ← ih]
    split
    · simp
    · rename_i h; simp at h; simp [h]

/-- Count times path length, summed over leaves with paths (R156). -/
def pathCost (cnt : List Nat) (l : List (Sym × List Bool)) : Nat := (l.map fun p => cnt.getD p.1.toNat 0 * p.2.length).sum

/-- One step more on every path adds every count once. -/
theorem pathCost_cons (cnt : List Nat) (l : List (Sym × List Bool)) (b : Bool) :
    pathCost cnt (l.map fun p => (p.1, b :: p.2)) = pathCost cnt l + ((l.map (·.1)).map fun s => cnt.getD s.toNat 0).sum := by
  induction l with
  | nil => rfl
  | cons x l ih => simp only [pathCost, List.map_cons, List.sum_cons, List.length_cons] at ih ⊢; rw [ih, Nat.mul_add]; omega

/-- The cost of an internal node is its weight and the cost of its subtrees (R156). -/
theorem pathCost_node (cnt : List Nat) (l r : CodeTree) :
    pathCost cnt (CodeTree.node l r).paths = treeWeight cnt (.node l r) + (pathCost cnt l.paths + pathCost cnt r.paths) := by
  have : ∀ a b, pathCost cnt (a ++ b) = pathCost cnt a + pathCost cnt b := by intro a b; simp [pathCost]
  rw [CodeTree.paths, this, pathCost_cons, pathCost_cons, l.paths_fst, r.paths_fst, treeWeight, CodeTree.leaves, List.map_append, List.sum_append]
  omega

/-- The weight at an index, if an internal node stands there. -/
def innerAt (node : List NodeCell) (weight : List Nat) (i : Nat) : Nat :=
  match node[i]? with
  | some (.internal _ _) => weight.getD i 0
  | _ => 0

/-- The sum of the internal weights by index. -/
theorem innerWeight_range (node : List NodeCell) (weight : List Nat) (h : weight.length = node.length) :
    innerWeight node weight = ((List.range node.length).map (innerAt node weight)).sum := by
  induction node generalizing weight with
  | nil => simp [innerWeight]
  | cons c cs ih =>
    cases weight with
    | nil => simp at h
    | cons w ws =>
      rw [List.length_cons, List.range_succ_eq_map, List.map_cons, List.sum_cons, List.map_map]
      have e : (innerAt (c :: cs) (w :: ws)) ∘ Nat.succ = innerAt cs ws := by funext i; simp [innerAt]
      rw [e, ← ih ws (by simpa using h)]
      cases c <;> simp [innerWeight, innerAt]

/-- The weights of a tree in a pool, and its internal weights summed in pre-order (R123, R156). -/
theorem pool_weights {cnt syms p F} (h : PoolInv cnt syms p F) (t : CodeTree) (i : Nat) (hh : holds p.node i t) :
    p.weight[i]? = some (treeWeight cnt t) ∧ ((indices p.node i t).map (innerAt p.node p.weight)).sum = pathCost cnt t.paths := by
  induction t generalizing i with
  | leaf s =>
    have hh' : p.node[i]? = some (.leaf s) := hh
    exact ⟨by rw [h.seedWeights i s hh]; simp [treeWeight, CodeTree.leaves], by simp [indices, innerAt, hh', pathCost, CodeTree.paths]⟩
  | node tl tr il ir =>
    simp only [holds] at hh
    obtain ⟨l, r, hn, hl, hr⟩ := hh
    obtain ⟨-, -, wl, wr, h1, h2, h3, -⟩ := h.merged i l r hn
    obtain ⟨a1, a2⟩ := il _ hl
    obtain ⟨b1, b2⟩ := ir _ hr
    rw [h1] at a1; rw [h2] at b1
    simp at a1 b1
    have hw : p.weight[i]? = some (treeWeight cnt (.node tl tr)) := by
      rw [h3, a1, b1]; simp [treeWeight, CodeTree.leaves]
    refine ⟨hw, ?_⟩
    simp only [indices, hn, List.map_cons, List.map_append, List.sum_cons, List.sum_append, a2, b2, pathCost_node]
    simp [innerAt, hn, List.getD_eq_getElem?_getD, hw]

/-- A valid cell of a table MKTABLE makes holds the path of its symbol's last leaf (R142, R143). -/
theorem codeTable_cell {tree : CodeTree} (hw : tree.wf = true) {sym : Nat} {c : CodeCell} (h : (codeTable tree)[sym]? = some (some c)) :
    ∃ p, (BitVec.ofNat 9 sym, p) ∈ tree.paths ∧ lastPath tree (BitVec.ofNat 9 sym) = some p ∧ sym < 257 ∧ c.len.toNat = p.length ∧ c.val.toNat = valOf p ∧ p.length ≤ 256 := by
  have hlt : sym < 257 := by have := (List.getElem?_eq_some_iff.1 h).1; rw [codeTable_length] at this; exact this
  have hs : (BitVec.ofNat 9 sym).toNat = sym := by simp; omega
  have := codeTable_getElem? tree (BitVec.ofNat 9 sym) (by rw [hs]; exact hlt)
  rw [hs, h] at this
  simp only [Option.some.injEq] at this
  cases hp : lastPath tree (BitVec.ofNat 9 sym) with
  | none => rw [hp] at this; simp at this
  | some p =>
    rw [hp] at this; simp at this
    have hm := lastPath_mem hp
    have h1 := tree.path_length _ hm
    have h2 := tree.wf_height hw
    simp only at h1
    refine ⟨p, hm, rfl, hlt, ?_, ?_, by omega⟩
    · rw [this]; simp [pathCell]; omega
    · rw [this]; simp only [pathCell, BitVec.toNat_ofNat]
      exact Nat.mod_eq_of_lt (lt_of_lt_of_le (valOf_lt p) (Nat.pow_le_pow_right (by norm_num) (by omega)))

/-- No path to a leaf is a prefix of a path to another symbol's leaf (R89). -/
theorem path_not_prefix {tree : CodeTree} {a b : Sym} {p q : List Bool} (hp : (a, p) ∈ tree.paths) (hq : (b, q) ∈ tree.paths) (hne : a ≠ b) : ¬ p <+: q := by
  have h := paths_prefix_free tree
  obtain ⟨i, hi, hip⟩ := List.mem_iff_getElem.1 hp
  obtain ⟨j, hj, hjq⟩ := List.mem_iff_getElem.1 hq
  have h' := List.pairwise_iff_getElem.1 h
  rcases lt_trichotomy i j with hlt | rfl | hlt
  · have := (h' i j hi hj hlt).1; rw [hip, hjq] at this; exact this
  · rw [hip] at hjq; simp at hjq; exact absurd hjq.1 hne
  · have := (h' j i hj hi hlt).2; rw [hip, hjq] at this; exact this

/-- A tree is lower than its number of leaves (R143). -/
theorem height_lt_leaves (t : CodeTree) : t.height + 1 ≤ t.leaves.length := by
  induction t with
  | leaf s => simp [CodeTree.height, CodeTree.leaves]
  | node l r hl hr => simp only [CodeTree.height, CodeTree.leaves, List.length_append]; have := l.leaves_pos; have := r.leaves_pos; omega

/-- `Des` does not depend on its depth bound while that is large enough (R135). -/
theorem des_bound_irrelevant (d e : Nat) (s : List Bool) (n : Nat) (hd : Config.nodeCap - n < d) (he : Config.nodeCap - n < e) (hn : n ≤ Config.nodeCap) :
    des d s n = des e s n := by
  induction d generalizing e s n with
  | zero => omega
  | succ d ih =>
    cases e with
    | zero => omega
    | succ e =>
      cases s with
      | nil => rfl
      | cons b s =>
        simp only [des]
        split
        · rfl
        · rename_i hc
          split
          · rw [ih e s (n + 1) (by omega) (by omega) (by omega)]
            cases h1 : des e s (n + 1) with
            | tree l s1 n1 =>
              simp only
              obtain ⟨-, g1, g2, -⟩ := des_tree h1
              have := l.nodes_pos
              have := g2 (by omega)
              rw [ih e s1 n1 (by omega) (by omega) (by omega)]
            | malformed i r => rfl
            | capacity r => rfl
          · rfl

/-- The internal cells of a pre-order numbering (R137). -/
theorem preorder_internal (t : CodeTree) (pre post : List NodeCell) (h : pre.length + t.nodes ≤ 1024) (i : Nat) (l r : NodeIdx)
    (hi : (preorderCells pre.length t)[i]? = some (.internal l r)) :
    l.toNat = pre.length + i + 1 ∧ ∃ left, holds (pre ++ preorderCells pre.length t ++ post) (pre.length + i + 1) left ∧
      r.toNat = pre.length + i + 1 + left.nodes ∧ left.nodes ≤ t.nodes := by
  induction t generalizing pre post i with
  | leaf s => 
    simp only [preorderCells] at hi
    cases i <;> simp at hi
  | node a b ha hb =>
    simp only [CodeTree.nodes] at h ⊢
    have han := a.nodes_pos
    have hbn := b.nodes_pos
    generalize hc : NodeCell.internal (BitVec.ofNat 10 (pre.length + 1))
      (BitVec.ofNat 10 (pre.length + 1 + a.nodes)) = c
    have e1 : pre ++ [c] ++ preorderCells (pre.length + 1) a ++
        (preorderCells (pre.length + 1 + a.nodes) b ++ post) =
        pre ++ preorderCells pre.length (.node a b) ++ post := by
      simp [preorderCells, hc]
    have e2 : pre ++ [c] ++ preorderCells (pre.length + 1) a ++ preorderCells (pre.length + 1 + a.nodes) b ++ post =
        pre ++ preorderCells pre.length (.node a b) ++ post := by
      simp [preorderCells, hc]
    simp only [preorderCells, hc] at hi
    cases i with
    | zero =>
      simp at hi
      subst hi
      simp only [NodeCell.internal.injEq] at hc
      obtain ⟨rfl, rfl⟩ := hc
      refine ⟨by simp; omega, a, ?_, by simp; omega, by omega⟩
      have := (preorder_holds a (pre ++ [.internal (BitVec.ofNat 10 (pre.length + 1))
      (BitVec.ofNat 10 (pre.length + 1 + a.nodes))]) (preorderCells (pre.length + 1 + a.nodes) b ++ post) (by simp; omega)).1
      simp only [List.length_append, List.length_singleton] at this
      rw [e1] at this
      exact this
    | succ i =>
      rw [List.getElem?_cons_succ] at hi
      by_cases hlt : i < a.nodes
      · rw [List.getElem?_append_left (by rw [preorderCells_length]; exact hlt)] at hi
        obtain ⟨h1, left, h2, h3, h4⟩ := ha (pre ++ [c]) (preorderCells (pre.length + 1 + a.nodes) b ++ post) (by simp; omega) i (by simpa using hi)
        simp only [List.length_append, List.length_singleton] at h1 h2 h3
        rw [e1] at h2
        refine ⟨by omega, left, ?_, by omega, by omega⟩
        rw [show pre.length + (i + 1) + 1 = pre.length + 1 + i + 1 by omega]; exact h2
      · rw [List.getElem?_append_right (by rw [preorderCells_length]; omega), preorderCells_length] at hi
        obtain ⟨h1, left, h2, h3, h4⟩ := hb (pre ++ [c] ++ preorderCells (pre.length + 1) a) post (by simp [preorderCells_length]; omega) (i - a.nodes) (by rw [show (pre ++ [c] ++ preorderCells (pre.length + 1) a).length = pre.length + 1 + a.nodes by simp [preorderCells_length]; omega]; exact hi)
        simp only [List.length_append, List.length_singleton, preorderCells_length] at h1 h2 h3
        rw [e2] at h2
        refine ⟨by omega, left, ?_, by omega, by omega⟩
        rw [show pre.length + (i + 1) + 1 = pre.length + 1 + a.nodes + (i - a.nodes) + 1 by omega]; exact h2

/-- What BUILD makes of a table, whatever else is in the state: the tree does not depend on it (R121). -/
theorem buildBody_tree {cnt : List Nat} (hl : cnt.length = Config.nsym) (hpos : 0 < (leafSyms cnt).length) :
    ∃ (p : Pool) (t : CodeTree), t.wf = true ∧ t.leaves.Perm (leafSyms cnt) ∧ ∀ s : State, s.cnt = cnt →
      ∃ u, buildBody s = .done () u ∧ u = { s.dropTree with
          node := p.node, weight := p.weight, live := p.live
          root := BitVec.ofNat 10 (p.node.length - 1), nnodes := BitVec.ofNat 10 p.node.length, treeV := true } ∧ u.tree = some t := by
  have hk : (leafSyms cnt).length ≤ Config.nsym := by
    rw [leafSyms_length, ← hl]; exact tableEntries_length 0 cnt
  have hnode : (seedPool cnt).node.length = (leafSyms cnt).length := by
    simp [seedPool, leafSyms_length]
  obtain ⟨p, t, hp, hi⟩ := mergeLoop_inv (n := (seedPool cnt).node.length) (seedPool_inv hl hpos) hk
    (by simp [hnode])
  obtain ⟨hw, hn, hsz, hperm, htree, hvis⟩ := pool_tree hl hi
  refine ⟨p, t, hw, hperm, ?_⟩
  intro s hs
  subst hs
  obtain ⟨p', t', hp', hb⟩ := buildBody_eq hl hpos
  have : buildBody s = .done () { s.dropTree with
          node := p.node, weight := p.weight, live := p.live
          root := BitVec.ofNat 10 (p.live.idxOf true), nnodes := BitVec.ofNat 10 p.node.length, treeV := true } := by
    have h2 : (seedPool s.cnt).node.length ≠ 0 := by omega
    unfold buildBody
    simp only [State.dropTree_cnt, hl, ne_eq, not_true_eq_false, if_false, h2, hp]
  have hpp : p'.node = p.node ∧ p'.weight = p.weight ∧ p'.live = p.live := by
    rw [hb] at this
    simp only [Run.done.injEq, State.mk.injEq, true_and] at this
    exact ⟨this.2.2.1, this.2.2.2.1, this.2.2.2.2.1⟩
  rw [hpp.1, hpp.2.1, hpp.2.2] at hb
  exact ⟨_, hb, rfl, (pool_inv hl hi rfl rfl rfl).1⟩

/-- CLR on quiet ports (R175). -/
theorem clrBody_quiet {s : State} (h : quiet s.inp.errors) (ho : quiet s.out.errors) :
    clrBody s = .done () { cleared s with inp := { s.inp with pos := 0, errors := s.inp.errors.drop 1 }, out := { bits := [], errors := s.out.errors.drop 1 } } := by
  rw [clrBody, inRewind_quiet (by exact h), andThen_done, outReset_quiet (by exact ho)]
  rfl

/-- RDMAGIC on a quiet input that begins with the magic field (R161). -/
theorem rdmagicBody_quiet {s : State} {rest : List Bool} (hq : quiet s.inp.errors) (hu : unpack s.inp.bytes = magicBits s.params.magic ++ rest) :
    rdmagicBody s = .done () { s with inp := { s.inp with pos := 32, errors := s.inp.errors.drop 33 } } := by
  rw [rdmagicBody, inRewind_quiet hq, andThen_done]
  simp only
  rw [inBits_quiet (bs := magicBits s.params.magic) (rest := rest) (by exact quiet_drop hq 1) (by simp [State.inRest, hu]) (by simp [magicBits])]
  simp only [andThen_done]
  rw [if_neg]
  · simp [State.advanceIn]
  · simp [magicBits, Nat.mod_eq_of_lt s.params.magic.isLt]

/-- Whatever the ports answer, DECPAY's loop emits symbols of leaves only (R167). -/
theorem decLoop_leaves (n : Nat) (root t : CodeTree) (hsub : ∀ sym ∈ t.leaves, sym ∈ root.leaves) (hs : ∀ sym ∈ root.leaves, sym.toNat ≤ 256) (s : State) :
    (decLoop n root t s).Ends (fun _ u => ∃ bytes, u.out.bits = s.out.bits ++ unpack bytes ∧ ∀ b ∈ bytes, symOfByte b ∈ root.leaves) (fun _ => True) True := by
  induction n generalizing t s with
  | zero => simp [decLoop]
  | succ n ih =>
    cases t with
    | leaf sym =>
      rw [decLoop]
      split
      · exact ⟨[], by simp [unpack]⟩
      · rename_i hne
        refine Run.Ends.andThen ((outString_ends _ s).mono (fun _ _ h => h) (fun _ _ => trivial) (fun _ => trivial)) ?_
        rintro _ u ⟨e, rfl⟩
        refine (ih root (fun _ h => h) _).mono ?_ (fun _ h => h) id
        rintro _ v ⟨bytes, h1, h2⟩
        refine ⟨sym.truncate 8 :: bytes, ?_, ?_⟩
        · rw [h1]; simp only [unpack, List.append_assoc]; rw [outBits_byte]; simp [unpack]
        · intro b hb
          rcases List.mem_cons.1 hb with rfl | hb
          · have hm := hsub sym (by simp [CodeTree.leaves])
            have := hs sym hm
            have e : symOfByte (sym.truncate 8) = sym := by
              apply BitVec.eq_of_toNat_eq
              simp only [Config.eos] at hne
              simp [symOfByte]; omega
            rw [e]; exact hm
          · exact h2 b hb
    | node l r =>
      rw [decLoop]
      refine Run.Ends.andThen ((inBit_ends s).mono (fun _ _ h => h) (fun _ _ => trivial) (fun _ => trivial)) ?_
      intro b u hb
      have hout : u.out = s.out := by rw [hb.1.1]
      split
      · trivial
      · rename_i b
        refine (ih (if b then r else l) ?_ u).mono ?_ (fun _ h => h) id
        · intro sym h; apply hsub; simp only [CodeTree.leaves, List.mem_append]; split at h
          · exact .inr h
          · exact .inl h
        · rintro _ v ⟨bytes, h1, h2⟩
          exact ⟨bytes, by rw [h1, hout], h2⟩

/-- One command of a sequence and what follows it (R179). -/
theorem execSeq_cons {i : Instr} {is : List Instr} {v : State} {r : Run Unit} {k : State → Run Unit} {P : State → Prop}
    (he : exec i v = complete r)
    (hr : r.Ends (fun _ u => u.run = .busy ∧ P u) (fun t => t.run = .fault) True)
    (hk : ∀ u, u.run = .busy → P u → execSeq is { u with run := .ready } = complete (k u)) :
    execSeq (i :: is) v = complete (r.andThen fun _ u => k u) := by
  cases r with
  | done a u => 
    simp only [execSeq, he, complete, if_true, andThen_done]
    exact hk u hr.1 hr.2
  | ended t =>
    simp only [execSeq, he, complete, andThen_ended]
    rw [if_neg (by rw [show t.run = .fault from hr]; simp)]
  | stuck f => simp [execSeq, he, complete]

/-- A sequence of one command (R179). -/
theorem execSeq_single (v : State) (r : Run Unit) (i : Instr) (he : exec i v = complete r) : execSeq [i] v = complete r := by
  simp only [execSeq, he]
  cases r with
  | done a u => simp [complete]
  | ended t => simp [complete]
  | stuck f => simp [complete]

end Sys2Proof.Machine
end

