-- ==== Sys2Proof/Laws/Unobservable.lean ====
section
/-! SUPPORT. What is held of an invalid structure matters to no command (R22, R39): the body of every command,
started from two states that agree in what is visible, ends alike. -/

namespace Sys2Proof.Machine

/-- Two states agree in what is visible, and their flags are as given. -/
structure Alike (ft tree tab : Bool) (s u : State) : Prop where
  vis : s.visible = u.visible
  ftV : s.ftV = ft
  treeV : s.treeV = tree
  tabV : s.tabV = tab

variable {ft tree tab : Bool} {s u : State}

theorem Alike.field {α} (h : Alike ft tree tab s u) (f : State → α) (hf : ∀ s, f s.visible = f s) : f s = f u := by
  rw [← hf s, ← hf u, h.vis]

theorem Alike.flags (h : Alike ft tree tab s u) : u.ftV = ft ∧ u.treeV = tree ∧ u.tabV = tab :=
  ⟨(h.field (·.ftV) fun _ => rfl) ▸ h.ftV, (h.field (·.treeV) fun _ => rfl) ▸ h.treeV,
    (h.field (·.tabV) fun _ => rfl) ▸ h.tabV⟩

theorem Alike.inp (h : Alike ft tree tab s u) : s.inp = u.inp := h.field (·.inp) fun _ => rfl
theorem Alike.out (h : Alike ft tree tab s u) : s.out = u.out := h.field (·.out) fun _ => rfl
theorem Alike.params (h : Alike ft tree tab s u) : s.params = u.params := h.field (·.params) fun _ => rfl

theorem Alike.cnt (h : Alike true tree tab s u) : s.cnt = u.cnt := by
  have := congrArg State.cnt h.vis
  simpa [State.visible, h.ftV, h.flags.1] using this

theorem Alike.ct (h : Alike ft tree true s u) : s.ct = u.ct := by
  have := congrArg State.ct h.vis
  simpa [State.visible, h.tabV, h.flags.2.2] using this

theorem Alike.theTree (h : Alike ft true tab s u) : s.tree = u.tree := by
  have h1 := congrArg State.node h.vis
  have h2 := congrArg State.root h.vis
  simp only [State.visible, h.treeV, h.flags.2.1, if_true] at h1 h2
  rw [State.tree, State.tree, h1, h2]

/-- The same change of what is outside the structures keeps two states alike. -/
theorem Alike.map (h : Alike ft tree tab s u) (f : State → State) (hf : ∀ s, (f s).visible = f s.visible)
    (h1 : (f s).ftV = s.ftV) (h2 : (f s).treeV = s.treeV) (h3 : (f s).tabV = s.tabV) :
    Alike ft tree tab (f s) (f u) :=
  ⟨by rw [hf, hf, h.vis], by rw [h1, h.ftV], by rw [h2, h.treeV], by rw [h3, h.tabV]⟩

/-- Two runs end alike: in the same way, with the same value, in states that are related. -/
def RunAlike {α : Type} (R : State → State → Prop) (r q : Run α) : Prop :=
  match r, q with
  | .done a s, .done b u => a = b ∧ R s u
  | .ended s, .ended u => s.visible = u.visible
  | .stuck f, .stuck g => f = g
  | _, _ => False

theorem RunAlike.andThen {α β} {R Q : State → State → Prop} {r q : Run α} {k l : α → State → Run β}
    (h : RunAlike R r q) (hk : ∀ a s u, R s u → RunAlike Q (k a s) (l a u)) :
    RunAlike Q (r.andThen k) (q.andThen l) := by
  cases r <;> cases q <;> simp only [RunAlike] at h
  · obtain ⟨rfl, h⟩ := h; exact hk _ _ _ h
  · exact h
  · exact h

theorem RunAlike.raise {α} {R : State → State → Prop} (c : Cause) (i : Word) (h : s.visible = u.visible) :
    RunAlike R (Machine.raise c i s : Run α) (Machine.raise c i u) := by
  show (faultEntry c i s).visible = (faultEntry c i u).visible
  have : ∀ s : State, (faultEntry c i s).visible = faultEntry c i s.visible := fun _ => rfl
  rw [this, this, h]

theorem inAccess_alike (h : Alike ft tree tab s u) :
    RunAlike (Alike ft tree tab) (inAccess s) (inAccess u) := by
  have hw : ∀ e, Alike ft tree tab (s.withInErrors e) (u.withInErrors e) := fun e =>
    h.map (·.withInErrors e) (fun _ => rfl) rfl rfl rfl
  unfold inAccess
  rw [← h.inp]
  split
  · exact ⟨rfl, h⟩
  · exact ⟨rfl, hw _⟩
  · exact .raise _ _ (hw _).vis

theorem outAccess_alike (h : Alike ft tree tab s u) :
    RunAlike (Alike ft tree tab) (outAccess s) (outAccess u) := by
  have hw : ∀ e, Alike ft tree tab (s.withOutErrors e) (u.withOutErrors e) := fun e =>
    h.map (·.withOutErrors e) (fun _ => rfl) rfl rfl rfl
  unfold outAccess
  rw [← h.out]
  split
  · exact ⟨rfl, h⟩
  · exact ⟨rfl, hw _⟩
  · exact .raise _ _ (hw _).vis

theorem inMore_alike (h : Alike ft tree tab s u) : RunAlike (Alike ft tree tab) (inMore s) (inMore u) :=
  (inAccess_alike h).andThen fun _ s u h => ⟨by rw [h.inp], h⟩

theorem inBit_alike (h : Alike ft tree tab s u) : RunAlike (Alike ft tree tab) (inBit s) (inBit u) := by
  refine (inAccess_alike h).andThen fun _ s u h => ?_
  simp only [← h.inp]
  split
  · exact ⟨rfl, h⟩
  · exact ⟨rfl, h.map (·.withInPos _) (fun _ => rfl) rfl rfl rfl⟩

theorem inBitsFrom_alike (n v : Nat) (h : Alike ft tree tab s u) :
    RunAlike (Alike ft tree tab) (inBitsFrom n v s) (inBitsFrom n v u) := by
  induction n generalizing v s u with
  | zero => exact ⟨rfl, h⟩
  | succ n ih =>
    refine (inBit_alike h).andThen fun b s u h => ?_
    cases b with
    | none => exact ⟨rfl, h⟩
    | some b => exact ih _ h

theorem inBits_alike (n : Nat) (h : Alike ft tree tab s u) :
    RunAlike (Alike ft tree tab) (inBits n s) (inBits n u) := inBitsFrom_alike n 0 h

theorem inRewind_alike (h : Alike ft tree tab s u) : RunAlike (Alike ft tree tab) (inRewind s) (inRewind u) :=
  (inAccess_alike h).andThen fun _ _ _ h => ⟨rfl, h.map (·.withInPos 0) (fun _ => rfl) rfl rfl rfl⟩

theorem outString_alike (bs : List Bool) (h : Alike ft tree tab s u) :
    RunAlike (Alike ft tree tab) (outString bs s) (outString bs u) := by
  induction bs generalizing s u with
  | nil => exact ⟨rfl, h⟩
  | cons b bs ih =>
    refine RunAlike.andThen (R := Alike ft tree tab) ?_ fun _ _ _ h => ih h
    refine (outAccess_alike h).andThen fun _ s u h => ?_
    rw [← h.out]
    exact ⟨rfl, h.map (·.withOutBits _) (fun _ => rfl) rfl rfl rfl⟩

theorem outReset_alike (h : Alike ft tree tab s u) : RunAlike (Alike ft tree tab) (outReset s) (outReset u) :=
  (outAccess_alike h).andThen fun _ _ _ h => ⟨rfl, h.map (·.withOutBits []) (fun _ => rfl) rfl rfl rfl⟩

theorem Alike.dropTab (h : Alike ft tree tab s u) : Alike ft tree false s.dropTab u.dropTab :=
  ⟨by
    have : ∀ s : State, s.dropTab.visible = { s.visible with tabV := false, ct := [] } := fun _ => rfl
    rw [this, this, h.vis], h.ftV, h.treeV, rfl⟩

theorem Alike.dropTree (h : Alike ft tree tab s u) : Alike ft false false s.dropTree u.dropTree :=
  ⟨by
    have : ∀ s : State, s.dropTree.visible =
        { s.visible with
          treeV := false, tabV := false, ct := [], node := [], root := 0, nnodes := 0 } := fun _ => rfl
    rw [this, this, h.vis], h.ftV, rfl, rfl⟩

theorem Alike.dropAll (h : Alike ft tree tab s u) : Alike false false false s.dropAll u.dropAll :=
  ⟨by
    have : ∀ s : State, s.dropAll.visible =
        { s.visible with
          ftV := false, treeV := false, tabV := false, cnt := [], ct := [], node := [], root := 0
          nnodes := 0 } := fun _ => rfl
    rw [this, this, h.vis], rfl, rfl, rfl⟩

theorem clrBody_alike (h : Alike ft tree tab s u) :
    RunAlike (Alike false false false) (clrBody s) (clrBody u) := by
  have h0 : Alike ft tree tab { s with cause := 0, finfo := 0 } { u with cause := 0, finfo := 0 } :=
    h.map (fun s => { s with cause := 0, finfo := 0 }) (fun _ => rfl) rfl rfl rfl
  exact (inRewind_alike h0.dropAll).andThen fun _ _ _ h => outReset_alike h

theorem countLoop_alike (n : Nat) (cnt : List Nat) (h : Alike ft tree tab s u) :
    RunAlike (Alike ft tree tab) (countLoop n cnt s) (countLoop n cnt u) := by
  induction n generalizing cnt s u with
  | zero => rfl
  | succ n ih =>
    refine (inMore_alike h).andThen fun more s u h => ?_
    cases more with
    | false => exact ⟨rfl, h⟩
    | true =>
      refine (inBits_alike 8 h).andThen fun v s u h => ?_
      cases v with
      | none => rfl
      | some b =>
        simp only [← h.params]
        split
        · exact .raise _ _ h.vis
        · exact ih _ h

theorem countBody_alike (h : Alike ft tree tab s u) :
    RunAlike (Alike true false false) (countBody s) (countBody u) := by
  refine (inRewind_alike h.dropAll).andThen fun _ s u h => ?_
  rw [← h.inp]
  refine (countLoop_alike _ _ h).andThen fun cnt s u h => ⟨rfl, ?_, rfl, h.treeV, h.tabV⟩
  have : ∀ s : State, ({ s with cnt := cnt.set Config.eos 1, ftV := true } : State).visible =
      { s.visible with ftV := true, cnt := cnt.set Config.eos 1 } := fun _ => rfl
  rw [this, this, h.vis]

theorem buildBody_alike (h : Alike true tree tab s u) :
    RunAlike (Alike true true false) (buildBody s) (buildBody u) := by
  have hd := h.dropTree
  unfold buildBody
  simp only [← hd.cnt]
  split
  · rfl
  · split
    · refine .raise _ _ ?_
      have : ∀ s : State, ({ s with live := List.replicate Config.nodeCap false } : State).visible = s.visible :=
        fun _ => rfl
      rw [this, hd.vis, hd.cnt]
      exact (this _).symm
    · split
      · rfl
      · rename_i p _
        refine ⟨rfl, ?_, hd.ftV, rfl, hd.tabV⟩
        have : ∀ s : State, ({ s with
            node := p.node, weight := p.weight, live := p.live, root := BitVec.ofNat 10 (p.live.idxOf true)
            nnodes := BitVec.ofNat 10 p.node.length, treeV := true } : State).visible =
            { s.visible with
              node := p.node, root := BitVec.ofNat 10 (p.live.idxOf true)
              nnodes := BitVec.ofNat 10 p.node.length, treeV := true } := fun _ => rfl
        rw [this, hd.vis, hd.cnt]
        exact (this _).symm

theorem wrmagicBody_alike (h : Alike ft tree tab s u) :
    RunAlike (Alike ft tree tab) (wrmagicBody s) (wrmagicBody u) := by
  simp only [wrmagicBody, outBits, ← h.params]
  exact outString_alike _ h

theorem sertreeBody_alike (h : Alike ft true tab s u) :
    RunAlike (Alike ft true tab) (sertreeBody s) (sertreeBody u) := by
  unfold sertreeBody
  rw [← h.theTree]
  split
  · rfl
  · exact outString_alike _ h

theorem mktableBody_alike (h : Alike ft true tab s u) :
    RunAlike (Alike ft true true) (mktableBody s) (mktableBody u) := by
  have hd := h.dropTab
  unfold mktableBody
  simp only [← hd.theTree]
  split
  · rfl
  · rename_i t _
    refine ⟨rfl, ?_, hd.ftV, hd.treeV, rfl⟩
    have : ∀ s : State, ({ s with ct := codeTable t, tabV := true } : State).visible =
        { s.visible with ct := codeTable t, tabV := true } := fun _ => rfl
    rw [this, this, hd.vis]

theorem putCode_alike (sym : Nat) (h : Alike ft tree true s u) :
    RunAlike (Alike ft tree true) (putCode sym s) (putCode sym u) := by
  unfold putCode
  rw [← h.ct]
  split
  · rfl
  · exact .raise _ _ h.vis
  · exact outString_alike _ h

theorem encLoop_alike (n : Nat) (h : Alike ft tree true s u) :
    RunAlike (Alike ft tree true) (encLoop n s) (encLoop n u) := by
  induction n generalizing s u with
  | zero => rfl
  | succ n ih =>
    refine (inMore_alike h).andThen fun more s u h => ?_
    cases more with
    | false => exact ⟨rfl, h⟩
    | true =>
      refine (inBits_alike 8 h).andThen fun v s u h => ?_
      cases v with
      | none => rfl
      | some b => exact (putCode_alike b h).andThen fun _ _ _ h => ih h

theorem encpayBody_alike (h : Alike ft tree true s u) :
    RunAlike (Alike ft tree true) (encpayBody s) (encpayBody u) := by
  refine (inRewind_alike h).andThen fun _ s u h => ?_
  rw [← h.inp]
  exact (encLoop_alike _ h).andThen fun _ _ _ h => putCode_alike _ h

theorem rdmagicBody_alike (h : Alike ft tree tab s u) :
    RunAlike (Alike ft tree tab) (rdmagicBody s) (rdmagicBody u) := by
  refine (inRewind_alike h).andThen fun _ s u h => (inBits_alike 32 h).andThen fun m s u h => ?_
  cases m with
  | none => exact .raise _ _ h.vis
  | some m =>
    simp only [← h.params]
    split
    · exact .raise _ _ h.vis
    · exact ⟨rfl, h⟩

theorem desNode_alike (d n : Nat) (h : Alike ft tree tab s u) :
    RunAlike (Alike ft tree tab) (desNode d n s) (desNode d n u) := by
  induction d generalizing n s u with
  | zero => rfl
  | succ d ih =>
    refine (inBit_alike h).andThen fun tag s u h => ?_
    cases tag with
    | none => exact .raise _ _ h.vis
    | some tag =>
      simp only
      split
      · exact .raise _ _ h.vis
      · split
        · exact (ih _ h).andThen fun _ _ _ h => (ih _ h).andThen fun _ _ _ h => ⟨rfl, h⟩
        · refine (inBits_alike 9 h).andThen fun v s u h => ?_
          cases v with
          | none => exact .raise _ _ h.vis
          | some v =>
            simp only
            split
            · exact .raise _ _ h.vis
            · exact ⟨rfl, h⟩

theorem destreeBody_alike (h : Alike ft tree tab s u) :
    RunAlike (Alike ft true false) (destreeBody s) (destreeBody u) := by
  refine (desNode_alike _ _ h.dropTree).andThen fun r s u h => ⟨rfl, ?_, h.ftV, rfl, h.tabV⟩
  have : ∀ s : State, ({ s with
      node := preorderCells 0 r.1, root := 0, nnodes := BitVec.ofNat 10 r.2, treeV := true } : State).visible =
      { s.visible with
        node := preorderCells 0 r.1, root := 0, nnodes := BitVec.ofNat 10 r.2, treeV := true } := fun _ => rfl
  rw [this, this, h.vis]

theorem decLoop_alike (n : Nat) (root t : CodeTree) (h : Alike ft tree tab s u) :
    RunAlike (Alike ft tree tab) (decLoop n root t s) (decLoop n root t u) := by
  induction n generalizing t s u with
  | zero => rfl
  | succ n ih =>
    cases t with
    | leaf sym =>
      unfold decLoop
      split
      · exact ⟨rfl, h⟩
      · exact (outString_alike _ h).andThen fun _ _ _ h => ih _ h
    | node l r =>
      refine (inBit_alike h).andThen fun b s u h => ?_
      cases b with
      | none => exact .raise _ _ h.vis
      | some b => exact ih _ h

theorem decpayBody_alike (h : Alike ft true tab s u) :
    RunAlike (Alike ft true tab) (decpayBody s) (decpayBody u) := by
  unfold decpayBody
  simp only [← h.theTree, decBound, ← h.inp]
  split
  · rfl
  · split
    · exact .raise _ _ h.vis
    · exact decLoop_alike _ _ _ h

theorem encodeBody_alike (h : Alike ft tree tab s u) :
    RunAlike (Alike true true true) (encodeBody s) (encodeBody u) :=
  (clrBody_alike h).andThen fun _ _ _ h => (countBody_alike h).andThen fun _ _ _ h =>
    (buildBody_alike h).andThen fun _ _ _ h => (wrmagicBody_alike h).andThen fun _ _ _ h =>
      (sertreeBody_alike h).andThen fun _ _ _ h => (mktableBody_alike h).andThen fun _ _ _ h => encpayBody_alike h

theorem decodeBody_alike (h : Alike ft tree tab s u) :
    RunAlike (Alike false true false) (decodeBody s) (decodeBody u) :=
  (clrBody_alike h).andThen fun _ _ _ h => (rdmagicBody_alike h).andThen fun _ _ _ h =>
    (destreeBody_alike h).andThen fun _ _ _ h => decpayBody_alike h

/-- Runs that end alike leave the block alike. -/
theorem complete_alike {R : State → State → Prop} {r q : Run Unit} (h : RunAlike R r q)
    (hR : ∀ s u, R s u → s.visible = u.visible) : visibleOutcome (complete r) = visibleOutcome (complete q) := by
  cases r <;> cases q <;> simp only [RunAlike] at h
  · rename_i s b u
    have := hR _ _ h.2
    have hv : ∀ s : State, ({ s with run := .ready } : State).visible = { s.visible with run := .ready } := fun _ => rfl
    simp only [complete, visibleOutcome]
    rw [hv, hv, this]
  · simp only [complete, visibleOutcome, h]
  · simp only [complete, h]

end Sys2Proof.Machine
end

