-- ==== Sys2Proof/Tests/Slice0.lean ====
section
/-! SUPPORT. The model's own tests. Expected results come from `95_test_vectors.md` (V1 to V43) and from the
encodings of `30_encoding.md`; the second half shows a state that meets the hypotheses of each statement. -/

-- One theorem at a time: each kernel evaluation would otherwise hold a thread of its own.
set_option Elab.async false

namespace Sys2Proof.Tests

open Sys2Proof Sys2Proof.Machine

/-! ### Decoding: R81's words written out bit by bit -/

theorem test_decode_single_steps :
    [[0b00000001#8], [0b00000010#8], [0b00000011#8], [0b00000100#8], [0b00000101#8], [0b00000110#8], [0b00000111#8],
      [0b00001000#8], [0b00001001#8], [0b00001010#8]].map decode =
    [.command .clr [], .command .count [], .command .build [], .command .mktable [], .command .wrmagic [],
      .command .sertree [], .command .encpay [], .command .rdmagic [], .command .destree [], .command .decpay []] := by
  decide

theorem test_decode_composites :
    decode [0b00010000#8] = .command .encode [] ∧ decode [0b00010001#8] = .command .decode [] := by decide

theorem test_decode_reserved :
    decode [0x00#8] = .reserved 0x00 [] ∧ decode [0x0B#8] = .reserved 0x0B [] ∧ decode [0x0F#8] = .reserved 0x0F [] ∧
      decode [0x12#8] = .reserved 0x12 [] ∧ decode [0xFF#8] = .reserved 0xFF [] := by decide

theorem test_decode_nothing : decode [] = .noWord := by decide

/-- The programs P2, P4 and P7 of `95_test_vectors.md`. -/
theorem test_programs :
    decodeProgram [0x01, 0x02, 0x03, 0x05, 0x06, 0x04, 0x07] =
      some [.clr, .count, .build, .wrmagic, .sertree, .mktable, .encpay] ∧
    encodeProgram [.decode, .count, .clr] = [0x11, 0x02, 0x01] ∧
    encodeProgram [.clr, .rdmagic, .destree, .mktable, .encpay] = [0x01, 0x08, 0x09, 0x04, 0x07] := by decide

theorem test_table_word : decodeTableWord 8 0x0A = some .decpay ∧ decodeTableWord 8 0x0B = none := by decide

theorem test_assemble :
    assemble ['C', 'L', 'R', ' ', ';', ' ', 'x', '\n', 'B', 'U', 'I', 'L', 'D', '\n'] = some [.clr, .build] ∧
      assemble ['C', 'L', 'Q', '\n'] = none := by decide

/-! ### Well-formedness: an ill-formed term for each check -/

theorem test_wf_reserved_words :
    wordWf 0x00 = false ∧ wordWf 0x0B = false ∧ wordWf 0x12 = false ∧ wordWf 0xFF = false := by decide

theorem test_wf_command_words : ∀ i ∈ Instr.all, wordWf (opcode i) = true ∧ i.wf = true := by decide

theorem test_wf_count_width : countWidthWf (some 0) = false ∧ countWidthWf (some 1) = true := by decide

theorem test_wf_in_pos : inPosWf [0x40] 9 = false ∧ inPosWf [0x40] 8 = true := by decide

theorem test_wf_tree_symbol : (CodeTree.leaf 257).wf = false ∧ (CodeTree.leaf 256).wf = true := by decide

/-- A tree with `n` internal nodes, its leaves counting down: a chain. -/
def chain : Nat → CodeTree
  | 0 => .leaf 256
  | n + 1 => .node (.leaf (BitVec.ofNat 9 n)) (chain n)

theorem test_wf_tree_size : (chain 257).wf = false ∧ (chain 256).wf = true := by decide +kernel

/-! ### States for the tests -/

/-- The block after reset with an input and the test vectors' parameters. -/
def box (bytes : List Byte) : State :=
  { State.reset with
    params := { magic := 0x736, countWidth := some 64 }, inp := { bytes := bytes, pos := 0, errors := [] } }

/-- A frequency table with the given cells. -/
def table (cells : List (Nat × Nat)) : List Nat :=
  cells.foldl (fun c e => c.set e.1 e.2) (List.replicate 257 0)

/-- A code table with the given cells: symbol, length, value. -/
def codes (cells : List (Nat × Nat × Nat)) : List (Option CodeCell) :=
  cells.foldl (fun c e => c.set e.1 (some { len := BitVec.ofNat 9 e.2.1, val := BitVec.ofNat 256 e.2.2 }))
    (List.replicate 257 none)

/-- The block with a valid frequency table. -/
def counted (cells : List (Nat × Nat)) (bytes : List Byte) : State :=
  { box bytes with ftV := true, cnt := table cells }

/-- The block with a valid tree in the cells given. -/
def planted (node : List NodeCell) (bytes : List Byte) : State :=
  { box bytes with treeV := true, node := node, root := 0, nnodes := BitVec.ofNat 10 node.length }

/-- The block with a valid code table. -/
def coded (cells : List (Nat × Nat × Nat)) (bytes : List Byte) : State :=
  { box bytes with tabV := true, ct := codes cells }

/-- The cells of V17: `Node(Leaf 65, Node(Leaf 66, Leaf 256))` numbered in pre-order. -/
def cells17 : List NodeCell := [.internal 1 2, .leaf 65, .internal 3 4, .leaf 66, .leaf 256]

/-- The tree of V1. -/
def tree1 : CodeTree := .node (.leaf 65) (.node (.leaf 66) (.leaf 256))

/-- The next state an outcome holds, if it is one. -/
def resultOf (o : Host.Outcome State Fault Refusal) : Option State :=
  match o with
  | .next s => some s
  | .fault _ => none
  | .refused _ => none

/-- `STATUS`, `CAUSE`, `FINFO`, `IN.pos` after a step. -/
def report (o : Host.Outcome State Fault Refusal) : Option (Word × Nat × Word × Nat) :=
  (resultOf o).map fun t => (t.readReg 1, t.cause.toNat, t.finfo, t.inp.pos)

/-- The packed output after a step. -/
def packed (o : Host.Outcome State Fault Refusal) : Option (List Byte) := (resultOf o).map fun t => pack t.out.bits

/-! ### One step of each command -/

/-- V40: CLR leaves `FAULT`. -/
theorem test_clr :
    report (exec .clr { box [0x41] with run := .fault, cause := 5, finfo := 3 }) = some (0x00, 0, 0, 0) := by
  decide +kernel

/-- V40: any other command is lost in `FAULT`. -/
theorem test_count_lost :
    report (exec .count { box [0x41] with run := .fault, cause := 5, finfo := 3 }) = some (0x02, 5, 3, 0) := by
  decide +kernel

/-- V1. -/
theorem test_count :
    (resultOf (exec .count (box [65, 65, 66]))).map (fun t => (t.readReg 1, t.cnt)) =
      some (0x04, table [(65, 2), (66, 1), (256, 1)]) := by decide +kernel

/-- V12. -/
theorem test_count_overflow :
    report (exec .count { box [7, 7, 7, 7] with params := { magic := 0, countWidth := some 2 } }) =
      some (0x02, 6, 7, 32) := by decide +kernel

/-- V1. -/
theorem test_build :
    (resultOf (exec .build (counted [(65, 2), (66, 1), (256, 1)] []))).map
        (fun t => (t.node, t.weight, t.readReg 4, t.readReg 5, t.readReg 1)) =
      some ([.leaf 65, .leaf 66, .leaf 256, .internal 1 2, .internal 0 3], [2, 1, 1, 2, 4], 4, 5, 0x0C) := by
  decide +kernel

/-- V6: the tie-break alone shapes the tree. -/
theorem test_build_ties :
    (resultOf (exec .build (counted [(1, 1), (2, 1), (3, 1), (4, 1), (256, 1)] []))).map (·.node) =
      some [.leaf 1, .leaf 2, .leaf 3, .leaf 4, .leaf 256, .internal 0 1, .internal 2 3, .internal 4 5,
        .internal 6 7] := by decide +kernel

/-- V1, on V17's cells. -/
theorem test_mktable :
    (resultOf (exec .mktable (planted cells17 []))).map (fun t => (t.ct, t.readReg 1)) =
      some (codes [(65, 1, 0), (66, 2, 2), (256, 2, 3)], 0x18) := by decide +kernel

/-- V21: of a repeated symbol the last leaf keeps its code. -/
theorem test_mktable_repeated :
    (resultOf (exec .mktable (planted [.internal 1 2, .leaf 65, .internal 3 4, .leaf 65, .leaf 256] []))).map (·.ct) =
      some (codes [(65, 2, 2), (256, 2, 3)]) := by decide +kernel

/-- P2: the magic field. -/
theorem test_wrmagic : packed (exec .wrmagic (box [])) = some [0x00, 0x00, 0x07, 0x36] := by decide +kernel

/-- V17: the tree field of V1. -/
theorem test_sertree : packed (exec .sertree (planted cells17 [])) = some [0x88, 0x31, 0x09, 0x00] := by decide +kernel

/-- V20. -/
theorem test_sertree_refused : report (exec .sertree (box [])) = some (0x02, 5, 6, 0) := by decide +kernel

/-- V1: the payload `0 0 10 11`. -/
theorem test_encpay :
    (resultOf (exec .encpay (coded [(65, 1, 0), (66, 2, 2), (256, 2, 3)] [65, 65, 66]))).map (fun t => t.out.bits) =
      some [false, false, true, false, true, true] := by decide +kernel

/-- V42: the sentinel has no code; the source byte was written. -/
theorem test_encpay_no_code :
    (resultOf (exec .encpay (coded [(65, 1, 0), (66, 1, 1)] [65]))).map (fun t => (t.cause.toNat, t.finfo, t.out.bits)) =
      some (7, 256, [false]) := by decide +kernel

/-- V31 against V1's magic field. -/
theorem test_rdmagic :
    report (exec .rdmagic (box [0x00, 0x00, 0x07, 0x36])) = some (0x00, 0, 0, 32) ∧
      report (exec .rdmagic (box [0x00, 0x00, 0x07, 0x37, 0x88])) = some (0x02, 1, 0, 32) := by decide +kernel

/-- V32. -/
theorem test_rdmagic_short : report (exec .rdmagic (box [0x00, 0x00, 0x07])) = some (0x02, 1, 1, 24) := by
  decide +kernel

/-- V17. -/
theorem test_destree :
    (resultOf (exec .destree (box [0x88, 0x31, 0x09, 0x00]))).map
        (fun t => (t.node, t.readReg 4, t.readReg 5, t.inp.pos, t.readReg 1)) =
      some (cells17, 0, 5, 32, 0x08) := by decide +kernel

/-- V19: the value 257 is no symbol. -/
theorem test_destree_symbol : report (exec .destree (box [0x40, 0x40])) = some (0x02, 2, 2, 10) := by decide +kernel

/-- V30: the payload runs out before the sentinel. -/
theorem test_decpay_exhausted :
    report (exec .decpay (planted cells17 [0x28])) = some (0x0A, 2, 3, 8) ∧
      packed (exec .decpay (planted cells17 [0x28])) = some [0x41, 0x41, 0x42, 0x42, 0x41, 0x41] := by decide +kernel

/-- V28 and V2d: a root that is a leaf. -/
theorem test_decpay_leaf :
    report (exec .decpay (planted [.leaf 65] [0xFF])) = some (0x0A, 2, 4, 0) ∧
      report (exec .decpay (planted [.leaf 256] [0xFF])) = some (0x08, 0, 0, 0) := by decide +kernel

/-- V1, program P1. -/
theorem test_encode :
    report (exec .encode (box [0x41, 0x41, 0x42])) = some (0x1C, 0, 0, 24) ∧
      packed (exec .encode (box [0x41, 0x41, 0x42])) =
        some [0x00, 0x00, 0x07, 0x36, 0x88, 0x31, 0x09, 0x00, 0x2C] := by decide +kernel

/-- V43: the 40th write to `OUT` fails; `OutReset` is the access before the first write. -/
theorem test_encode_io_failure :
    (resultOf (exec .encode { box [0x41, 0x41, 0x42] with
        out := { bits := [], errors := List.replicate 40 false ++ [true] } })).map
      (fun t => (t.readReg 1, t.cause.toNat, t.finfo, t.out.bits.length)) = some (0x0E, 3, 1, 39) := by decide +kernel

/-- V1t: pad bits set and two more bytes. -/
theorem test_decode :
    report (exec .decode (box [0x00, 0x00, 0x07, 0x36, 0x88, 0x31, 0x09, 0x00, 0x2F, 0xFF, 0xAA])) =
        some (0x08, 0, 0, 70) ∧
      packed (exec .decode (box [0x00, 0x00, 0x07, 0x36, 0x88, 0x31, 0x09, 0x00, 0x2F, 0xFF, 0xAA])) =
        some [0x41, 0x41, 0x42] := by decide +kernel

/-- V35: the 514th tag does not fit. -/
theorem test_decode_capacity :
    report (exec .decode (box ([0x00, 0x00, 0x07, 0x36] ++ List.replicate 65 0xFF))) = some (0x02, 8, 0, 546) := by
  decide +kernel

/-- V37 and V38, through the host port. -/
theorem test_step :
    report (step { box [] with host := [.write 0 0x12] }) = some (0x02, 5, 0x12, 0) ∧
      report (step { box [] with host := [.write 0 0xABCDEF02] }) = some (0x04, 0, 0, 0) ∧
      report (step ((box []).withFetchWord 8 0x03)) = some (0x02, 5, 3, 0) := by decide +kernel

/-- R200: reset in `FAULT`; the parameters and the bytes stay. -/
theorem test_reset :
    report (step { coded [] [0x41] with run := .fault, cause := 3, finfo := 1, host := [.reset] }) =
      some (0x00, 0, 0, 0) := by decide +kernel

/-! ### States that meet the hypotheses of the statements

Each theorem is named after its statement and shows its premises met together, at the ends of their ranges. -/

/-- The run state an outcome's next state is in, if it has one. -/
def runOf (o : Host.Outcome State Fault Refusal) : Option RunState := (resultOf o).map (·.run)

/-- A state whose next port accesses have the answers given. -/
def answered (s : State) (inErrors outErrors : List Bool) : State :=
  { s with inp := { s.inp with errors := inErrors }, out := { s.out with errors := outErrors } }

/-- The answers of an environment that grants `k` accesses and fails the next. -/
def failingAfter (k : Nat) : List Bool := List.replicate k false ++ [true]

/-- The block with all three structures valid: those of V1, its tree in V17's cells. -/
def full (bytes : List Byte) : State :=
  { planted cells17 bytes with
    ftV := true, cnt := table [(65, 2), (66, 1), (256, 1)]
    tabV := true, ct := codes [(65, 1, 0), (66, 2, 2), (256, 2, 3)] }

theorem full_tree : (full []).tree = some tree1 := by decide +kernel

theorem full_table : TableInv (full []) := by unfold TableInv; decide +kernel

theorem full_treeInv : TreeInv (full []) :=
  ⟨tree1, full_tree, by decide +kernel, by decide +kernel, by decide +kernel, by decide +kernel⟩

theorem full_inv : Inv (full []) where
  notBusy := by decide +kernel
  faultRecord := by decide +kernel
  table := fun _ => full_table
  tree := fun _ => full_treeInv
  tab := fun _ => ⟨rfl, fun t ht => by
    rw [full_tree] at ht
    rw [← Option.some.inj ht]
    decide +kernel⟩
  inPos := by decide +kernel
  width := by decide +kernel

theorem met_CommandWordsDecode :
    ∀ op ∈ [0x00#8, 0x0B#8, 0x0F#8, 0x12#8, 0xFF#8],
      op ∉ [0x01#8, 0x02#8, 0x03#8, 0x04#8, 0x05#8, 0x06#8, 0x07#8, 0x08#8, 0x09#8, 0x0A#8, 0x10#8, 0x11#8] := by
  decide

theorem met_ProgramRoundTrip :
    decodeProgram [0x01, 0x11] = some [.clr, .decode] ∧
      ∀ l ∈ [(Instr.clr, none), (Instr.decode, some [';', ' ', 'x'])], ∀ c ∈ (l.2 : Option (List Char)), '\n' ∉ c := by
  decide +kernel

theorem met_StepRunsDecodedCommand :
    ({ box [] with host := [.write 0 0xABCDEF02, .reset] } : State).host = .write 0 0xABCDEF02 :: [.reset] ∧
      decode [commandByte 0xABCDEF02] = .command .count [] := by decide +kernel

theorem met_CmdWriteIssuesLowByte :
    (0xABCDEF02 : Word).extractLsb' 0 8 = (0x00000002 : Word).extractLsb' 0 8 := by decide

theorem met_HostRegisters :
    (box []).run = .ready ∧ ({ box [] with run := .fault } : State).run = .fault ∧ (box []).run ≠ .busy ∧ ({ box [] with run := .busy } : State).run = .busy ∧ 2 ∈ [2, 3, 4, 5] ∧ 5 ∈ [2, 3, 4, 5] ∧
      6 < 7 ∧ 1 ≠ 0 ∧ 6 ≠ 0 ∧ 5 ≤ 5 := by decide +kernel

theorem met_MagicRegisterHardwired :
    runOf (step { box [] with host := [.write 6 0x1234] }) = some .ready := by decide +kernel

theorem met_ReservedOpcodeFaults :
    (box []).run = .ready ∧ decodeOp ((0x00 : Word).extractLsb' 0 8) = none ∧
      decodeOp ((0x0B : Word).extractLsb' 0 8) = none ∧ decodeOp ((0x12 : Word).extractLsb' 0 8) = none ∧
      decodeOp ((0xFFFFFFFF : Word).extractLsb' 0 8) = none := by decide +kernel

theorem met_MissingFlagFaults :
    (box []).run = .ready ∧ (box []).ftV = false ∧ (box []).treeV = false ∧ (box []).tabV = false ∧
      runOf (exec .rdmagic (box [])) = some .fault ∧ runOf (exec .decode (box [])) = some .fault := by decide +kernel

theorem met_FlagsWritten :
    (full []).run = .ready ∧ (full []).ftV = true ∧ (full []).treeV = true ∧
      (∀ i ∈ [Instr.clr, .count, .build, .mktable, .wrmagic, .sertree, .encode], runOf (exec i (full [])) = some .ready) ∧
      (∀ i ∈ [Instr.destree, .rdmagic, .decpay, .decode], runOf (exec i (full [])) = some .fault) ∧
      runOf (exec .destree (full [0x40, 0x00])) = some .ready ∧
      runOf (exec .decode (full [0x00, 0x00, 0x07, 0x36, 0x40, 0x00])) = some .ready ∧
      runOf (exec .count (full [0x41])) = some .ready ∧ runOf (exec .encpay (full [0x41])) = some .ready := by
  decide +kernel

theorem met_FaultsByCommand :
    (box []).run = .ready ∧ runOf (exec .rdmagic (box [])) = some .fault ∧
      runOf (exec .clr { box [] with run := .fault, inp := { bytes := [], pos := 0, errors := [true] } }) =
        some .fault ∧
      runOf (issueReserved 0xFF (box [])) = some .fault ∧ runOf (exec .build (box [])) = some .fault := by
  decide +kernel

theorem met_FaultsByCommand_inv : Inv (box []) where
  notBusy := by decide +kernel
  faultRecord := by decide +kernel
  table := fun h => absurd h (by decide +kernel)
  tree := fun h => absurd h (by decide +kernel)
  tab := fun h => absurd h (by decide +kernel)
  inPos := by decide +kernel
  width := by decide +kernel

theorem met_LostWrites :
    ({ box [] with run := .fault } : State).run = .fault ∧ (0x00#32).extractLsb' 0 8 ≠ 0x01#8 ∧
      (0x02#32).extractLsb' 0 8 ≠ 0x01#8 ∧
      ({ box [] with run := .fault, host := [.write 0 0x11] } : State).host = .write 0 0x11 :: [] ∧
      runOf (step { box [] with run := .fault, host := [.write 0 0x11] }) = some .fault ∧
      runOf (step { box [] with run := .fault, host := [.setIn [0x41] 8] }) = some .fault := by decide +kernel

theorem met_FaultLeftOnlyByClrOrReset :
    runOf (step { full [0x41] with run := .fault, host := [.write 0 0xFF01] }) = some .ready ∧
      runOf (step { full [0x41] with run := .fault, host := [.reset] }) = some .ready := by decide +kernel

theorem met_ClrPortFailure :
    ({ box [] with run := .fault } : State).run = .fault ∧ Instr.decode ≠ .clr ∧
      [true] = true :: [] ∧ quiet [false, false] ∧ quiet [] := by decide +kernel

theorem met_ClrResult :
    ({ full [0x41] with run := .fault, cause := 7, finfo := 256 } : State).run ≠ .busy ∧
      quiet (full [0x41]).inp.errors ∧ quiet (full [0x41]).out.errors := by decide +kernel

theorem met_ResetFromAnyState :
    ({ full [0x41] with run := .busy, host := [.reset, .read 1] } : State).host = .reset :: [.read 1] := by
  decide +kernel

theorem met_CommandsAlwaysEnd : Inv (full []) ∧ Inv (box []) := ⟨full_inv, met_FaultsByCommand_inv⟩

theorem met_StepKeepsInvariant : Inv (full []) ∧ runOf (step (full [])) = some .ready ∧
    runOf (exec .encode (full [])) = some .ready := ⟨full_inv, by decide +kernel, by decide +kernel⟩

theorem met_InvalidContentsUnobservable :
    ({ box [] with node := [.leaf 1], root := 3, weight := [7], live := [true], ct := codes [(1, 2, 3)] } : State).visible =
      (box []).visible := by decide +kernel

theorem met_FrameStreaming :
    runOf (exec .wrmagic (full [])) = some .ready ∧ runOf (exec .sertree (full [])) = some .ready ∧
      runOf (exec .rdmagic (full [0x00, 0x00, 0x07, 0x36])) = some .ready ∧
      runOf (exec .encpay (full [0x41])) = some .ready ∧ runOf (exec .decpay (full [0xC0])) = some .ready ∧
      runOf (exec .decpay (full [])) = some .fault := by decide +kernel

theorem met_FrameBuilding :
    (∀ i ∈ [Instr.count, .build, .mktable], runOf (exec i (full [0x41])) = some .ready) ∧
      runOf (exec .destree (full [0x40, 0x00])) = some .ready ∧ runOf (exec .destree (full [])) = some .fault := by
  decide +kernel

theorem met_FrameWhole :
    (∀ i ∈ [Instr.clr, .encode], runOf (exec i (full [0x41])) = some .ready) ∧
      runOf (exec .decode (full [0x00, 0x00, 0x07, 0x36, 0x40, 0x00])) = some .ready := by decide +kernel

theorem met_NewTreeInvalidatesTable :
    (full [0x40, 0x00]).run = .ready ∧ (full []).ftV = true ∧
      (∀ i ∈ [Instr.build, .destree, .count], runOf (exec i (full [0x40, 0x00])) = some .ready) := by decide +kernel

theorem met_PortPrimitives :
    quiet [false] ∧ (box []).inp.pos = 8 * (box []).inp.bytes.length ∧
      (box [0x40]).inRest = false :: (unpack [0x40]).tail ∧
      (box [0x40]).inRest = [] ++ (box [0x40]).inRest ∧ (box [0x40]).inRest = (box [0x40]).inRest ++ [] ∧
      (box [0x40]).inp.pos ≤ 8 * (box [0x40]).inp.bytes.length ∧ (box [0x40]).inRest.length < 9 := by decide +kernel

/-- The three places of a failing bit: the first, the last of the field, and the access after the last bit. -/
theorem met_PortErrorComesFirst :
    0 < 9 ∧ 0 ≤ (box [0x40]).inRest.length ∧ 8 ≤ (box [0x40]).inRest.length ∧ 8 < 9 ∧
      [true] = List.replicate 0 false ++ true :: [] ∧
      [false, false, false, false, false, false, false, false, true, false] =
        List.replicate 8 false ++ true :: [false] := by decide +kernel

theorem met_BitAndByteOrder :
    quiet (box [0x40, 0x01]).inp.errors ∧ (box [0x40, 0x01]).inp.bytes[0 / 8]? = some 0x40 ∧
      ({ box [0x40, 0x01] with inp := { bytes := [0x40, 0x01], pos := 15, errors := [] } } : State).inp.bytes[15 / 8]? =
        some 0x01 ∧
      8 = 8 * 1 ∧ (box [0x40, 0x01]).inp.bytes[1]? = some 0x01 := by decide +kernel

theorem met_HostBetweenCommands :
    (box []).run ≠ .busy ∧ ({ box [] with run := .fault } : State).run ≠ .busy ∧ 0 ≤ 8 * ([] : List Byte).length ∧
      8 ≤ 8 * [0x41#8].length ∧ ({ box [] with run := .busy } : State).run = .busy ∧ (box []).host = [] := by
  decide +kernel

theorem met_CountResult :
    (box []).run = .ready ∧ quiet (box []).inp.errors ∧ countsFit (box []).params [] ∧
      countsFit { magic := 0, countWidth := some 2 } [7, 7, 7] ∧ countsFit { magic := 0, countWidth := none } [7] := by
  decide +kernel

theorem met_CountOverflow :
    ¬ countsFit { magic := 0, countWidth := some 2 } [7, 7, 7, 7] ∧ ¬ countsFit { magic := 0, countWidth := some 1 } [7, 7] ∧
      runOf (exec .count (box [7, 7])) = some .ready := by decide +kernel

theorem met_BuildResult : (full []).run = .ready ∧ (full []).ftV = true ∧ TableInv (full []) :=
  ⟨by decide +kernel, by decide +kernel, full_table⟩

theorem met_BuildResult_one : TableInv (counted [(256, 1)] []) := by unfold TableInv; decide +kernel

theorem met_BuildWeights : (counted [(256, 1)] []).ftV = true ∧
    runOf (exec .build (counted [(256, 1)] [])) = some .ready ∧ runOf (exec .build (full [])) = some .ready ∧
    (full []).cnt = countTable [65, 66, 65] := by decide +kernel

theorem met_QueueOrder :
    (extractMin { node := [.leaf 1, .leaf 2], weight := [2, 2], live := [true, true] }).map (fun x => (x.1, x.2.1)) =
        some (2, 0) ∧
      ([true, true] : List Bool)[1]? = some true ∧ ([2, 2] : List Nat)[1]? = some 2 ∧
      (resultOf (exec .build (full []))).map (fun t => t.node[3]?) = some (some (.internal 1 2)) := by decide +kernel

/-- The greedy clause: node 3 is the first merge, and node 0 the one live node beside its children. -/
theorem met_QueueOrder_greedy :
    0 ≠ (1 : NodeIdx).toNat ∧ 0 ≠ (2 : NodeIdx).toNat ∧ 0 < 3 ∧
      (resultOf (exec .build (full []))).map (fun t => t.node.take 3) =
        some [.leaf 65, .leaf 66, .leaf 256] ∧
      ∀ k, k < 3 → ∀ l r : NodeIdx, [NodeCell.leaf 65, .leaf 66, .leaf 256][k]? ≠ some (.internal l r) := by
  refine ⟨by decide, by decide, by decide, by decide +kernel, fun k hk l r => ?_⟩
  match k, hk with
  | 0, _ => simp
  | 1, _ => simp
  | 2, _ => simp

theorem met_BuildOneSymbol :
    (256 : Sym).toNat ≤ 256 ∧ (0 : Sym).toNat ≤ 256 ∧ 1 ≠ 0 ∧
      (counted [(256, 1)] []).cnt = (List.replicate Config.nsym 0).set (256 : Sym).toNat 1 ∧
      (counted [(0, 9)] []).cnt = (List.replicate Config.nsym 0).set (0 : Sym).toNat 9 := by decide +kernel

theorem met_BuildEmptyTable :
    (counted [] []).run = .ready ∧ (counted [] []).ftV = true ∧
      (counted [] []).cnt = List.replicate Config.nsym 0 ∧ runOf (exec .build (full [])) = some .ready := by
  decide +kernel

theorem met_MktableResult :
    (full []).run = .ready ∧ (full []).treeV = true ∧ (full []).tree = some tree1 ∧ tree1.wf = true ∧
      (planted [.leaf 256] []).tree = some (.leaf 256) ∧ (0 : Sym).toNat ≤ 256 ∧ (256 : Sym).toNat ≤ 256 ∧
      (256, [true, true]) ∈ tree1.paths ∧ tree1.leaves.count 256 = 1 ∧
      (codeTable tree1)[256]? = some (some { len := 2, val := 3 }) := by decide +kernel

theorem met_CodesPrefixFree :
    runOf (exec .mktable (full [])) = some .ready ∧ 65 ≠ 256 ∧
      codeWord (codeTable tree1) 65 = some [false] ∧ codeWord (codeTable tree1) 256 = some [true, true] := by
  decide +kernel

theorem met_CodeWidthsSuffice :
    (chain 256).nodes = 513 ∧ (256, List.replicate 256 true) ∈ (chain 256).paths ∧
      (CodeTree.leaf 256).nodes ≤ 513 ∧ (256, []) ∈ (CodeTree.leaf 256).paths ∧
      (resultOf (exec .build (counted [(256, 1)] []))).map (·.tree) = some (some (.leaf 256)) := by decide +kernel

theorem met_SertreeResult :
    (full []).tree = some tree1 ∧ quiet (full []).out.errors ∧ 0 < (ser tree1).length ∧ 31 < (ser tree1).length ∧
      List.replicate 31 false ++ [true] = List.replicate 31 false ++ true :: [] := by decide +kernel

/-- The same abstract tree in BUILD's cells and in DESTREE's. -/
theorem met_SertreeLength :
    ({ full [] with node := [.leaf 65, .leaf 66, .leaf 256, .internal 1 2, .internal 0 3], root := 4 } : State).tree =
      some tree1 ∧ (full []).tree = some tree1 := by decide +kernel

theorem met_TreeFieldSelfDelimiting :
    ser tree1 ++ [true] = ser tree1 ++ [true] ∧ (chain 256).nodes ≤ 513 ∧
      ∀ sym ∈ (chain 256).leaves, sym.toNat ≤ 256 := by
  refine ⟨rfl, by decide +kernel, ?_⟩
  have h : (chain 256).leaves.all (fun sym => decide (sym.toNat ≤ 256)) = true := by decide +kernel
  exact fun sym hs => of_decide_eq_true (List.all_eq_true.1 h sym hs)

theorem met_DestreeIsDes :
    0 ≤ 513 ∧ 512 < 513 ∧ ([] : List Bool).length < 9 ∧ (bitsOf 8 0).length < 9 ∧ (bitsOf 9 257).length = 9 ∧
      256 < valOf (bitsOf 9 257) ∧ 256 < valOf (bitsOf 9 511) ∧ valOf (bitsOf 9 256) ≤ 256 ∧
      (box []).run = .ready ∧ quiet (box []).inp.errors := by decide +kernel

theorem met_DestreeResult :
    (box [0x88, 0x31, 0x09, 0x00]).run = .ready ∧ quiet (box [0x88, 0x31, 0x09, 0x00]).inp.errors ∧
      tree1.wf = true ∧ (box [0x88, 0x31, 0x09, 0x00]).inRest = ser tree1 ++ [] ∧
      (box [0x40, 0x3F]).inRest = ser (.leaf 256) ++ List.replicate 6 true := by decide +kernel

theorem met_DestreeNumbering :
    runOf (exec .destree (box [0x88, 0x31, 0x09, 0x00])) = some .ready ∧
      runOf (exec .destree (box [0x40, 0x00])) = some .ready ∧
      cells17[0]? = some (.internal 1 2) := by decide +kernel

theorem met_TreeRoundTrip :
    TreeInv (full []) ∧ (full []).tree = some tree1 ∧
      (resultOf (exec .sertree (full []))).map (·.out.bits) = some ((full []).out.bits ++ ser tree1) ∧
      (box [0x88, 0x31, 0x09, 0x00]).inRest = ser tree1 ++ [] :=
  ⟨full_treeInv, full_tree, by decide +kernel, by decide +kernel⟩

theorem met_WrmagicResult :
    (box []).run = .ready ∧ quiet (box []).out.errors ∧ 0 < 32 ∧ 31 < 32 ∧
      List.replicate 31 false ++ [true] = List.replicate 31 false ++ true :: [] := by decide +kernel

theorem met_EncpayResult :
    (full [0x41]).run = .ready ∧ (full [0x41]).tabV = true ∧ quiet (full [0x41]).inp.errors ∧
      quiet (full [0x41]).out.errors ∧ payload (full [0x41]).ct [0x41] = some [false, true, true] ∧
      payload (full []).ct [] = some [true, true] := by decide +kernel

/-- `OUT` failing at the last bit of the last byte's code word, and at the last bit of the sentinel's. -/
theorem met_EncpayResult_out :
    (answered (full [0x41, 0x42]) [] (failingAfter 2)).run = .ready ∧
      (answered (full [0x41, 0x42]) [] (failingAfter 2)).tabV = true ∧
      [0x41#8, 0x42#8] = [0x41] ++ 0x42 :: [] ∧ codesOf (full []).ct [0x41] = some [false] ∧
      codeWord (full []).ct (0x42 : Byte).toNat = some [true, false] ∧ 1 < [true, false].length ∧
      quiet (([] : List Bool).take (9 * ([0x41#8].length + 1) + 1)) ∧
      failingAfter 2 = List.replicate ([false].length + 1) false ++ true :: [] ∧
      codeWord (full []).ct 256 = some [true, true] ∧ 1 < [true, true].length ∧
      quiet (([] : List Bool).take (9 * [0x41#8].length + 2)) := by decide +kernel

/-- `IN` failing at the rewind, at the last bit of the first byte, and at the `InMore` after the last byte. -/
theorem met_EncpayResult_in :
    failingAfter 0 = true :: [] ∧
      ((0 < (full [0x41]).inp.bytes.length ∧ 8 ≤ 8) ∨ (0 = (full [0x41]).inp.bytes.length ∧ 8 = 0)) ∧
      ((1 < (full [0x41]).inp.bytes.length ∧ 0 ≤ 8) ∨ (1 = (full [0x41]).inp.bytes.length ∧ 0 = 0)) ∧
      codesOf (full []).ct ((full [0x41]).inp.bytes.take 0) = some [] ∧
      codesOf (full []).ct ((full [0x41]).inp.bytes.take 1) = some [false] ∧
      quiet (([] : List Bool).take [false].length) ∧
      (answered (full [0x41]) (failingAfter 9) []).inp.errors = List.replicate (9 * 0 + 8 + 1) false ++ true :: [] ∧
      (answered (full [0x41]) (failingAfter 10) []).inp.errors = List.replicate (9 * 1 + 0 + 1) false ++ true :: [] := by
  decide +kernel

theorem met_NoCodeFault :
    [0x41#8, 0x43#8] = [0x41] ++ 0x43 :: [] ∧ codesOf (full []).ct [0x41] = some [false] ∧
      (full []).ct[(0x43 : Byte).toNat]? = some none ∧
      codesOf (coded [(65, 1, 0)] []).ct [0x41] = some [false] ∧ (coded [(65, 1, 0)] []).ct[256]? = some none ∧
      runOf (exec .encode { box [] with out := { bits := [], errors := [true] } }) = some .fault := by decide +kernel

theorem met_PayloadLength :
    payload (full []).ct [0x41] = some [false, true, true] ∧ (full []).cnt = countTable [65, 65, 66] ∧
      runOf (exec .build (full [])) = some .ready ∧
      ((resultOf (exec .build (full []))).map fun t => runOf (exec .mktable t)) = some (some .ready) ∧
      (full [0x41]).tabV = true ∧ (full [0x41]).inp.bytes = (coded [] [0x41]).inp.bytes ∧
      runOf (exec .encpay (full [0x41])) = some .ready := by decide +kernel

/-- Four bytes and three; the failing access the rewind, the last bit of the field, and the read after the end. -/
theorem met_RdmagicResult :
    4 ≤ (box [0, 0, 7, 0x36]).inp.bytes.length ∧ (box [0, 0, 7]).inp.bytes.length < 4 ∧
      valOf ((unpack (box [0, 0, 7, 0x36]).inp.bytes).take 32) = (box []).params.magic.toNat ∧
      valOf ((unpack (box [0, 0, 7, 0x37]).inp.bytes).take 32) ≠ (box []).params.magic.toNat ∧
      0 ≤ 8 * (box []).inp.bytes.length + 1 ∧ 32 ≤ 8 * (box [0, 0, 7, 0x36]).inp.bytes.length + 1 ∧
      25 ≤ 8 * (box [0, 0, 7]).inp.bytes.length + 1 ∧
      List.replicate 32 false ++ [true] = List.replicate 32 false ++ true :: [] := by decide +kernel

theorem met_DecpayWalk :
    (full [0x2C]).tree = some (.node (.leaf 65) (.node (.leaf 66) (.leaf 256))) ∧
      walkBits tree1 tree1 (full [0x2C]).inRest = ([0x41, 0x41, 0x42], some [false, false]) ∧
      walkBits tree1 tree1 (full [0x28]).inRest = ([0x41, 0x41, 0x42, 0x42, 0x41, 0x41], none) ∧
      walkBits tree1 tree1 (full []).inRest = ([], none) := by decide +kernel

/-- `IN` failing at the first read, in the middle of a code word, and at the read after the last bit. -/
theorem met_DecpayWalk_in :
    (answered (full [0x28]) (failingAfter 0) []).tree = some tree1 ∧
      walkBits tree1 tree1 ((full [0x28]).inRest.take 0) = ([], none) ∧
      walkBits tree1 tree1 ((full [0x28]).inRest.take 3) = ([0x41, 0x41], none) ∧
      walkBits tree1 tree1 ((full [0x28]).inRest.take 8) = ([0x41, 0x41, 0x42, 0x42, 0x41, 0x41], none) ∧
      8 ≤ (full [0x28]).inRest.length ∧ quiet (([] : List Bool).take (8 * 6)) ∧
      failingAfter 8 = List.replicate 8 false ++ true :: [] := by decide +kernel

/-- `OUT` failing at the first bit of the first byte, and at the last bit of the last. -/
theorem met_DecpayWalk_out :
    0 < (full [0x28]).inRest.length ∧ 7 < (full [0x28]).inRest.length ∧ 0 < 8 ∧ 7 < 8 ∧
      walkBits tree1 tree1 ((full [0x28]).inRest.take 0) = ([], none) ∧
      walkBits tree1 tree1 ((full [0x28]).inRest.take (0 + 1)) = ([] ++ [0x41], none) ∧
      walkBits tree1 tree1 ((full [0x28]).inRest.take 7) = ([0x41, 0x41, 0x42, 0x42, 0x41], none) ∧
      walkBits tree1 tree1 ((full [0x28]).inRest.take (7 + 1)) = ([0x41, 0x41, 0x42, 0x42, 0x41] ++ [0x41], none) ∧
      quiet (([] : List Bool).take (7 + 1)) ∧
      (answered (full [0x28]) [] (failingAfter 47)).out.errors = List.replicate (8 * 5 + 7) false ++ true :: [] := by
  decide +kernel

theorem met_DecpayLeafRoot :
    (planted [.leaf 256] []).tree = some (.leaf 256) ∧ (planted [.leaf 255] []).tree = some (.leaf 255) ∧
      (255 : Sym) ≠ 256 := by decide +kernel

theorem met_DecodedBytesAreLeaves :
    (full [0x2C]).tree = some tree1 ∧ tree1.wf = true ∧ runOf (exec .decpay (full [0x2C])) = some .ready := by
  decide +kernel

theorem met_PayloadRoundTrip :
    (full [0x2C]).tree = some tree1 ∧ tree1.wf = true ∧
      payload (codeTable tree1) [65, 65, 66] = some [false, false, true, false, true, true] ∧
      (full [0x2C]).inRest = [false, false, true, false, true, true] ++ [false, false] ∧
      payload (codeTable (.leaf 256)) [] = some [] := by decide +kernel

theorem met_EncodeResult :
    (box []).run = .ready ∧ quiet (box []).inp.errors ∧ quiet (box []).out.errors ∧
      countsFit (box []).params (box []).inp.bytes ∧ countsFit (box []).params [65, 65, 66] := by decide +kernel

theorem met_DecodeResult :
    (CodeTree.leaf 256).wf = true ∧ payload (codeTable (.leaf 256)) [] = some [] ∧
      unpack (box [0x00, 0x00, 0x07, 0x36, 0x40, 0x3F]).inp.bytes =
        container 0x736 (.leaf 256) [] ++ List.replicate 6 true ∧
      payload (codeTable tree1) [65, 65, 66] = some [false, false, true, false, true, true] ∧
      unpack (box [0x00, 0x00, 0x07, 0x36, 0x88, 0x31, 0x09, 0x00, 0x2C]).inp.bytes =
        container 0x736 tree1 [false, false, true, false, true, true] ++ [false, false] := by decide +kernel

theorem met_MagicMismatchStopsDecode :
    (box []).run = .ready ∧ quiet (box []).inp.errors ∧ quiet (box []).out.errors ∧
      (box [0, 0, 7]).inp.bytes.length < 4 ∧
      valOf ((unpack (box [0, 0, 7, 0x37]).inp.bytes).take 32) ≠ (box []).params.magic.toNat := by decide +kernel

theorem met_CompositesAreSequences : (box [0x41]).run = .ready := by decide +kernel

/-- V1 and its container, with the pad bits and with V1t's bytes. -/
theorem met_CodecRoundTrip :
    runOf (exec .encode (box [0x41, 0x41, 0x42])) = some .ready ∧
      (resultOf (exec .encode (box [0x41, 0x41, 0x42]))).map (fun t => pack t.out.bits) =
        some (box [0x00, 0x00, 0x07, 0x36, 0x88, 0x31, 0x09, 0x00, 0x2C]).inp.bytes ∧
      (resultOf (exec .encode (box [0x41, 0x41, 0x42]))).map (fun t => t.out.bits ++ [true, true]) =
        some (unpack (box [0x00, 0x00, 0x07, 0x36, 0x88, 0x31, 0x09, 0x00, 0x2F]).inp.bytes) ∧
      (box [0x00]).params.magic = (box []).params.magic := by decide +kernel

theorem met_EmptySourceContainer :
    (box []).run = .ready ∧ quiet (box []).inp.errors ∧ quiet (box []).out.errors ∧ (box []).inp.bytes = [] := by
  decide +kernel

/-- COUNT: the rewind, the last bit of a byte, the `InMore` at the end. DESTREE: the first tag, the last bit of a
symbol, and the tag after the last bit of the input. -/
theorem met_CountDestreePortFailure :
    failingAfter 0 = true :: [] ∧
      ((0 < (box [7]).inp.bytes.length ∧ 8 ≤ 8) ∨ (0 = (box [7]).inp.bytes.length ∧ 8 = 0)) ∧
      ((1 < (box [7]).inp.bytes.length ∧ 0 ≤ 8) ∨ (1 = (box [7]).inp.bytes.length ∧ 0 = 0)) ∧
      countsFit (box [7]).params ((box [7]).inp.bytes.take 0) ∧ countsFit (box [7]).params ((box [7]).inp.bytes.take 1) ∧
      failingAfter 10 = List.replicate (9 * 1 + 0 + 1) false ++ true :: [] ∧
      desBits ((box [0x40]).inRest.take 0) 0 = .malformed 0 [] ∧
      desBits ((box [0x40, 0x00]).inRest.take 9) 0 = .malformed 1 [] ∧
      desBits ((box [0xFF]).inRest.take 8) 0 = .malformed 0 [] ∧ 8 ≤ (box [0xFF]).inRest.length ∧
      failingAfter 9 = List.replicate 9 false ++ true :: [] := by decide +kernel

end Sys2Proof.Tests
end

section
/-! PROOFS. The rules every statement of the state family goes through: each command as one issue of its body, what
an executed command and a host event can do to the state, and what the body of each command keeps. -/

namespace Sys2Proof.Machine

/-! ### A command is the issue of its body (R170) -/

/-- The flag a command requires (R26). -/
def needs : Instr → State → Bool
  | .build => needsTable
  | .mktable => needsTree
  | .sertree => needsTree
  | .decpay => needsTree
  | .encpay => needsTab
  | _ => needsNothing

/-- The body that a taken and enabled command runs. -/
def bodyOf : Instr → State → Run Unit
  | .clr => clrBody
  | .count => countBody
  | .build => buildBody
  | .mktable => mktableBody
  | .wrmagic => wrmagicBody
  | .sertree => sertreeBody
  | .encpay => encpayBody
  | .rdmagic => rdmagicBody
  | .destree => destreeBody
  | .decpay => decpayBody
  | .encode => encodeBody
  | .decode => decodeBody

theorem exec_clr (s : State) : exec .clr s = issueClr clrBody s := rfl

theorem exec_eq_issue {i : Instr} (hi : i ≠ .clr) (s : State) :
    exec i s = issue (opcode i) (needs i) (bodyOf i) s := by
  cases i with
  | clr => exact absurd rfl hi
  | _ => rfl

/-- The required flag does not depend on the mode. -/
@[simp] theorem needs_run (i : Instr) (s : State) (r : RunState) : needs i { s with run := r } = needs i s := by
  cases i <;> rfl

/-- A command that is taken: any in `READY`, CLR in `FAULT` too (R170, R175). -/
def Taken (i : Instr) (s : State) : Prop := s.run = .ready ∨ (s.run = .fault ∧ i = .clr)

/-- A command that is lost (R174). -/
def Lost (i : Instr) (s : State) : Prop := s.run = .busy ∨ (s.run = .fault ∧ i ≠ .clr)

theorem taken_or_lost (i : Instr) (s : State) : Taken i s ∨ Lost i s := by
  cases hr : s.run with
  | ready => exact .inl (.inl hr)
  | busy => exact .inr (.inl hr)
  | fault =>
    by_cases hi : i = .clr
    · exact .inl (.inr ⟨hr, hi⟩)
    · exact .inr (.inr ⟨hr, hi⟩)

/-- R170: a command taken with its flag runs its body from `BUSY`. -/
theorem exec_taken {i : Instr} {s : State} (h : Taken i s) (hn : needs i s = true) :
    exec i s = complete (bodyOf i { s with run := .busy }) := by
  by_cases hi : i = .clr
  · subst hi
    obtain hr | ⟨hr, -⟩ := h
    all_goals exact issueClr_taken (by simp [hr])
  · obtain hr | ⟨-, hclr⟩ := h
    · rw [exec_eq_issue hi, issue_ready hr hn]
    · exact absurd hclr hi

/-- R173: a command taken in `READY` without its flag is refused before anything else. -/
theorem exec_disabled {i : Instr} {s : State} (hr : s.run = .ready) (hn : needs i s = false) :
    exec i s = .next (faultEntry .illegalCommand ((opcode i).zeroExtend 32) s) := by
  have hi : i ≠ .clr := by rintro rfl; exact Bool.noConfusion hn
  rw [exec_eq_issue hi, issue_disabled hr hn]

/-- R174: a command not taken changes nothing. -/
theorem exec_lost {i : Instr} {s : State} (h : Lost i s) : exec i s = .next s := by
  by_cases hi : i = .clr
  · obtain hr | ⟨-, hne⟩ := h
    · simp only [hi, exec_clr, issueClr, hr]
    · exact absurd hi hne
  · rw [exec_eq_issue hi, issue_lost (by obtain hr | ⟨hr, -⟩ := h <;> simp [hr])]

/-- R170 in cases: a command that ends was lost, was refused for its flag, or has run its body. -/
theorem exec_next {i : Instr} {s t : State} (h : exec i s = .next t) :
    (Lost i s ∧ t = s) ∨
      (s.run = .ready ∧ needs i s = false ∧ t = faultEntry .illegalCommand ((opcode i).zeroExtend 32) s) ∨
      (Taken i s ∧ needs i s = true ∧ complete (bodyOf i { s with run := .busy }) = .next t) := by
  obtain ht | hl := taken_or_lost i s
  · cases hn : needs i s with
    | true => exact .inr (.inr ⟨ht, rfl, exec_taken ht hn ▸ h⟩)
    | false =>
      obtain hr | ⟨-, rfl⟩ := ht
      · exact .inr (.inl ⟨hr, rfl, (Host.Outcome.next.inj (exec_disabled hr hn ▸ h)).symm⟩)
      · cases hn
  · exact .inl ⟨hl, (Host.Outcome.next.inj (exec_lost hl ▸ h)).symm⟩

/-! ### What a step can do (R170, R199, R200, R209) -/

/-- What one host event can make of a state. -/
inductive EventEffect (s : State) : HostEvent → State → Prop where
  /-- R27: a write of another register than `CMD`. -/
  | ignored {reg : Nat} (w : Word) (hreg : reg ≠ 0) : EventEffect s (.write reg w) s
  /-- R28, R170: a write of `CMD` with the byte of a command. -/
  | command {w : Word} {i : Instr} {t : State} (hd : decodeOp (commandByte w) = some i) (h : exec i s = .next t) :
      EventEffect s (.write 0 w) t
  /-- R174: a reserved opcode outside `READY`. -/
  | lost {w : Word} (hd : decodeOp (commandByte w) = none) (hr : s.run ≠ .ready) : EventEffect s (.write 0 w) s
  /-- R171: a reserved opcode in `READY`. -/
  | illegal {w : Word} (hd : decodeOp (commandByte w) = none) (hr : s.run = .ready) :
      EventEffect s (.write 0 w) (faultEntry .illegalCommand ((commandByte w).zeroExtend 32) s)
  /-- R62. -/
  | read (reg : Nat) : EventEffect s (.read reg) (readStep reg s)
  /-- R200. -/
  | reset : EventEffect s .reset (applyReset s)
  /-- R41, R209. -/
  | setIn {bytes : List Byte} {pos : Nat} (hb : s.run ≠ .busy) (hp : inPosWf bytes pos = true) :
      EventEffect s (.setIn bytes pos) { s with inp := { s.inp with bytes := bytes, pos := pos } }
  /-- R42, R209. -/
  | setOut (bits : List Bool) (hb : s.run ≠ .busy) :
      EventEffect s (.setOut bits) { s with out := { s.out with bits := bits } }

/-- R28: a write of `CMD` by the opcode map of R81. -/
theorem writeCmd_eq (w : Word) (s : State) :
    writeCmd w s = match decodeOp (commandByte w) with
      | some i => exec i s
      | none => issueReserved (commandByte w) s := by
  simp only [writeCmd, decode]
  cases decodeOp (commandByte w) <;> rfl

theorem issueReserved_ready {s : State} (hr : s.run = .ready) (op : Byte) :
    issueReserved op s = .next (faultEntry .illegalCommand (op.zeroExtend 32) s) := by
  simp only [issueReserved, hr]

theorem issueReserved_lost {s : State} (hr : s.run ≠ .ready) (op : Byte) : issueReserved op s = .next s := by
  cases h : s.run with
  | ready => exact absurd h hr
  | busy => simp only [issueReserved, h]
  | fault => simp only [issueReserved, h]

theorem writeCmd_effect {w : Word} {s t : State} (h : writeCmd w s = .next t) : EventEffect s (.write 0 w) t := by
  rw [writeCmd_eq] at h
  cases hd : decodeOp (commandByte w) with
  | some i =>
    rw [hd] at h
    exact .command hd h
  | none =>
    rw [hd] at h
    by_cases hr : s.run = .ready
    · cases (issueReserved_ready hr _).symm.trans h
      exact .illegal hd hr
    · cases (issueReserved_lost hr _).symm.trans h
      exact .lost hd hr

theorem hostEvent_effect {e : HostEvent} {s t : State} (h : hostEvent e s = .next t) : EventEffect s e t := by
  cases e with
  | write reg w =>
    simp only [hostEvent, writeReg] at h
    split at h
    · rename_i hreg
      subst hreg
      exact writeCmd_effect h
    · rename_i hreg
      cases h
      exact .ignored w hreg
  | read reg => cases h; exact .read reg
  | reset => cases h; exact .reset
  | setIn bytes pos =>
    simp only [hostEvent, setInStep] at h
    split at h
    · cases h
    · split at h
      · cases h
        exact .setIn ‹_› ‹_›
      · cases h
  | setOut bits =>
    simp only [hostEvent, setOutStep] at h
    split at h
    · cases h
    · cases h
      exact .setOut bits ‹_›

/-- A step waits, or takes the oldest event. -/
theorem step_next {s t : State} (h : step s = .next t) :
    (s.host = [] ∧ t = s) ∨ ∃ e rest, s.host = e :: rest ∧ EventEffect { s with host := rest } e t := by
  rw [step, nextEvent] at h
  cases hs : s.host with
  | nil =>
    rw [hs] at h
    exact .inl ⟨rfl, (Host.Outcome.next.inj h).symm⟩
  | cons e rest =>
    rw [hs] at h
    exact .inr ⟨e, rest, rfl, hostEvent_effect h⟩

/-! ### What the bodies keep -/

/-- Weaker ends, where it does not matter when the body is stuck. -/
theorem Run.Ends.loose {α : Type} {r : Run α} {P Q : α → State → Prop} {E F : State → Prop} {S : Prop}
    (h : r.Ends P E S) (hp : ∀ a s, P a s → Q a s) (he : ∀ s, E s → F s) : r.Ends Q F True :=
  h.mono hp he fun _ => trivial

theorem raises_keeps {A : Cause → Word → Prop} {F : State → Prop} {s t : State} (h : Raises A F t)
    (hf : ∀ u, F u → Keeps s u) : AnyFault s t := h.mono (fun _ _ _ => trivial) hf

/-- Every enabled body keeps the block's edge and the invariants of the structures, whether it completes or raises. -/
theorem bodyOf_keeps {i : Instr} {s : State} (hn : needs i s = true) :
    (bodyOf i s).Ends (fun _ u => Keeps s u) (AnyFault s) True := by
  cases i with
  | clr => exact (clrBody_keeps s).loose (fun _ _ h => h.1) fun _ h => h
  | count => exact (countBody_keeps s).loose (fun _ _ h => h) fun _ h => h
  | build => exact (buildBody_keeps s).loose (fun _ _ h => h) fun _ h => h
  | mktable => exact (mktableBody_keeps s).loose (fun _ _ h => h hn) fun _ h => h
  | wrmagic =>
    refine (wrmagicBody_ends s).loose ?_ fun _ h => raises_keeps h fun _ h => h.keeps
    rintro _ u ⟨e, hu⟩
    exact OutMoved.keeps ⟨_, e, hu⟩
  | sertree =>
    refine (sertreeBody_ends s).loose ?_ fun _ h => raises_keeps h fun _ h => h.keeps
    rintro _ u ⟨_, e, -, hu⟩
    exact OutMoved.keeps ⟨_, e, hu⟩
  | encpay => exact (encpayBody_ends s).loose (fun _ _ h => h.1.keeps) fun _ h => raises_keeps h fun _ h => h.keeps
  | rdmagic => exact (rdmagicBody_ends s).loose (fun _ _ h => h.1.keeps) fun _ h => raises_keeps h fun _ h => h.keeps
  | destree => exact (destreeBody_keeps s).loose (fun _ _ h => h) fun _ h => h
  | decpay => exact (decpayBody_ends s).loose (fun _ _ h => h.1.keeps) fun _ h => raises_keeps h fun _ h => h.keeps
  | encode => exact (encodeBody_ends s).loose (fun _ _ h => h.keeps) fun _ h => raises_keeps h fun _ h => h
  | decode => exact (decodeBody_ends s).loose (fun _ _ h => h.keeps) fun _ h => raises_keeps h fun _ h => h

/-- A command that completes from `FAULT` is CLR, which clears the record; from `READY` the record was clear. -/
theorem bodyOf_record {i : Instr} {s : State} (hn : needs i s = true)
    (hc : i = .clr ∨ (s.cause = 0 ∧ s.finfo = 0)) :
    (bodyOf i s).Ends (fun _ u => Keeps s u ∧ u.cause = 0 ∧ u.finfo = 0) (AnyFault s) True := by
  rcases hc with rfl | hc
  · exact (clrBody_keeps s).loose (fun _ _ h => h) fun _ h => h
  · exact (bodyOf_keeps hn).loose (fun _ _ h => ⟨h, h.record hc⟩) fun _ h => h

end Sys2Proof.Machine
end

section
/-! PROOFS. The invariant: it holds at reset and every step keeps it. -/

namespace Sys2Proof.Machine

theorem Cause.code_range (c : Cause) : 1 ≤ c.code.toNat ∧ c.code.toNat ≤ 8 := by cases c <;> decide

/-- The part of the invariant that does not speak of the mode or the fault record. -/
structure Sound (s : State) : Prop where
  structs : StructInv s
  inPos : s.inp.pos ≤ 8 * s.inp.bytes.length
  width : countWidthWf s.params.countWidth = true

theorem Inv.sound {s : State} (h : Inv s) : Sound s := ⟨⟨h.table, h.tree, h.tab⟩, h.inPos, h.width⟩

theorem Inv.record {s : State} (h : Inv s) (hr : s.run = .ready) : s.cause = 0 ∧ s.finfo = 0 := by
  simpa [hr] using h.faultRecord

/-- The mode matters to no part of it. -/
theorem Sound.withRun {s : State} (h : Sound s) (r : RunState) : Sound { s with run := r } :=
  ⟨⟨h.structs.table, h.structs.tree, h.structs.tab⟩, h.inPos, h.width⟩

theorem Sound.keeps {s u : State} (h : Sound s) (k : Keeps s u) : Sound u :=
  ⟨k.inv h.width h.structs, k.inPos h.inPos, by rw [k.params]; exact h.width⟩

/-- The end of a command (R170) has the invariant. -/
theorem Sound.inv_ready {u : State} (h : Sound u) (hc : u.cause = 0 ∧ u.finfo = 0) :
    Inv { u with run := .ready } where
  notBusy := by simp
  faultRecord := by simpa using hc
  table := h.structs.table
  tree := h.structs.tree
  tab := h.structs.tab
  inPos := h.inPos
  width := h.width

/-- Fault entry (R192) has the invariant. -/
theorem Sound.inv_fault {u : State} (h : Sound u) (c : Cause) (info : Word) : Inv (faultEntry c info u) where
  notBusy := by simp
  faultRecord := by simpa using c.code_range
  table := h.structs.table
  tree := h.structs.tree
  tab := h.structs.tab
  inPos := h.inPos
  width := h.width

/-- Every command keeps the invariant. -/
theorem exec_inv {i : Instr} {s t : State} (h : Inv s) (he : exec i s = .next t) : Inv t := by
  obtain ⟨-, rfl⟩ | ⟨-, -, rfl⟩ | ⟨hr, hn, hc⟩ := exec_next he
  · exact h
  · exact h.sound.inv_fault _ _
  · have hs := h.sound.withRun .busy
    have hrec : i = .clr ∨ (s.cause = 0 ∧ s.finfo = 0) := by
      obtain hr | ⟨-, hi⟩ := hr
      · exact .inr (h.record hr)
      · exact .inl hi
    obtain ⟨u, ⟨hk, hu⟩, rfl⟩ | ⟨c, info, u, -, hk, rfl⟩ :=
      complete_next (bodyOf_record ((needs_run i s .busy).trans hn) hrec) hc
    · exact (hs.keeps hk).inv_ready hu
    · exact (hs.keeps hk).inv_fault c info

/-- What the host will do next matters to no part of the invariant. -/
theorem inv_host {s : State} (h : Inv s) (events : List HostEvent) : Inv { s with host := events } :=
  ⟨h.notBusy, h.faultRecord, h.table, h.tree, h.tab, h.inPos, h.width⟩

theorem inv_read {s : State} (h : Inv s) (reg : Nat) : Inv (readStep reg s) :=
  ⟨h.notBusy, h.faultRecord, h.table, h.tree, h.tab, h.inPos, h.width⟩

theorem inv_reset {s : State} (h : Inv s) : Inv (applyReset s) where
  notBusy := by simp
  faultRecord := by simp
  table := by simp
  tree := by simp
  tab := by simp
  inPos := by simp
  width := h.width

/-- Every event at the block's edge keeps the invariant. -/
theorem EventEffect.inv {s t : State} {e : HostEvent} (h : Inv s) (he : EventEffect s e t) : Inv t := by
  cases he with
  | ignored _ _ => exact h
  | command _ hx => exact exec_inv h hx
  | lost _ _ => exact h
  | illegal _ _ => exact h.sound.inv_fault _ _
  | read reg => exact inv_read h reg
  | reset => exact inv_reset h
  | setIn _ hp => exact ⟨h.notBusy, h.faultRecord, h.table, h.tree, h.tab, of_decide_eq_true hp, h.width⟩
  | setOut _ _ => exact ⟨h.notBusy, h.faultRecord, h.table, h.tree, h.tab, h.inPos, h.width⟩

/-- Settles O17: a step waits or takes one event, and every event keeps the invariant. -/
theorem stepKeepsInvariant : Obligations.StepKeepsInvariant := by
  intro s t h hs
  obtain ⟨-, rfl⟩ | ⟨e, rest, -, he⟩ := step_next hs
  · exact h
  · exact he.inv (inv_host h rest)

/-- R8: `CNT_W` is at least 1, whatever the free choice behind it. -/
theorem countWidth_wf : countWidthWf Config.countWidth = true := by
  cases h : Config.countWidthChoice <;> simp [Config.countWidth, h, countWidthWf]

/-- Settles O16: no structure is valid at reset, and `CNT_W` is at least 1. -/
theorem invariantAtReset : Obligations.InvariantAtReset where
  notBusy := by simp [State.reset]
  faultRecord := by simp [State.reset]
  table := by simp [State.reset]
  tree := by simp [State.reset]
  tab := by simp [State.reset]
  inPos := by simp [State.reset]
  width := countWidth_wf

end Sys2Proof.Machine
end

section
/-! PROOFS. What is held of an invalid structure is unobservable (R22, R37, R39): every event at the block's edge does
the same to a state as to its visible part, up to what is invisible, and so does every command. -/

namespace Sys2Proof.Machine

theorem alike_of_visible {s u : State} (h : s.visible = u.visible) : Alike s.ftV s.treeV s.tabV s u :=
  ⟨h, rfl, rfl, rfl⟩

theorem regValue_visible (s : State) (reg : Nat) : s.visible.regValue reg = s.regValue reg := by
  unfold State.regValue
  split
  case h_5 => cases h : s.treeV <;> simp [State.visible, h]
  case h_6 => cases h : s.treeV <;> simp [State.visible, h]
  all_goals rfl

/-- R31: a register reads nothing of an invalid structure. -/
theorem readReg_visible (s : State) (reg : Nat) : s.visible.readReg reg = s.readReg reg := by
  rw [State.readReg, State.readReg, regValue_visible]
  rfl

theorem readReg_congr {s u : State} (h : s.visible = u.visible) (reg : Nat) : s.readReg reg = u.readReg reg := by
  rw [← readReg_visible s, h, readReg_visible]

/-- A body started from two states that look alike ends in outcomes that look alike. -/
theorem bodyOf_alike {i : Instr} {s u : State} (hn : needs i s = true) (h : s.visible = u.visible) :
    visibleOutcome (complete (bodyOf i s)) = visibleOutcome (complete (bodyOf i u)) := by
  have ha := alike_of_visible h
  cases i with
  | clr => exact complete_alike (clrBody_alike ha) fun _ _ h => h.vis
  | count => exact complete_alike (countBody_alike ha) fun _ _ h => h.vis
  | build => exact complete_alike (buildBody_alike { ha with ftV := hn }) fun _ _ h => h.vis
  | mktable => exact complete_alike (mktableBody_alike { ha with treeV := hn }) fun _ _ h => h.vis
  | wrmagic => exact complete_alike (wrmagicBody_alike ha) fun _ _ h => h.vis
  | sertree => exact complete_alike (sertreeBody_alike { ha with treeV := hn }) fun _ _ h => h.vis
  | encpay => exact complete_alike (encpayBody_alike { ha with tabV := hn }) fun _ _ h => h.vis
  | rdmagic => exact complete_alike (rdmagicBody_alike ha) fun _ _ h => h.vis
  | destree => exact complete_alike (destreeBody_alike ha) fun _ _ h => h.vis
  | decpay => exact complete_alike (decpayBody_alike { ha with treeV := hn }) fun _ _ h => h.vis
  | encode => exact complete_alike (encodeBody_alike ha) fun _ _ h => h.vis
  | decode => exact complete_alike (decodeBody_alike ha) fun _ _ h => h.vis

theorem needs_visible (i : Instr) (s : State) : needs i s.visible = needs i s := by cases i <;> rfl

theorem visible_run {s u : State} (h : s.visible = u.visible) (r : RunState) :
    ({ s with run := r } : State).visible = ({ u with run := r } : State).visible :=
  congrArg (fun v : State => { v with run := r }) h

theorem visible_host {s u : State} (h : s.visible = u.visible) (events : List HostEvent) :
    ({ s with host := events } : State).visible = ({ u with host := events } : State).visible :=
  congrArg (fun v : State => { v with host := events }) h

theorem faultEntry_visible (c : Cause) (info : Word) (s : State) :
    (faultEntry c info s).visible = faultEntry c info s.visible := rfl

/-- Every command does alike to states that look alike. -/
theorem exec_alike (i : Instr) {s u : State} (h : s.visible = u.visible) :
    visibleOutcome (exec i s) = visibleOutcome (exec i u) := by
  have hru : s.run = u.run := (alike_of_visible h).field (·.run) fun _ => rfl
  have hnu : needs i s = needs i u := by rw [← needs_visible i s, h, needs_visible]
  obtain ht | hl := taken_or_lost i s
  · cases hn : needs i s with
    | true =>
      rw [exec_taken ht hn, exec_taken (by rwa [Taken, ← hru]) (hnu ▸ hn)]
      exact bodyOf_alike ((needs_run i s .busy).trans hn) (visible_run h .busy)
    | false =>
      obtain hr | ⟨-, rfl⟩ := ht
      · rw [exec_disabled hr hn, exec_disabled (hru ▸ hr) (hnu ▸ hn)]
        simp only [visibleOutcome, faultEntry_visible, h]
      · cases hn
  · rw [exec_lost hl, exec_lost (by rwa [Lost, ← hru])]
    simp only [visibleOutcome, h]

/-- A reserved opcode does to the visible part what it does to the state. -/
theorem issueReserved_visible (op : Byte) (s : State) :
    visibleOutcome (issueReserved op s) = issueReserved op s.visible := by
  have hr : s.visible.run = s.run := rfl
  unfold issueReserved
  rw [hr]
  split <;> rfl

theorem readStep_visible (reg : Nat) (s : State) : (readStep reg s).visible = readStep reg s.visible := by
  rw [readStep, readStep, readReg_visible]
  rfl

theorem applyReset_visible (s : State) : (applyReset s).visible = applyReset s.visible := rfl

theorem setInStep_visible (bytes : List Byte) (pos : Nat) (s : State) :
    visibleOutcome (setInStep bytes pos s) = setInStep bytes pos s.visible := by
  have hr : s.visible.run = s.run := rfl
  unfold setInStep
  rw [hr]
  split
  · rfl
  · split <;> rfl

theorem setOutStep_visible (bits : List Bool) (s : State) :
    visibleOutcome (setOutStep bits s) = setOutStep bits s.visible := by
  have hr : s.visible.run = s.run := rfl
  unfold setOutStep
  rw [hr]
  split <;> rfl

theorem writeReg_alike (reg : Nat) (w : Word) {s u : State} (h : s.visible = u.visible) :
    visibleOutcome (writeReg reg w s) = visibleOutcome (writeReg reg w u) := by
  simp only [writeReg, writeCmd_eq]
  split
  · split
    · exact exec_alike _ h
    · rw [issueReserved_visible, h, ← issueReserved_visible]
  · simp only [visibleOutcome, h]

/-- Every event does alike to states that look alike. -/
theorem hostEvent_alike (e : HostEvent) {s u : State} (h : s.visible = u.visible) :
    visibleOutcome (hostEvent e s) = visibleOutcome (hostEvent e u) := by
  cases e with
  | write reg w => exact writeReg_alike reg w h
  | read reg => simp only [hostEvent, visibleOutcome, readStep_visible, h]
  | reset => simp only [hostEvent, visibleOutcome, applyReset_visible, h]
  | setIn bytes pos => simp only [hostEvent, setInStep_visible, h]
  | setOut bits => simp only [hostEvent, setOutStep_visible, h]

theorem step_alike {s u : State} (h : s.visible = u.visible) : visibleOutcome (step s) = visibleOutcome (step u) := by
  have hhost : s.host = u.host := (alike_of_visible h).field (·.host) fun _ => rfl
  rw [step, step, nextEvent, nextEvent, ← hhost]
  split
  · simp only [visibleOutcome, h]
  · exact hostEvent_alike _ (visible_host h _)

/-- Settles O19: reads and steps of states that look alike look alike. -/
theorem invalidContentsUnobservable : Obligations.InvalidContentsUnobservable :=
  fun _ _ h => ⟨readReg_congr h, step_alike h⟩

end Sys2Proof.Machine
end

section
/-! PROOFS. What each command does to the valid flags (R24, R25), and which faults are not `ILLEGAL_COMMAND`
(R26). -/

namespace Sys2Proof.Machine

/-- The three valid flags of a state are as given. -/
def Flags (ft tree tab : Bool) (u : State) : Prop := u.ftV = ft ∧ u.treeV = tree ∧ u.tabV = tab

/-- A state in `FAULT` with the flags as given. -/
def FaultFlags (ft tree tab : Bool) (u : State) : Prop := u.run = .fault ∧ Flags ft tree tab u

theorem flags_self (s : State) : Flags s.ftV s.treeV s.tabV s := ⟨rfl, rfl, rfl⟩

theorem IOMoved.flags {ft tree tab : Bool} {s u : State} (h : IOMoved s u) (hf : Flags ft tree tab s) :
    Flags ft tree tab u := by
  obtain ⟨⟨_, _, _, _, rfl⟩, -⟩ := h
  exact hf

theorem raises_run {A : Cause → Word → Prop} {F : State → Prop} {t : State} (h : Raises A F t) : t.run = .fault := by
  obtain ⟨c, i, u, -, -, rfl⟩ := h
  rfl

/-- Fault entry (R192) leaves the flags alone. -/
theorem raises_flags {A : Cause → Word → Prop} {F : State → Prop} {ft tree tab : Bool} {t : State} (h : Raises A F t)
    (hf : ∀ u, F u → Flags ft tree tab u) : FaultFlags ft tree tab t := by
  obtain ⟨c, i, u, -, hu, rfl⟩ := h
  exact ⟨rfl, hf u hu⟩

theorem countBody_flags (s : State) :
    (countBody s).Ends (fun _ u => Flags true false false u) (FaultFlags false false false) True := by
  refine (countBody_ends s).loose ?_ fun _ h => raises_flags h fun _ h => h.io.flags ⟨rfl, rfl, rfl⟩
  rintro _ u ⟨e, rfl, -⟩
  exact ⟨rfl, rfl, rfl⟩

theorem buildBody_flags (s : State) :
    (buildBody s).Ends (fun _ u => Flags s.ftV true false u) (FaultFlags s.ftV false false) True := by
  refine (buildBody_ends s).loose ?_ ?_
  · rintro _ u ⟨-, -, p, t, -, rfl⟩
    exact ⟨rfl, rfl, rfl⟩
  · rintro t ⟨-, rfl⟩
    exact ⟨rfl, rfl, rfl, rfl⟩

theorem destreeBody_flags (s : State) :
    (destreeBody s).Ends (fun _ u => Flags s.ftV true false u) (FaultFlags s.ftV false false) True := by
  refine (destreeBody_ends s).loose ?_ fun _ h => raises_flags h fun _ h => h.io.flags ⟨rfl, rfl, rfl⟩
  rintro _ u ⟨t, -, inp, -, -, rfl⟩
  exact ⟨rfl, rfl, rfl⟩

theorem mktableBody_flags (s : State) :
    (mktableBody s).Ends (fun _ u => Flags s.ftV s.treeV true u) (fun _ => False) True := by
  refine (mktableBody_ends s).loose ?_ fun _ h => h
  rintro _ u ⟨t, -, rfl⟩
  exact ⟨rfl, rfl, rfl⟩

theorem clrBody_flags (s : State) :
    (clrBody s).Ends (fun _ u => Flags false false false u) (FaultFlags false false false) True := by
  refine (clrBody_ends s).loose ?_ fun _ h => raises_flags h ?_
  · rintro _ u ⟨ei, eo, rfl⟩
    exact ⟨rfl, rfl, rfl⟩
  · rintro u ⟨p, ei, eo, rfl, -⟩
    exact ⟨rfl, rfl, rfl⟩

/-- The five commands that only move the ports. -/
theorem streaming_flags {i : Instr} (hi : i ∈ [Instr.wrmagic, .sertree, .encpay, .rdmagic, .decpay]) (s : State) :
    (bodyOf i s).Ends (fun _ u => Flags s.ftV s.treeV s.tabV u) (FaultFlags s.ftV s.treeV s.tabV) True := by
  have io : ∀ u, IOMoved s u → Flags s.ftV s.treeV s.tabV u := fun u h => h.flags (flags_self s)
  simp only [List.mem_cons, List.not_mem_nil, or_false] at hi
  rcases hi with rfl | rfl | rfl | rfl | rfl
  · refine (wrmagicBody_ends s).loose ?_ fun _ h => raises_flags h fun u h => io u h.io
    rintro _ u ⟨e, rfl⟩
    exact flags_self s
  · refine (sertreeBody_ends s).loose ?_ fun _ h => raises_flags h fun u h => io u h.io
    rintro _ u ⟨t, e, -, rfl⟩
    exact flags_self s
  · exact (encpayBody_ends s).loose (fun _ u h => io u h.1) fun _ h => raises_flags h io
  · exact (rdmagicBody_ends s).loose (fun _ u h => io u h.1.io) fun _ h => raises_flags h fun u h => io u h.io
  · exact (decpayBody_ends s).loose (fun _ u h => io u h.1) fun _ h => raises_flags h io

theorem Finished.flags {s u : State} {ft tree tab : Bool} (h : Finished s ft tree tab u) : Flags ft tree tab u :=
  ⟨h.ftV, h.treeV, h.tabV⟩

theorem encodeBody_flags (s : State) :
    (encodeBody s).Ends (fun _ u => Flags true true true u) (fun t => t.run = .fault) True :=
  (encodeBody_ends s).loose (fun _ _ h => h.flags) fun _ h => raises_run h

theorem decodeBody_flags (s : State) :
    (decodeBody s).Ends (fun _ u => Flags false true false u) (fun t => t.run = .fault) True :=
  (decodeBody_ends s).loose (fun _ _ h => h.flags) fun _ h => raises_run h

/-- How a taken and enabled command leaves the flags, from how its body does. -/
theorem exec_flags {i : Instr} {s t : State} {ft tree tab : Bool} {F : State → Prop} (hr : s.run = .ready)
    (h : exec i s = .next t) (hn : needs i s = true)
    (hb : (bodyOf i { s with run := .busy }).Ends (fun _ u => Flags ft tree tab u) F True) :
    (t.run = .ready ∧ Flags ft tree tab t) ∨ F t := by
  rw [exec_taken (.inl hr) hn] at h
  obtain ⟨u, hu, rfl⟩ | hf := complete_next hb h
  · exact .inl ⟨rfl, hu⟩
  · exact .inr hf

/-- A command that ends in `READY` leaves the flags of its body's normal end. -/
theorem exec_flags_ready {i : Instr} {s t : State} {ft tree tab : Bool} (hr : s.run = .ready)
    (h : exec i s = .next t) (hn : needs i s = true)
    (hb : (bodyOf i { s with run := .busy }).Ends (fun _ u => Flags ft tree tab u) (fun t => t.run = .fault) True)
    (ht : t.run = .ready) : Flags ft tree tab t := by
  obtain ⟨-, hf⟩ | hf := exec_flags hr h hn hb
  · exact hf
  · rw [ht] at hf
    cases hf

/-- Settles O9: the flags at the ends of each command's body. -/
theorem flagsWritten : Obligations.FlagsWritten := by
  intro s t hr
  refine ⟨fun h => ?_, fun hv h => ?_, fun h => ?_, fun hv h => ?_, fun h => ?_, fun i hi h => ?_, fun h ht => ?_,
    fun h ht => ?_⟩
  · obtain ⟨hrun, h1, h2, h3⟩ | ⟨hrun, h1, h2, h3⟩ := exec_flags hr h rfl (countBody_flags _)
    all_goals simp [hrun, h1, h2, h3]
  · obtain ⟨hrun, h1, h2, h3⟩ | ⟨hrun, h1, h2, h3⟩ := exec_flags hr h hv (buildBody_flags _)
    all_goals simp [hrun, h1, h2, h3, hv]
  · obtain ⟨hrun, h1, h2, h3⟩ | ⟨hrun, h1, h2, h3⟩ := exec_flags hr h rfl (destreeBody_flags _)
    all_goals simp [hrun, h1, h2, h3]
  · obtain ⟨hrun, h1, h2, h3⟩ | hf := exec_flags hr h hv (mktableBody_flags _)
    · simp [hrun, h1, h2, h3, hv]
    · exact hf.elim
  · obtain ⟨-, hf⟩ | ⟨-, hf⟩ := exec_flags hr h rfl (clrBody_flags _)
    all_goals exact hf
  · cases hn : needs i s
    · rw [exec_disabled hr hn] at h
      cases h
      exact flags_self s
    · obtain ⟨-, hf⟩ | ⟨-, hf⟩ := exec_flags hr h hn (streaming_flags hi _)
      all_goals exact hf
  · exact exec_flags_ready hr h rfl (encodeBody_flags _) ht
  · exact exec_flags_ready hr h rfl (decodeBody_flags _) ht

theorem code_ne_five {c : Cause} (h : c ≠ .illegalCommand) : c.code ≠ 5 := by
  cases c with
  | illegalCommand => exact absurd rfl h
  | _ => decide

theorem raises_cause {A : Cause → Word → Prop} {F : State → Prop} {t : State} (h : Raises A F t)
    (ha : ∀ i, ¬ A .illegalCommand i) : t.cause ≠ 5 := by
  obtain ⟨c, i, u, hc, -, rfl⟩ := h
  exact code_ne_five fun he => ha i (he ▸ hc)

/-- R26: `ILLEGAL_COMMAND` is raised at issue only, never by the body of a command. -/
theorem bodyOf_cause (i : Instr) (s : State) :
    (bodyOf i s).Ends (fun _ _ => True) (fun t => t.cause ≠ 5) True := by
  cases i with
  | clr =>
    exact (clrBody_ends s).loose (fun _ _ _ => trivial) fun _ h =>
      raises_cause h (by simp [inFailure, outFailure])
  | count =>
    exact (countBody_ends s).loose (fun _ _ _ => trivial) fun _ h =>
      raises_cause h (by simp [countFaults, inFailure])
  | build =>
    refine (buildBody_ends s).loose (fun _ _ _ => trivial) ?_
    rintro t ⟨-, rfl⟩
    exact code_ne_five (c := .inputError) (by decide)
  | mktable => exact (mktableBody_ends s).loose (fun _ _ _ => trivial) fun _ h => h.elim
  | wrmagic =>
    exact (wrmagicBody_ends s).loose (fun _ _ _ => trivial) fun _ h => raises_cause h (by simp [outFailure])
  | sertree =>
    exact (sertreeBody_ends s).loose (fun _ _ _ => trivial) fun _ h => raises_cause h (by simp [outFailure])
  | encpay =>
    exact (encpayBody_ends s).loose (fun _ _ _ => trivial) fun _ h =>
      raises_cause h (by simp [encpayFaults, inFailure, outFailure])
  | rdmagic =>
    exact (rdmagicBody_ends s).loose (fun _ _ _ => trivial) fun _ h =>
      raises_cause h (by simp [rdmagicFaults, inFailure])
  | destree =>
    exact (destreeBody_ends s).loose (fun _ _ _ => trivial) fun _ h =>
      raises_cause h (by simp [destreeFaults, inFailure])
  | decpay =>
    exact (decpayBody_ends s).loose (fun _ _ _ => trivial) fun _ h =>
      raises_cause h (by simp [decpayFaults, inFailure, outFailure])
  | encode =>
    exact (encodeBody_ends s).loose (fun _ _ _ => trivial) fun _ h =>
      raises_cause h (by simp [encodeFaults, inFailure, outFailure])
  | decode =>
    exact (decodeBody_ends s).loose (fun _ _ _ => trivial) fun _ h =>
      raises_cause h (by
        simp [decodeFaults, rdmagicFaults, destreeFaults, decpayFaults, inFailure, outFailure])

/-- A command taken with its flag never ends in `ILLEGAL_COMMAND`. -/
theorem exec_enabled_cause {i : Instr} {s t : State} (hr : s.run = .ready) (hn : needs i s = true)
    (h : exec i s = .next t) (ht : t.run = .fault) : t.cause ≠ 5 := by
  rw [exec_taken (.inl hr) hn] at h
  obtain ⟨u, -, rfl⟩ | hf := complete_next (bodyOf_cause i _) h
  · cases ht
  · exact hf

/-- Settles O8: the refusals are R173's, and no body raises `ILLEGAL_COMMAND`. -/
theorem missingFlagFaults : Obligations.MissingFlagFaults := by
  intro s hr
  refine ⟨fun h => exec_disabled hr h, fun h => exec_disabled hr h, fun h => exec_disabled hr h,
    fun h => exec_disabled hr h, fun h => exec_disabled hr h, fun i hi t he ht => ?_⟩
  have hn : needs i s = true := by
    simp only [List.mem_cons, List.not_mem_nil, or_false] at hi
    rcases hi with rfl | rfl | rfl | rfl | rfl | rfl | rfl <;> rfl
  exact exec_enabled_cause hr hn he ht

end Sys2Proof.Machine
end

section
/-! PROOFS. The host port: the command a write of `CMD` issues (R28, R170), and what the registers read (R27 to
R33). -/

namespace Sys2Proof.Machine

theorem commandByte_eq (w : Word) : commandByte w = w.extractLsb' 0 8 := by
  simp [commandByte, BitVec.setWidth_eq_extractLsb']

/-- The command word a host places is the low byte of the written value (R28). -/
theorem decode_fetchWord (i : Instr) :
    decode [commandByte (BitVec.ofNat 32 ((opcode i).toNat % 2 ^ 8))] = .command i [] := by
  cases i <;> rfl

/-- R170: the oldest waiting event is taken; a write of `CMD` with a command's byte executes the command. -/
theorem step_write_cmd {s : State} {w : Word} {rest : List HostEvent} {i : Instr} (hs : s.host = .write 0 w :: rest)
    (hd : decode [commandByte w] = .command i []) : step s = exec i { s with host := rest } := by
  simp only [step, nextEvent, hs, hostEvent, writeReg, if_true, writeCmd, hd]

/-- Settles O3: a step takes the oldest event, and a fetched word's event stands before all others. -/
theorem stepRunsDecodedCommand : Obligations.StepRunsDecodedCommand :=
  ⟨fun _ _ _ _ hs hd => step_write_cmd hs hd,
    fun s i => step_write_cmd (s := s.withFetchWord 8 (opcode i).toNat) rfl (decode_fetchWord i)⟩

theorem writeReg_cmd (w : Word) (s : State) :
    writeReg 0 w s = match decodeOp (w.extractLsb' 0 8) with
      | some i => exec i s
      | none => issueReserved (w.extractLsb' 0 8) s := by
  rw [← commandByte_eq]
  exact (if_pos rfl).trans (writeCmd_eq w s)

/-- R27: a write of any other register is ignored. -/
theorem writeReg_ignored {reg : Nat} (h : reg ≠ 0) (w : Word) (s : State) : writeReg reg w s = .next s := if_neg h

/-! ### Reads -/

/-- R33: the registers with a value at all times, and every register outside `BUSY`, read it. -/
theorem readReg_stable {s : State} {reg : Nat} (h : s.run ≠ .busy ∨ reg < 2 ∨ 5 < reg) :
    s.readReg reg = s.regValue reg := by
  have : s.readOpen reg = false := by
    simp only [State.readOpen, Bool.and_eq_false_iff, decide_eq_false_iff_not]
    rcases h with h | h | h
    · exact .inl (.inl h)
    · exact .inl (.inr (by omega))
    · exact .inr (by omega)
  rw [State.readReg, this, if_neg Bool.false_ne_true]

/-- R33: while `BUSY` the four others read a free value. -/
theorem readReg_open {s : State} {reg : Nat} (hb : s.run = .busy) (h : 2 ≤ reg ∧ reg ≤ 5) :
    s.readReg reg = Config.busyRead reg s.openReads := by
  simp [State.readReg, State.readOpen, hb, h]

theorem readReg_cmd (s : State) : s.readReg 0 = 0 := readReg_stable (by simp)

theorem readReg_status (s : State) : s.readReg 1 = s.statusWord := readReg_stable (by simp)

theorem readReg_magic (s : State) : s.readReg 6 = s.params.magic := readReg_stable (by simp)

theorem readReg_above {reg : Nat} (h : 6 < reg) (s : State) : s.readReg reg = 0 := by
  rw [readReg_stable (.inr (.inr (by omega)))]
  obtain ⟨k, rfl⟩ := Nat.exists_eq_add_of_le' h
  rfl

/-- Settles O4: by the opcode map of the low byte. -/
theorem cmdWriteIssuesLowByte : Obligations.CmdWriteIssuesLowByte :=
  fun s w => ⟨writeReg_cmd w s, fun w' h => by rw [writeReg_cmd, writeReg_cmd, h], readReg_cmd s⟩

/-! ### `STATUS` (R29) -/

/-- `STATUS` bit by bit: the two bits of `STATE`, the three flags, zeros above. -/
theorem statusWord_getLsbD (s : State) (k : Nat) :
    s.statusWord.getLsbD k =
      (s.run.bits.getLsbD k || (decide (k = 2) && s.ftV) || (decide (k = 3) && s.treeV) ||
        (decide (k = 4) && s.tabV)) := by
  rcases Nat.lt_or_ge k 5 with hk | hk
  · interval_cases k <;> simp [State.statusWord]
  · have hb : s.run.bits.getLsbD k = false := BitVec.getLsbD_of_ge _ _ (by omega)
    have hne : k ≠ 2 ∧ k ≠ 3 ∧ k ≠ 4 := by omega
    have hsub : k - 2 ≠ 0 ∧ k - 3 ≠ 0 ∧ k - 4 ≠ 0 := by omega
    simp [State.statusWord, hb, hne, hsub]

theorem statusWord_state (s : State) : s.statusWord.extractLsb' 0 2 = s.run.bits := by
  apply BitVec.eq_of_getLsbD_eq
  intro k hk
  have hne : k ≠ 2 ∧ k ≠ 3 ∧ k ≠ 4 := by omega
  simp [statusWord_getLsbD, hne, hk]

theorem statusWord_zeros (s : State) {k : Nat} (hk : 5 ≤ k) : s.statusWord.getLsbD k = false := by
  have hb : s.run.bits.getLsbD k = false := BitVec.getLsbD_of_ge _ _ (by omega)
  have hne : k ≠ 2 ∧ k ≠ 3 ∧ k ≠ 4 := by omega
  simp [statusWord_getLsbD, hb, hne]

/-- R29: value 3 never occurs. -/
theorem RunState.bits_ne_three (r : RunState) : r.bits ≠ 3 := by cases r <;> decide

/-- Settles O5: each register's value where it is stable, `STATUS` bit by bit, and the free values of R33. -/
theorem hostRegisters : Obligations.HostRegisters := by
  intro s
  refine ⟨?_, fun hb => ?_, fun hb r hr => ?_, fun r hr => readReg_above hr s, fun r => ⟨_, rfl⟩,
    fun r w hr => writeReg_ignored hr w s⟩
  · rw [readReg_status, statusWord_state]
    refine ⟨fun h => by rw [h]; rfl, fun h => by rw [h]; rfl, fun h => by rw [h]; rfl, rfl, s.run.bits_ne_three,
      ?_, ?_, ?_, fun k hk => statusWord_zeros s hk⟩
    all_goals
      rw [statusWord_getLsbD]
      simp
  · have hst : ∀ r, s.readReg r = s.regValue r := fun r => readReg_stable (.inl hb)
    exact ⟨hst 2, hst 3, hst 4, hst 5⟩
  · refine readReg_open hb ?_
    simp only [List.mem_cons, List.not_mem_nil, or_false] at hr
    omega

/-! ### `MAGICR` (R32) -/

theorem exec_params {i : Instr} {s t : State} (h : exec i s = .next t) : t.params = s.params := by
  obtain ⟨-, rfl⟩ | ⟨-, -, rfl⟩ | ⟨-, hn, hc⟩ := exec_next h
  · rfl
  · rfl
  · obtain ⟨u, hk, rfl⟩ | ⟨c, info, u, -, hk, rfl⟩ :=
      complete_next (bodyOf_keeps ((needs_run i s .busy).trans hn)) hc
    all_goals exact hk.params

theorem EventEffect.params {s t : State} {e : HostEvent} (h : EventEffect s e t) : t.params = s.params := by
  cases h with
  | command _ hx => exact exec_params hx
  | _ => rfl

theorem step_params {s t : State} (h : step s = .next t) : t.params = s.params := by
  obtain ⟨-, rfl⟩ | ⟨e, rest, -, he⟩ := step_next h
  · rfl
  · exact he.params

/-- Settles O6: the parameters of the block are what no step changes. -/
theorem magicRegisterHardwired : Obligations.MagicRegisterHardwired :=
  ⟨rfl, fun s => ⟨readReg_magic s, fun t h => by rw [readReg_magic, readReg_magic, step_params h]⟩⟩

end Sys2Proof.Machine
end

section
/-! PROOFS. The port primitives: what they do when every access is granted (R50 to R54), a failing access (R55), and
the order of bits in bytes (R57, R58). -/

namespace Sys2Proof.Machine

/-! ### No access fails -/

/-- R51: at the end of the input no bit is left. -/
theorem inRest_at_end {s : State} (hp : s.inp.pos = 8 * s.inp.bytes.length) : s.inRest = [] := by
  apply List.eq_nil_of_length_eq_zero
  rw [inRest_length]
  omega

/-- R52: `InBits(n)` with fewer than `n` bits left answers `exhausted` at the end of the input. -/
theorem inBits_exhausted {n : Nat} {s : State} (h : quiet s.inp.errors)
    (hp : s.inp.pos ≤ 8 * s.inp.bytes.length) (hn : s.inRest.length < n) :
    ∃ e, inBits n s = .done none { s with inp := { s.inp with pos := 8 * s.inp.bytes.length, errors := e } } := by
  have hend : s.inp.pos + s.inRest.length = 8 * s.inp.bytes.length := by
    rw [inRest_length]
    omega
  exact ⟨_, hend ▸ inBits_short h hn⟩

/-- Settles O24: each primitive by its rule on a quiet port. -/
theorem portPrimitives : Obligations.PortPrimitives :=
  ⟨fun _ h => ⟨inMore_quiet h, inRewind_quiet h, fun hp => inBit_quiet_nil h (inRest_at_end hp),
      fun _ _ hr => inBit_quiet_cons h hr, fun _ _ _ hr hn => inBits_quiet h hr hn,
      fun _ hp hn => inBits_exhausted h hp hn⟩,
    fun _ h => ⟨fun b => outBit_quiet b h, fun v n => outBits_quiet v n h, outReset_quiet h⟩⟩

/-! ### An access fails -/

theorem outAccess_error {s : State} {rest : List Bool} (he : s.out.errors = true :: rest) :
    outAccess s = raise .ioFailure 1 (s.withOutErrors rest) := by simp [outAccess, he]

theorem outBit_error {s : State} {rest : List Bool} (b : Bool) (he : s.out.errors = true :: rest) :
    outBit b s = raise .ioFailure 1 (s.withOutErrors rest) := by simp [outBit, outAccess_error he]

theorem outReset_error {s : State} {rest : List Bool} (he : s.out.errors = true :: rest) :
    outReset s = raise .ioFailure 1 (s.withOutErrors rest) := by simp [outReset, outAccess_error he]

/-- R54, R55: `OutBits(v, n)` failing after `j` bits. -/
theorem outBits_error {v n j : Nat} {s : State} {rest : List Bool} (hj : j < n)
    (he : s.out.errors = List.replicate j false ++ true :: rest) :
    outBits v n s = raise .ioFailure 1
      { s with out := { bits := s.out.bits ++ (bitsOf n v).take j, errors := rest } } :=
  outString_error (by rwa [bitsOf_length]) he

/-- Settles O25: the answer of the environment is looked at before the port. -/
theorem portErrorComesFirst : Obligations.PortErrorComesFirst :=
  ⟨fun _ _ he => ⟨inMore_error he, inBit_error he, inRewind_error he⟩,
    fun _ _ he => ⟨fun b => outBit_error b he, outReset_error he⟩,
    fun _ _ _ _ hj hr he => inBits_error hj hr he,
    fun _ _ _ _ _ hj he => outBits_error hj he⟩

/-! ### The order of bits -/

/-- R57: the bit at the position of `IN` is the first of the bits left. -/
theorem inRest_of_bitAt {s : State} {b : Bool} (h : bitAt s.inp.bytes s.inp.pos = some b) :
    s.inRest = b :: (unpack s.inp.bytes).drop (s.inp.pos + 1) := by
  rw [bitAt_eq] at h
  rw [State.inRest, List.drop_eq_getElem?_toList_append, h]
  rfl

/-- R57: `InBit()` answers bit `7 - (p mod 8)` of byte `floor(p/8)`. -/
theorem inBit_byte {s : State} {b : Byte} (h : quiet s.inp.errors) (hb : s.inp.bytes[s.inp.pos / 8]? = some b) :
    inBit s = .done (some (b.getLsbD (7 - s.inp.pos % 8))) (s.advanceIn 1) :=
  inBit_quiet_cons h (inRest_of_bitAt (by rw [bitAt, hb, Option.map_some]))

/-- R57: `InBits(8)` on a byte boundary answers the byte there. -/
theorem inBits_byte {s : State} {j : Nat} {b : Byte} (h : quiet s.inp.errors) (hp : s.inp.pos = 8 * j)
    (hb : s.inp.bytes[j]? = some b) : inBits 8 s = .done (some b.toNat) (s.advanceIn 8) := by
  have hd : s.inp.bytes.drop j = b :: s.inp.bytes.drop (j + 1) := by
    rw [List.drop_eq_getElem?_toList_append, hb]
    rfl
  exact inBits_byte_quiet h hp hd

/-- Settles O26: the bit of a position is that of the bit view, and `pack` and `unpack` undo each other. -/
theorem bitAndByteOrder : Obligations.BitAndByteOrder :=
  ⟨fun _ h => ⟨fun _ hb => inBit_byte h hb, fun _ _ hp hb => inBits_byte h hp hb⟩, bitAt_eq, unpack_pack,
    pack_unpack⟩

end Sys2Proof.Machine
end

section
/-! PROOFS. Command words and programs: the opcode map is one-to-one (R80, R81), a program is its byte string (R98,
R99), and the text of a program assembles to it (R99). -/

namespace Sys2Proof

/-! ### The opcode map (R81) -/

@[simp] theorem decodeOp_opcode (i : Instr) : decodeOp (opcode i) = some i := by cases i <;> rfl

theorem opcode_of_decodeOp {op : Byte} {i : Instr} (h : decodeOp op = some i) : opcode i = op := by
  unfold decodeOp at h
  split at h <;> cases h
  all_goals
    rename_i hop
    exact BitVec.eq_of_toNat_eq hop.symm

theorem decode_command {op : Byte} {i : Instr} (h : decodeOp op = some i) (rest : List Byte) :
    decode (op :: rest) = .command i rest := by simp only [decode, h]

theorem decode_reserved {op : Byte} (h : decodeOp op = none) (rest : List Byte) :
    decode (op :: rest) = .reserved op rest := by simp only [decode, h]

theorem decode_encode (i : Instr) (rest : List Byte) : decode (encode i ++ rest) = .command i rest :=
  decode_command (decodeOp_opcode i) rest

theorem opcode_mem (i : Instr) : opcode i ∈ Instr.all.map opcode := by
  refine List.mem_map_of_mem ?_
  cases i <;> decide

/-- R95: a byte that is no command's opcode is reserved. -/
theorem decodeOp_of_not_mem {op : Byte} (h : op ∉ Instr.all.map opcode) : decodeOp op = none := by
  cases hd : decodeOp op with
  | none => rfl
  | some i => exact absurd (opcode_of_decodeOp hd ▸ opcode_mem i) h

/-- Settles O1: each word is the encoding of its command, and a byte that decodes is some command's opcode. -/
theorem commandWordsDecode : Obligations.CommandWordsDecode :=
  ⟨⟨decode_encode .clr [], decode_encode .count [], decode_encode .build [], decode_encode .mktable [],
      decode_encode .wrmagic [], decode_encode .sertree [], decode_encode .encpay [], decode_encode .rdmagic [],
      decode_encode .destree [], decode_encode .decpay [], decode_encode .encode [], decode_encode .decode []⟩,
    fun _ h => decode_reserved (decodeOp_of_not_mem h) []⟩

/-! ### Programs and their bytes (R98, R99) -/

@[simp] theorem decodeProgram_encodeProgram (p : List Instr) : decodeProgram (encodeProgram p) = some p := by
  induction p with
  | nil => rfl
  | cons i is ih => simp [encodeProgram, encode, decodeProgram, ih]

theorem encodeProgram_of_decodeProgram {bytes : List Byte} {p : List Instr} (h : decodeProgram bytes = some p) :
    encodeProgram p = bytes := by
  induction bytes generalizing p with
  | nil => cases h; rfl
  | cons op rest ih =>
    cases hd : decodeOp op with
    | none => simp [decodeProgram, hd] at h
    | some i =>
      simp only [decodeProgram, hd, Option.map_eq_some_iff] at h
      obtain ⟨is, his, rfl⟩ := h
      rw [encodeProgram, ih his, encode, opcode_of_decodeOp hd, List.singleton_append]

/-! ### The text of a program (R99) -/

theorem linesOf_append_newline {l : List Char} (h : '\n' ∉ l) (cs : List Char) :
    linesOf (l ++ '\n' :: cs) = l :: linesOf cs := by
  induction l with
  | nil => rfl
  | cons c l ih =>
    obtain ⟨hc, hl⟩ := not_or.1 (mt List.mem_cons.2 h)
    rw [List.cons_append, linesOf, if_neg (Ne.symm hc), ih hl]

/-- R99: a comment ends the line's text, whatever it says. -/
theorem lineText_comment {l : List Char} (h : ';' ∉ l) (comment : List Char) :
    lineText (l ++ ';' :: comment) = lineText l := by
  have ht : ∀ c ∈ l, decide (c ≠ ';') = true := fun c hc => decide_eq_true (ne_of_mem_of_not_mem hc h)
  rw [lineText, lineText, List.takeWhile_append_of_pos ht, List.takeWhile_cons_of_neg (by decide), List.append_nil,
    List.takeWhile_eq_self_iff.2 ht]

@[simp] theorem lineText_mnemonic (i : Instr) : lineText (mnemonic i) = mnemonic i := by cases i <;> decide

@[simp] theorem lineText_mnemonic_blank (i : Instr) : lineText (mnemonic i ++ [' ']) = mnemonic i := by
  cases i <;> decide

theorem mnemonic_ne_nil (i : Instr) : mnemonic i ≠ [] := by cases i <;> decide

theorem newline_not_mem_mnemonic (i : Instr) : '\n' ∉ mnemonic i := by cases i <;> decide

@[simp] theorem commandNamed_mnemonic (i : Instr) : commandNamed (mnemonic i) = some i := by cases i <;> decide

/-- One line of `programText`, without its line end. -/
def programLine : Instr × Option (List Char) → List Char
  | (i, none) => mnemonic i
  | (i, some comment) => mnemonic i ++ ' ' :: ';' :: comment

theorem programText_cons (l : Instr × Option (List Char)) (ls : List (Instr × Option (List Char))) :
    Machine.programText (l :: ls) = programLine l ++ '\n' :: Machine.programText ls := by
  obtain ⟨i, _ | comment⟩ := l
  · rfl
  · simp [Machine.programText, programLine]

theorem newline_not_mem_programLine {l : Instr × Option (List Char)} (h : ∀ c ∈ l.2, '\n' ∉ c) :
    '\n' ∉ programLine l := by
  obtain ⟨i, _ | comment⟩ := l
  · exact newline_not_mem_mnemonic i
  · simpa [programLine, newline_not_mem_mnemonic i] using h

@[simp] theorem lineText_programLine (l : Instr × Option (List Char)) : lineText (programLine l) = mnemonic l.1 := by
  obtain ⟨i, _ | comment⟩ := l
  · exact lineText_mnemonic i
  · have hline : programLine (i, some comment) = (mnemonic i ++ [' ']) ++ ';' :: comment := by simp [programLine]
    rw [hline, lineText_comment (by cases i <;> decide), lineText_mnemonic_blank]

theorem linesOf_programText {ls : List (Instr × Option (List Char))} (h : ∀ l ∈ ls, ∀ c ∈ l.2, '\n' ∉ c) :
    linesOf (Machine.programText ls) = ls.map programLine ++ [[]] := by
  induction ls with
  | nil => rfl
  | cons l ls ih =>
    obtain ⟨hl, hls⟩ := List.forall_mem_cons.1 h
    rw [programText_cons, linesOf_append_newline (newline_not_mem_programLine hl), ih hls, List.map_cons,
      List.cons_append]

theorem assembleLines_programLines (ls : List (Instr × Option (List Char))) :
    assembleLines (ls.map programLine ++ [[]]) = some (ls.map (·.1)) := by
  induction ls with
  | nil => rfl
  | cons l ls ih => simp [assembleLines, mnemonic_ne_nil, ih]

/-- Settles O2: the opcode map is one-to-one, and each line of a program's text names its command. -/
theorem programRoundTrip : Obligations.ProgramRoundTrip := by
  refine ⟨decode_encode, decodeProgram_encodeProgram, fun _ _ => encodeProgram_of_decodeProgram, fun lines h => ?_⟩
  rw [assemble, linesOf_programText h, assembleLines_programLines]

end Sys2Proof
end

section
/-! PROOFS. The tree field (R86, R87): `Ser` is injective and self-delimiting, and `Des` undoes it. -/

namespace Sys2Proof.Machine

theorem bitsOf_sym_inj {a b : Sym} (h : bitsOf 9 a.toNat = bitsOf 9 b.toNat) : a = b := by
  have hv := congrArg valOf h
  simp only [valOf_bitsOf, Nat.mod_eq_of_lt a.isLt, Nat.mod_eq_of_lt b.isLt] at hv
  exact BitVec.eq_of_toNat_eq hv

/-- R87: the first tag tells a leaf from an internal node, and nine bits make a leaf's symbol. -/
theorem ser_append_inj {t t' : CodeTree} {r r' : List Bool} (h : ser t ++ r = ser t' ++ r') : t = t' ∧ r = r' := by
  induction t generalizing t' r r' with
  | leaf a =>
    cases t' with
    | leaf b =>
      simp only [ser, List.cons_append, List.cons.injEq, true_and] at h
      obtain ⟨hbits, hr⟩ := List.append_inj h (by simp)
      exact ⟨congrArg CodeTree.leaf (bitsOf_sym_inj hbits), hr⟩
    | node l' r₂' => simp [ser] at h
  | node l r₂ ihl ihr =>
    cases t' with
    | leaf b => simp [ser] at h
    | node l' r₂' =>
      simp only [ser, List.cons_append, List.append_assoc, List.cons.injEq, true_and] at h
      obtain ⟨rfl, hrest⟩ := ihl h
      obtain ⟨rfl, hr⟩ := ihr hrest
      exact ⟨rfl, hr⟩

theorem wf_of_bounds {t : CodeTree} (hn : t.nodes ≤ Config.nodeCap) (hs : ∀ sym ∈ t.leaves, sym.toNat ≤ Config.eos) :
    t.wf = true := by
  simpa [CodeTree.wf, CodeTree.symsOk, hn] using hs

/-- R87: the parser stops after the field of a tree the block can hold, whatever follows it. -/
theorem desBits_ser {t : CodeTree} (h : t.wf = true) (rest : List Bool) :
    desBits (ser t ++ rest) 0 = .tree t rest t.nodes := by
  have hd : t.height < Config.nodeCap + 1 - 0 := by
    have := t.wf_height h
    simp only [Config.nodeCap]; omega
  have hdes := des_ser t rest _ 0 (t.wf_syms h) (by simpa using t.wf_nodes h) hd
  rwa [Nat.zero_add] at hdes

/-- Settles O40: by the serialization's own recursion, and the parser lemma `des_ser`. -/
theorem treeFieldSelfDelimiting : Obligations.TreeFieldSelfDelimiting := by
  refine ⟨fun _ _ _ _ => ser_append_inj, fun t => ?_, fun t rest hn hs => desBits_ser (wf_of_bounds hn hs) rest⟩
  have hlen := ser_length t
  have hnodes := t.nodes_leaves
  have hpos := t.leaves_pos
  omega

end Sys2Proof.Machine
end

section
/-! PROOFS. MKTABLE's result on a tree in `NODE` (R141), and that no code word begins another's (R89). -/

namespace Sys2Proof.Machine

theorem mktableBody_eq {s : State} {t : CodeTree} (h : s.tree = some t) :
    mktableBody s = .done () { s with ct := codeTable t, tabV := true } := by
  simp only [mktableBody, dropTab_tree, h]
  rfl

theorem exec_mktable {s : State} {t : CodeTree} (hr : s.run = .ready) (hv : s.treeV = true) (ht : s.tree = some t) :
    exec .mktable s = .next { s with ct := codeTable t, tabV := true } := by
  rw [exec_taken (i := .mktable) (.inl hr) hv, bodyOf, mktableBody_eq (s := { s with run := .busy }) ht, complete, ← hr]

/-- R142: every code word of the table is the path of a leaf of its symbol. -/
theorem codeWord_mem_paths {t : CodeTree} (hw : t.wf = true) {a : Nat} {w : List Bool}
    (h : codeWord (codeTable t) a = some w) : ∃ sym : Sym, sym.toNat = a ∧ (sym, w) ∈ t.paths := by
  obtain ⟨c, hc, -⟩ := codeWord_some h
  obtain ⟨hlt, -⟩ := List.getElem?_eq_some_iff.1 hc
  rw [codeTable_length] at hlt
  have ha : (BitVec.ofNat 9 a).toNat = a := Nat.mod_eq_of_lt (hlt.trans (by decide))
  refine ⟨BitVec.ofNat 9 a, ha, lastPath_mem ?_⟩
  rw [← codeWord_codeTable hw _ (by rwa [ha]), ha, h]

/-- Settles O36: code words are paths to leaves, and no leaf's path begins that of another symbol's leaf. -/
theorem codesPrefixFree : Obligations.CodesPrefixFree := by
  intro s t tree hr hv ht hw hexec a b wa wb hne ha hb
  obtain rfl := Host.Outcome.next.inj ((exec_mktable hr hv ht).symm.trans hexec)
  obtain ⟨sa, rfl, hpa⟩ := codeWord_mem_paths hw ha
  obtain ⟨sb, rfl, hpb⟩ := codeWord_mem_paths hw hb
  exact path_not_prefix hpa hpb fun h => hne (congrArg BitVec.toNat h)

end Sys2Proof.Machine
end

section
/-! PROOFS. COUNT: its table and what it sums to (R112), the first increment that does not fit (R113), and the access of
`IN` at which COUNT or DESTREE fails (R55, R193). -/

namespace Sys2Proof.Machine

/-! ### The table of a source -/

theorem mem_tableSyms {cnt : List Nat} {sym : Nat} : sym ∈ tableSyms cnt ↔ ∃ c, c ≠ 0 ∧ cnt[sym]? = some c := by
  simp only [tableSyms, List.mem_map, Prod.exists, exists_and_right, exists_eq_right, tableEntries_mem, Nat.zero_le,
    Nat.sub_zero, true_and]

theorem tableSyms_length_le (cnt : List Nat) : (tableSyms cnt).length ≤ cnt.length := by
  rw [tableSyms, List.length_map]
  exact tableEntries_length 0 cnt

theorem eos_mem_tableSyms (src : List Byte) : Config.eos ∈ tableSyms (countTable src) :=
  mem_tableSyms.2 ⟨1, Nat.one_ne_zero, countTable_eos src⟩

theorem byte_mem_tableSyms {src : List Byte} {b : Byte} (h : b ∈ src) : b.toNat ∈ tableSyms (countTable src) :=
  mem_tableSyms.2 ⟨src.count b, (List.count_pos_iff.2 h).ne', countTable_byte src b⟩

/-- R112: the empty source's table holds the sentinel's count alone. -/
theorem countTable_nil : countTable [] = (List.replicate Config.nsym 0).set Config.eos 1 := (foldl_bump_table []).symm

theorem tableSyms_countTable_nil : tableSyms (countTable []) = [Config.eos] := by
  rw [tableSyms, countTable_nil, tableEntries_single 0 _ _ _ (by decide) Nat.one_ne_zero, List.map_singleton, Nat.zero_add]

/-- R112: `k = 1` exactly for the empty source, since a byte is another symbol than the sentinel. -/
theorem tableSyms_length_eq_one (src : List Byte) : (tableSyms (countTable src)).length = 1 ↔ src = [] := by
  constructor
  · intro h
    obtain ⟨sym, hsym⟩ := List.length_eq_one_iff.1 h
    refine List.eq_nil_iff_forall_not_mem.2 fun b hb => ?_
    have heos : Config.eos = sym := by simpa [hsym] using eos_mem_tableSyms src
    have hbyte : b.toNat = sym := by simpa [hsym] using byte_mem_tableSyms hb
    exact b.isLt.ne (hbyte.trans heos.symm)
  · rintro rfl
    rw [tableSyms_countTable_nil, List.length_singleton]

/-! ### COUNT as a command -/

theorem exec_count {s : State} (hr : s.run = .ready) : exec .count s = complete (countBody { s with run := .busy }) :=
  exec_taken (i := .count) (.inl hr) rfl

/-- Settles O28: the loop over the whole source counts every byte once, and the table holds these counts. -/
theorem countResult : Obligations.CountResult := by
  refine ⟨fun s hr hq hf => ?_, fun src => ⟨countTable_length src, countTable_byte src, countTable_eos src,
    countTable_sum src, List.length_pos_of_mem (eos_mem_tableSyms src),
    (tableSyms_length_le _).trans_eq (countTable_length src), tableSyms_length_eq_one src⟩⟩
  rw [exec_count hr, countBody_quiet (s := { s with run := .busy }) hq hf, complete, ← hr]
  rfl

/-! ### Where COUNT stops -/

/-- The state in which COUNT comes to its pass over byte `k`: the rewind and the passes before it are done. -/
def State.atPass (s : State) (k : Nat) : State :=
  { s.dropAll with inp := { s.inp with pos := 8 * k, errors := s.inp.errors.drop (9 * k + 1) } }

@[simp] theorem State.atPass_bytes (s : State) (k : Nat) : (s.atPass k).inp.bytes = s.inp.bytes := rfl

/-- R53: COUNT comes to its first pass once its rewind is granted. -/
theorem inRewind_dropAll {s : State} (h : quiet (s.inp.errors.take 1)) :
    inRewind s.dropAll = .done () (s.atPass 0) := inRewind_granted (s := s.dropAll) h

theorem atPass_afterBytes (s : State) (j k : Nat) : (s.atPass j).afterBytes k = s.atPass (j + k) := by
  simp [State.afterBytes, State.atPass, List.drop_drop, Nat.mul_add, Nat.add_right_comm]

/-- COUNT's table before its pass over the byte after `pre`. -/
def countedTo (pre : List Byte) : List Nat := pre.foldl bump (List.replicate Config.nsym 0)

theorem countedTo_getD (pre : List Byte) (b : Byte) : (countedTo pre).getD b.toNat 0 = pre.count b := by
  have hlt : b.toNat < Config.nsym := b.isLt.trans (by decide)
  rw [countedTo, List.getD_eq_getElem?_getD, foldl_bump_getElem? pre _ b.toNat b.isLt (by simpa using hlt)]
  simp [hlt]

/-- COUNT's loop comes to its pass over the byte after `pre`, where every access before it was granted and every count
before it fitted. -/
theorem countLoop_toPass {s : State} {pre post : List Byte} (hb : s.inp.bytes = pre ++ post)
    (hq : quiet ((s.atPass 0).inp.errors.take (9 * pre.length))) (hf : countsFit s.params pre) :
    countLoop (s.inp.bytes.length + 1) (List.replicate Config.nsym 0) (s.atPass 0) =
      countLoop (post.length + 1) (countedTo pre) (s.atPass pre.length) := by
  have hlen : s.inp.bytes.length = pre.length + post.length := by rw [hb, List.length_append]
  rw [countLoop_granted (pre := pre) (post := post) (j := 0) hq rfl hb (fits_zero hf) (by omega), atPass_afterBytes,
    Nat.zero_add, ← countedTo]
  congr 1
  omega

/-- A `raise` in the pass over the byte after `pre` ends COUNT. -/
theorem countBody_raise {s u : State} {pre post : List Byte} {c : Cause} {info : Word}
    (hb : s.inp.bytes = pre ++ post) (hq : quiet (s.inp.errors.take (9 * pre.length + 1)))
    (hf : countsFit s.params pre)
    (hpass : ∀ n, countLoop (n + 1) (countedTo pre) (s.atPass pre.length) = raise c info u) :
    countBody s = raise c info u := by
  rw [Nat.add_comm, quiet_take_add] at hq
  obtain ⟨hrewind, hpasses⟩ := hq
  rw [countBody, inRewind_dropAll hrewind, andThen_done, State.atPass_bytes, countLoop_toPass hb hpasses hf, hpass,
    andThen_raise]

theorem exec_count_raise {s u : State} {c : Cause} {info : Word} (hr : s.run = .ready)
    (h : countBody { s with run := .busy } = raise c info u) : exec .count s = .next (faultEntry c info u) := by
  rw [exec_count hr, h]
  rfl

/-! ### Overflow -/

/-- R113: a count that fits and leaves no room for one more is the largest that fits. -/
theorem count_eq_max {p : Params} {pre : List Byte} {b : Byte} {n : Nat} (hn : n ∈ p.countWidth)
    (hf : countsFit p pre) (hfull : 2 ^ n - 1 ≤ pre.count b) : pre.count b = 2 ^ n - 1 := by
  refine Nat.le_antisymm ?_ hfull
  by_cases hb : b ∈ pre
  · exact hf b hb n hn
  · rw [List.count_eq_zero_of_not_mem hb]
    exact Nat.zero_le _

/-- R113: counts that do not fit have a first increment that does not. -/
theorem first_overflow {p : Params} {src : List Byte} (h : ¬ countsFit p src) :
    ∃ pre b post, src = pre ++ b :: post ∧ countsFit p pre ∧ countFull p ((countedTo pre).getD b.toNat 0) = true := by
  obtain ⟨pre, b, post, hsrc, hfits, hfull⟩ := first_full src _ fun hf => h (countsFit_of_fits hf)
  exact ⟨pre, b, post, hsrc, countsFit_of_fits hfits, hfull⟩

/-- R113: COUNT at the first increment that does not fit. -/
theorem countBody_overflow {s : State} {pre post : List Byte} {b : Byte} (hq : quiet s.inp.errors)
    (hb : s.inp.bytes = pre ++ b :: post) (hf : countsFit s.params pre)
    (hfull : countFull s.params ((countedTo pre).getD b.toNat 0) = true) :
    countBody s = raise .countOverflow (b.zeroExtend 32) (s.atPass (pre.length + 1)) := by
  refine countBody_raise hb (quiet_take hq _) hf fun n => ?_
  have hdrop : (s.atPass pre.length).inp.bytes.drop pre.length = b :: post := by
    simp [hb]
  rw [countLoop_full (s := s.atPass pre.length) (quiet_drop hq _) rfl hdrop hfull, atPass_afterBytes, BitVec.ofNat_toNat]

/-- R112, R113: a COUNT that completes has counted the whole source, and the counts fit. -/
theorem exec_count_ready {s t : State} (hr : s.run = .ready) (h : exec .count s = .next t) (ht : t.run = .ready) :
    t.cnt = countTable s.inp.bytes ∧ countsFit s.params s.inp.bytes := by
  obtain ⟨u, ⟨e, rfl, hfits⟩, rfl⟩ | hraise := complete_next (countBody_ends _) (exec_count hr ▸ h)
  · exact ⟨rfl, countsFit_of_fits hfits⟩
  · cases ht.symm.trans (raises_run hraise)

/-- Settles O29: COUNT runs as on a source that fits up to the first full count, and a run that completes has met
none. -/
theorem countOverflow : Obligations.CountOverflow := by
  refine ⟨fun s hr hq hover => ?_, fun s t => exec_count_ready⟩
  obtain ⟨pre, b, post, hb, hf, hfull⟩ := first_overflow hover
  have hbody := countBody_overflow (s := { s with run := .busy }) hq hb hf hfull
  rw [countedTo_getD, countFull_iff] at hfull
  obtain ⟨n, hn, hle⟩ := hfull
  exact ⟨n, hn, pre, b, post, hb, hf, count_eq_max hn hf hle, exec_count_raise hr hbody⟩

/-! ### A failing access -/

/-- R55: COUNT whose rewind fails. -/
theorem countBody_rewindError {s : State} {rest : List Bool} (he : s.inp.errors = true :: rest) :
    countBody s = raise .ioFailure 0 (s.dropAll.withInErrors rest) := by
  rw [countBody, inRewind_error (s := s.dropAll) he, andThen_raise]

/-- R55: COUNT whose pass over byte `k` fails at its `m`-th access. -/
theorem countBody_passError {s : State} {k m : Nat} {rest : List Bool}
    (hm : (k < s.inp.bytes.length ∧ m ≤ 8) ∨ (k = s.inp.bytes.length ∧ m = 0))
    (hf : countsFit s.params (s.inp.bytes.take k))
    (he : s.inp.errors = List.replicate (9 * k + m + 1) false ++ true :: rest) :
    countBody s =
      raise .ioFailure 0 { s.dropAll with inp := { s.inp with pos := 8 * k + (m - 1), errors := rest } } := by
  have hk : (s.inp.bytes.take k).length = k := List.length_take_of_le (by omega)
  have hsplit : s.inp.errors = List.replicate (9 * k + 1) false ++ (List.replicate m false ++ true :: rest) := by
    rw [he, ← List.append_assoc, List.replicate_append_replicate, Nat.add_right_comm]
  refine countBody_raise (List.take_append_drop k _).symm ?_ hf fun n => ?_
  · rw [hk, hsplit]
    exact quiet_replicate _ _
  · rw [hk]
    refine countLoop_error (s := s.atPass k) rfl hm ?_
    rw [State.atPass, hsplit, List.drop_left' List.length_replicate]

/-- R55, R193: DESTREE whose read after the first `j` bits fails, these not completing the tree field. -/
theorem destreeBody_error {s : State} {j : Nat} {info : Word} {rest : List Bool} (hj : j ≤ s.inRest.length)
    (hi : info = 0 ∨ info = 1) (hd : desBits (s.inRest.take j) 0 = .malformed info [])
    (he : s.inp.errors = List.replicate j false ++ true :: rest) :
    destreeBody s =
      raise .ioFailure 0 { s.dropTree with inp := { s.inp with pos := s.inp.pos + j, errors := rest } } := by
  have hlen : (s.inRest.take j).length = j := List.length_take_of_le hj
  rw [destreeBody, desNode_error (d := Config.nodeCap + 1) (s := s.dropTree) (rest := rest) hd hi (Nat.zero_le _) (by omega)
    (List.take_append_drop j s.inRest).symm (by rw [hlen]; exact he), hlen, andThen_raise]
  rfl

theorem exec_destree_raise {s u : State} {c : Cause} {info : Word} (hr : s.run = .ready)
    (h : destreeBody { s with run := .busy } = raise c info u) : exec .destree s = .next (faultEntry c info u) := by
  rw [exec_taken (i := .destree) (.inl hr) rfl, bodyOf, h]
  rfl

/-- Settles O60: the accesses granted before the failing one go through, and its `raise` ends the command. -/
theorem countDestreePortFailure : Obligations.CountDestreePortFailure := fun s hr =>
  ⟨fun _ he => exec_count_raise hr (countBody_rewindError (s := { s with run := .busy }) he),
    fun _ _ _ hm hf he => exec_count_raise hr (countBody_passError (s := { s with run := .busy }) hm hf he),
    fun _ _ _ hj hi hd he => exec_destree_raise hr (destreeBody_error (s := { s with run := .busy }) hj hi hd he)⟩

end Sys2Proof.Machine
end

section
/-! PROOFS. BUILD: the end of the command on a table with an entry, on one of one entry and on an empty one (R121, R126,
R127), and what the pool its loop ends with says of the tree, the weights and the merges (R122 to R125). -/

namespace Sys2Proof.Machine

/-! ### The queue (R122) -/

/-- `ExtractMin` takes the node that is least in the order of the queue, and clears its `LIVE` bit. -/
theorem extractMin_some {p q : Pool} {w i : Nat} (h : extractMin p = some (w, i, q)) :
    leastLive 0 p.live p.weight = some (w, i) ∧ q = { p with live := p.live.set i false } := by
  rw [extractMin] at h
  cases hl : leastLive 0 p.live p.weight with
  | none =>
    rw [hl] at h
    cases h
  | some x =>
    rw [hl] at h
    cases h
    exact ⟨rfl, rfl⟩

theorem extractMin_least {p q : Pool} {w i : Nat} (h : extractMin p = some (w, i, q)) :
    p.live[i]? = some true ∧ p.weight[i]? = some w ∧ q = { p with live := p.live.set i false } ∧
      ∀ j wj, p.live[j]? = some true → p.weight[j]? = some wj → w < wj ∨ (w = wj ∧ i ≤ j) := by
  obtain ⟨hmin, hq⟩ := extractMin_some h
  obtain ⟨-, hlive, hweight, hleast⟩ := leastLive_some hmin
  simp only [Nat.zero_add] at hleast
  exact ⟨hlive, hweight, hq, hleast⟩

theorem extractMin_isSome {p : Pool} {j w : Nat} (hl : p.live[j]? = some true) (hw : p.weight[j]? = some w) :
    (extractMin p).isSome = true := by
  obtain ⟨x, hx⟩ := leastLive_isSome (i := 0) hl hw
  rw [extractMin, hx]
  rfl

/-! ### BUILD as a command -/

theorem exec_build {s : State} (hr : s.run = .ready) (hf : s.ftV = true) :
    exec .build s = complete (buildBody { s with run := .busy }) := exec_taken (i := .build) (.inl hr) hf

/-- The state BUILD completes in, where its loop ends with a pool. -/
def State.built (s : State) (p : Pool) : State :=
  { s with
    treeV := true, tabV := false, ct := [], node := p.node, weight := p.weight, live := p.live
    root := BitVec.ofNat 10 (p.node.length - 1), nnodes := BitVec.ofNat 10 p.node.length }

/-- The pool BUILD's loop ends with: one live node, the last one made, and the tree below it. -/
abbrev FinalPool (cnt : List Nat) (p : Pool) (tree : CodeTree) : Prop :=
  PoolInv cnt (leafSyms cnt) p [(p.node.length - 1, tree)]

theorem exec_build_built {s : State} (hr : s.run = .ready) (hf : s.ftV = true) (ht : TableInv s) :
    ∃ p tree, FinalPool s.cnt p tree ∧ exec .build s = .next (s.built p) := by
  obtain ⟨hl, heos, -⟩ := ht
  obtain ⟨p, tree, hp, hbody⟩ := buildBody_eq (s := { s with run := .busy }) hl (leafSyms_pos heos)
  refine ⟨p, tree, hp, ?_⟩
  rw [exec_build hr hf, hbody, complete, ← hr]
  rfl

theorem built_of_exec {s t : State} (hr : s.run = .ready) (hf : s.ftV = true) (ht : TableInv s)
    (h : exec .build s = .next t) : ∃ p tree, FinalPool s.cnt p tree ∧ t = s.built p := by
  obtain ⟨p, tree, hp, he⟩ := exec_build_built hr hf ht
  exact ⟨p, tree, hp, Host.Outcome.next.inj (h.symm.trans he)⟩

/-! ### The tree and the weights of the final pool (R123, R125) -/

theorem leafSyms_length_tableSyms (cnt : List Nat) : (leafSyms cnt).length = (tableSyms cnt).length :=
  List.length_map _

theorem tableSyms_sorted (cnt : List Nat) : (tableSyms cnt).Pairwise (· < ·) :=
  List.pairwise_map.2 (tableEntries_sorted 0 cnt)

section
variable {cnt : List Nat} {p : Pool} {tree : CodeTree} (hl : cnt.length = Config.nsym) (hp : FinalPool cnt p tree)

include hp

theorem FinalPool.live_iff (i : Nat) : p.live[i]? = some true ↔ i = p.node.length - 1 := by
  rw [hp.live, List.map_singleton, List.mem_singleton]

/-- The leaves stand first, in ascending order of symbol. -/
theorem FinalPool.leaf {i : Nat} (hi : i < (tableSyms cnt).length) :
    p.node[i]? = (tableSyms cnt)[i]?.map fun sym => .leaf (BitVec.ofNat 9 sym) := by
  rw [hp.seeds i (by rwa [leafSyms_length_tableSyms]), leafSyms, List.getElem?_map, Option.map_map]
  rfl

/-- The internal nodes follow, each above its children. -/
theorem FinalPool.internal {i : Nat} (hi : (tableSyms cnt).length ≤ i) (hlt : i < p.node.length) :
    ∃ l r : NodeIdx, p.node[i]? = some (.internal l r) ∧ l.toNat < i ∧ r.toNat < i := by
  obtain ⟨l, r, hcell⟩ := hp.inner i (by rwa [leafSyms_length_tableSyms]) hlt
  obtain ⟨hleft, hright, -⟩ := hp.merged i l r hcell
  exact ⟨l, r, hcell, hleft, hright⟩

/-- A leaf's symbol is one of the table's. -/
theorem FinalPool.leaf_mem {i : Nat} {sym : Sym} (hi : p.node[i]? = some (.leaf sym)) : sym ∈ leafSyms cnt := by
  have hlt : i < (leafSyms cnt).length := by
    by_contra hge
    obtain ⟨l, r, hcell⟩ := hp.inner i (not_lt.1 hge) (List.getElem?_eq_some_iff.1 hi).1
    cases hi.symm.trans hcell
  obtain ⟨sym', hget, hcell⟩ := Option.map_eq_some_iff.1 ((hp.seeds i hlt).symm.trans hi)
  cases hcell
  exact List.mem_of_getElem? hget

include hl

/-- A table of `k` symbols makes `2k-1` nodes. -/
theorem FinalPool.length_node : p.node.length + 1 = 2 * (tableSyms cnt).length := by
  obtain ⟨-, -, hsize, -⟩ := pool_tree hl hp
  rwa [leafSyms_length_tableSyms] at hsize

theorem FinalPool.length_node_le : p.node.length ≤ Config.nodeCap := by
  obtain ⟨hwf, hnodes, -⟩ := pool_tree hl hp
  exact hnodes ▸ CodeTree.wf_nodes hwf

theorem FinalPool.built_nnodes (s : State) : (s.built p).nnodes.toNat = p.node.length :=
  Nat.mod_eq_of_lt ((hp.length_node_le hl).trans_lt (by decide))

theorem FinalPool.built_root (s : State) : (s.built p).root.toNat = p.node.length - 1 :=
  Nat.mod_eq_of_lt (((Nat.sub_le _ _).trans (hp.length_node_le hl)).trans_lt (by decide))

/-- R36: the tree's symbols are those of the nonzero cells. -/
theorem FinalPool.mem_leaves (sym : Sym) : sym ∈ tree.leaves ↔ ∃ c, cnt[sym.toNat]? = some c ∧ c ≠ 0 := by
  obtain ⟨-, -, -, hperm, -⟩ := pool_tree hl hp
  exact hperm.mem_iff.trans (mem_leafSyms hl sym)

/-- R36: no symbol has two leaves. -/
theorem FinalPool.nodup_leaves : tree.leaves.Nodup := by
  obtain ⟨-, -, -, hperm, -⟩ := pool_tree hl hp
  exact hperm.nodup_iff.2 (leafSyms_nodup hl)

/-- A leaf's weight is its symbol's count. -/
theorem FinalPool.leaf_weight {i : Nat} {sym : Sym} (hi : p.node[i]? = some (.leaf sym)) :
    p.weight[i]? = cnt[sym.toNat]? := by
  obtain ⟨c, hc, -⟩ := (mem_leafSyms hl sym).1 (hp.leaf_mem hi)
  rw [hp.seedWeights i sym hi, List.getD_eq_getElem?_getD, hc, Option.getD_some]

/-- The root's weight is the sum of all counts. -/
theorem FinalPool.root_weight : p.weight[p.node.length - 1]? = some cnt.sum := by
  obtain ⟨-, -, -, hperm, -⟩ := pool_tree hl hp
  rw [hp.rootWeight _ (List.mem_singleton_self _), treeWeight_root hl hperm]

/-- Every node is below the root, so none has more weight. -/
theorem FinalPool.weight_le {w : Nat} (hw : w ∈ p.weight) : w ≤ cnt.sum := by
  obtain ⟨j, hj, hjw⟩ := List.mem_iff_getElem.1 hw
  have hperm : (indices p.node (p.node.length - 1) tree).Perm (List.range p.node.length) := by
    simpa using hp.indices
  have hbelow : j ∈ indices p.node (p.node.length - 1) tree :=
    hperm.mem_iff.2 (List.mem_range.2 (hp.weights ▸ hj))
  exact subtree_weight_le hp tree _ _ (hp.trees _ (List.mem_singleton_self _)) (hp.root_weight hl) j hbelow w
    (List.getElem?_eq_some_iff.2 ⟨hj, hjw⟩)

end

/-- Settles O30: BUILD completes with the pool its loop ends with, whose invariant gives numbering and tree. -/
theorem buildResult : Obligations.BuildResult := by
  intro s hr hf ht
  obtain ⟨p, tree, hp, hexec⟩ := exec_build_built hr hf ht
  have hl := ht.1
  have hlen := hp.length_node hl
  have hnn := hp.built_nnodes hl s
  have hroot := hp.built_root hl s
  obtain ⟨htree, hinv⟩ := pool_inv (s := s.built p) hl hp rfl rfl rfl
  obtain ⟨-, hnodes, -⟩ := pool_tree hl hp
  exact ⟨s.built p, tree, hexec, rfl, htree, hnodes.trans hnn.symm, by omega, by omega,
    show p.node.length = _ by omega, fun i => hroot ▸ hp.live_iff i, fun i hi => hp.leaf hi, tableSyms_sorted _,
    fun i hi hlt => hp.internal hi hlt, hp.nodup_leaves hl, hp.mem_leaves hl, hinv⟩

/-- R7: 257 counts of `CNT_W` bits sum to fewer than `CNT_W + 9` bits hold. -/
theorem TableInv.sum_lt {s : State} (h : TableInv s) {n : Nat} (hn : n ∈ s.params.countWidth) :
    s.cnt.sum < 2 ^ (n + 9) := by
  obtain ⟨hl, -, hfit⟩ := h
  have hsum : s.cnt.sum ≤ 257 * (2 ^ n - 1) := by
    simpa [hl, Config.nsym] using List.sum_le_card_nsmul s.cnt (2 ^ n - 1) fun c hc => hfit c hc n hn
  have hpow : 2 ^ (n + 9) = 2 ^ n * 512 := Nat.pow_add 2 n 9
  have hpos : 0 < 2 ^ n := Nat.two_pow_pos n
  omega

/-- Settles O31: the pool's invariant has each node's weight, and the root's bounds them all. -/
theorem buildWeights : Obligations.BuildWeights := by
  intro s t hr hf ht hexec
  obtain ⟨p, tree, hp, rfl⟩ := built_of_exec hr hf ht hexec
  have hl := ht.1
  have hroot : p.weight[(s.built p).root.toNat]? = some s.cnt.sum := by
    rw [hp.built_root hl, hp.root_weight hl]
  refine ⟨fun i sym hi => hp.leaf_weight hl hi, fun i l r hi => ?_, hroot, fun src hsrc => ?_, fun n hn w hw => ?_⟩
  · obtain ⟨-, -, wl, wr, hwl, hwr, hwi, -⟩ := hp.merged i l r hi
    exact ⟨wl, wr, hwl, hwr, hwi⟩
  · exact hroot.trans (by rw [hsrc, countTable_sum])
  · exact (hp.weight_le hl hw).trans_lt (ht.sum_lt hn)

/-! ### The merges (R124) -/

/-- Settles O32: the queue's minimum is `leastLive`'s, and the pool's invariant keeps what it says of every merge. -/
theorem queueOrder : Obligations.QueueOrder := by
  refine ⟨fun p q w i => extractMin_least, fun p j wj => extractMin_isSome, fun s t hr hf ht hexec i l r hi => ?_⟩
  obtain ⟨p, tree, hp, rfl⟩ := built_of_exec hr hf ht hexec
  obtain ⟨-, -, wl, wr, hwl, hwr, -, horder⟩ := hp.merged i l r hi
  refine ⟨wl, wr, hwl, hwr, horder, fun j hj hjl hjr hfree => ?_⟩
  obtain ⟨wr', wj, hwr', hwj, hafter⟩ := hp.greedy i l r hi j hj hjl hjr hfree
  cases hwr.symm.trans hwr'
  exact ⟨wj, hwj, hafter⟩

/-! ### One symbol (R126) -/

/-- The table whose one nonzero cell is `sym`'s. -/
def oneSymbol (sym : Sym) (c : Nat) : List Nat := (List.replicate Config.nsym 0).set sym.toNat c

/-- The pool of one leaf. -/
def onePool (sym : Sym) (c : Nat) : Pool where
  node := [.leaf sym]
  weight := [c]
  live := true :: List.replicate (Config.nodeCap - 1) false

theorem seedPool_oneSymbol {sym : Sym} {c : Nat} (hs : sym.toNat ≤ 256) (hc : c ≠ 0) :
    seedPool (oneSymbol sym c) = onePool sym c := by
  have hentries : tableEntries 0 (oneSymbol sym c) = [(sym.toNat, c)] := by
    rw [oneSymbol, tableEntries_single 0 Config.nsym _ c (Nat.lt_succ_of_le hs) hc, Nat.zero_add]
  simp [seedPool, onePool, hentries]

/-- The loop does not run while at most one node is live. -/
theorem mergeLoop_stop {p : Pool} (h : p.live.count true ≤ 1) (n : Nat) : mergeLoop n p = some p := by
  cases n with
  | zero => rw [mergeLoop, if_neg (not_lt.2 h)]
  | succ n => rw [mergeLoop, if_neg (not_lt.2 h)]

theorem buildBody_oneSymbol {s : State} {sym : Sym} {c : Nat} (hs : sym.toNat ≤ 256) (hc : c ≠ 0)
    (hcnt : s.cnt = oneSymbol sym c) : buildBody s = .done () (s.built (onePool sym c)) := by
  have hl : s.dropTree.cnt.length = Config.nsym := by
    rw [State.dropTree_cnt, hcnt, oneSymbol, List.length_set, List.length_replicate]
  have hlive : (onePool sym c).live.count true ≤ 1 := by simp [onePool, List.count_replicate]
  have hseed : seedPool s.dropTree.cnt = onePool sym c := by rw [State.dropTree_cnt, hcnt, seedPool_oneSymbol hs hc]
  rw [buildBody]
  simp only [hseed, mergeLoop_stop hlive]
  rw [if_neg (not_not.2 hl), if_neg (show (onePool sym c).node.length ≠ 0 from Nat.one_ne_zero)]
  rfl

/-- Settles O33: one leaf is seeded, and the loop does not run. -/
theorem buildOneSymbol : Obligations.BuildOneSymbol := by
  intro s sym c hr hf hs hc hcnt
  refine ⟨s.built (onePool sym c), ?_, rfl, rfl, countTable_nil⟩
  rw [exec_build hr hf, buildBody_oneSymbol (s := { s with run := .busy }) hs hc hcnt, complete, ← hr]
  rfl

/-! ### The empty table (R127) -/

theorem buildBody_empty {s : State} (hcnt : s.cnt = List.replicate Config.nsym 0) :
    buildBody s = raise .inputError 0 { s.dropTree with live := List.replicate Config.nodeCap false } := by
  have hl : s.dropTree.cnt.length = Config.nsym := by rw [State.dropTree_cnt, hcnt, List.length_replicate]
  have hseed : (seedPool s.dropTree.cnt).node.length = 0 := by
    rw [State.dropTree_cnt, hcnt, seedPool, tableEntries_zero]
    rfl
  rw [buildBody]
  simp only
  rw [if_neg (not_not.2 hl), if_pos hseed]

/-- Settles O34: no leaf is seeded from an empty table, and a table with its invariant has the sentinel's leaf. -/
theorem buildEmptyTable : Obligations.BuildEmptyTable := by
  refine ⟨fun s hr hf hcnt => ?_, fun s t hinv hr hexec => ?_⟩
  · rw [exec_build hr hf, buildBody_empty (s := { s with run := .busy }) hcnt]
    rfl
  · cases hf : s.ftV with
    | true =>
      obtain ⟨p, tree, -, rfl⟩ := built_of_exec hr hf (hinv.table hf) hexec
      exact .inl hr
    | false =>
      obtain rfl := Host.Outcome.next.inj ((exec_disabled (i := .build) hr hf).symm.trans hexec)
      exact .inr (show Cause.illegalCommand.code ≠ 4 by decide)

end Sys2Proof.Machine
end

section
/-! PROOFS. The Tree Codec: what SERTREE writes (R131, R132), `Des` and its equations (R135), DESTREE as `Des`, on a tree
field and with its numbering (R134 to R138), and the round trip of a tree (R139). -/

namespace Sys2Proof.Machine

/-! ### SERTREE (R131, R132) -/

theorem exec_sertree {s : State} {tree : CodeTree} (hr : s.run = .ready) (hv : s.treeV = true)
    (ht : s.tree = some tree) : exec .sertree s = complete (outString (ser tree) { s with run := .busy }) := by
  have hbody : sertreeBody { s with run := .busy } = outString (ser tree) { s with run := .busy } := by
    rw [sertreeBody, show State.tree { s with run := .busy } = some tree from ht]
  rw [exec_taken (i := .sertree) (.inl hr) hv, bodyOf, hbody]

theorem exec_sertree_quiet {s : State} {tree : CodeTree} (hr : s.run = .ready) (hv : s.treeV = true)
    (ht : s.tree = some tree) (hq : quiet s.out.errors) : exec .sertree s = .next (s.appendOut (ser tree)) := by
  rw [exec_sertree hr hv ht, outString_quiet _ (s := { s with run := .busy }) hq, complete, State.appendOut,
    State.appendOut, ← hr]

theorem exec_sertree_error {s : State} {tree : CodeTree} {j : Nat} {rest : List Bool} (hr : s.run = .ready)
    (hv : s.treeV = true) (ht : s.tree = some tree) (hj : j < (ser tree).length)
    (he : s.out.errors = List.replicate j false ++ true :: rest) :
    exec .sertree s = .next (faultEntry .ioFailure 1
      { s with out := { bits := s.out.bits ++ (ser tree).take j, errors := rest } }) := by
  rw [exec_sertree hr hv ht, outString_error (s := { s with run := .busy }) hj he]
  rfl

/-- R87: the length of a tree field. -/
theorem ser_length_eq (t : CodeTree) : (ser t).length = 11 * t.leaves.length - 1 :=
  Nat.eq_sub_of_add_eq (ser_length t)

/-- Settles O38: the body is one write of the tree field. -/
theorem sertreeResult : Obligations.SertreeResult := fun _ _ hr hv ht =>
  ⟨exec_sertree_quiet hr hv ht, fun _ _ hj he => exec_sertree_error hr hv ht hj he⟩

/-- Settles O39: what SERTREE appends is a function of the abstract tree. -/
theorem sertreeLength : Obligations.SertreeLength := fun _ _ tree hrs hru hvs hvu hts htu hqs hqu =>
  ⟨ser tree, _, _, exec_sertree_quiet hrs hvs hts hqs, exec_sertree_quiet hru hvu htu hqu, rfl, rfl, ser_length_eq tree⟩

/-! ### The equations of `Des` (R135) -/

theorem desBits_eq_des {n : Nat} (s : List Bool) (hn : n ≤ Config.nodeCap) :
    desBits s n = des (Config.nodeCap - n + 1) s n := by
  rw [desBits, Nat.sub_add_comm hn]

theorem desBits_nil {n : Nat} (hn : n ≤ Config.nodeCap) : desBits [] n = .malformed 0 [] := by
  rw [desBits_eq_des _ hn, des]

theorem desBits_full (b : Bool) (s : List Bool) : desBits (b :: s) Config.nodeCap = .capacity s := by
  rw [desBits_eq_des _ le_rfl, des, if_pos rfl]

/-- R135: a leaf's tag. -/
theorem desBits_leaf {n : Nat} (s : List Bool) (hn : n < Config.nodeCap) :
    desBits (false :: s) n =
      if s.length < 9 then .malformed 1 []
      else if 256 < valOf (s.take 9) then .malformed 2 (s.drop 9)
      else .tree (.leaf (BitVec.ofNat 9 (valOf (s.take 9)))) (s.drop 9) (n + 1) := by
  rw [desBits_eq_des _ hn.le, des, if_neg hn.ne, if_neg Bool.false_ne_true]

theorem desBits_leaf_short {n : Nat} {s : List Bool} (hn : n < Config.nodeCap) (hs : s.length < 9) :
    desBits (false :: s) n = .malformed 1 [] := by
  rw [desBits_leaf s hn, if_pos hs]

/-- R135: a leaf's tag with nine bits behind it. -/
theorem desBits_leaf_append {n : Nat} {v : List Bool} (s : List Bool) (hn : n < Config.nodeCap) (hv : v.length = 9) :
    desBits (false :: (v ++ s)) n =
      if 256 < valOf v then .malformed 2 s else .tree (.leaf (BitVec.ofNat 9 (valOf v))) s (n + 1) := by
  rw [desBits_leaf _ hn, if_neg (by rw [List.length_append]; omega), List.take_left' hv, List.drop_left' hv]

/-- One parse after another: a fault ends the parse. -/
def DesResult.andThen (r : DesResult) (k : CodeTree → List Bool → Nat → DesResult) : DesResult :=
  match r with
  | .tree t rest n => k t rest n
  | f => f

@[simp] theorem DesResult.andThen_tree (t : CodeTree) (rest : List Bool) (n : Nat)
    (k : CodeTree → List Bool → Nat → DesResult) : (DesResult.tree t rest n).andThen k = k t rest n := rfl

/-- R135: an internal node's tag, before its depth bound is seen to play no part. -/
theorem des_internal {d n : Nat} (s : List Bool) (hn : n < Config.nodeCap) :
    des (d + 1) (true :: s) n =
      (des d s (n + 1)).andThen fun l s1 n1 => (des d s1 n1).andThen fun r s2 n2 => .tree (.node l r) s2 n2 := by
  rw [des, if_neg hn.ne, if_pos rfl]
  cases des d s (n + 1) with
  | malformed info rest => rfl
  | capacity rest => rfl
  | tree l s1 n1 =>
    simp only [DesResult.andThen_tree]
    cases des d s1 n1 <;> rfl

/-- R135: an internal node's tag. The left subtree leaves its count of nodes within capacity, so the bound is large enough
for the right one. -/
theorem desBits_internal {n : Nat} (s : List Bool) (hn : n < Config.nodeCap) :
    desBits (true :: s) n =
      (desBits s (n + 1)).andThen fun l s1 n1 => (desBits s1 n1).andThen fun r s2 n2 => .tree (.node l r) s2 n2 := by
  have hleft : desBits s (n + 1) = des (Config.nodeCap - n) s (n + 1) := by rw [desBits, Nat.add_sub_add_right]
  rw [desBits_eq_des _ hn.le, des_internal s hn, hleft]
  cases hl : des (Config.nodeCap - n) s (n + 1) with
  | malformed info rest => rfl
  | capacity rest => rfl
  | tree l s1 n1 =>
    obtain ⟨-, hn1, hcap, -⟩ := des_tree hl
    have hle : n1 ≤ Config.nodeCap := hcap hn
    have hright : des (Config.nodeCap - n) s1 n1 = desBits s1 n1 :=
      des_bound_irrelevant _ _ _ _ (by omega) (by omega) hle
    simp only [DesResult.andThen_tree, hright]

/-! ### DESTREE (R134) -/

/-- The state DESTREE completes in where it has read a tree, its input port left so. -/
def State.destreed (s : State) (tree : CodeTree) (inp : InPort) : State :=
  { s with
    treeV := true, tabV := false, node := preorderCells 0 tree, weight := [], ct := [], root := 0
    nnodes := BitVec.ofNat 10 tree.nodes, inp := inp }

theorem State.destreed_tree (s : State) {tree : CodeTree} (inp : InPort) (h : tree.wf = true) :
    (s.destreed tree inp).tree = some tree := (preorder_inv h rfl rfl rfl).1

theorem State.destreed_nnodes (s : State) {tree : CodeTree} (inp : InPort) (h : tree.wf = true) :
    (s.destreed tree inp).nnodes.toNat = tree.nodes :=
  Nat.mod_eq_of_lt ((tree.wf_nodes h).trans_lt (by decide))

theorem exec_destree {s : State} (hr : s.run = .ready) :
    exec .destree s = complete (destreeBody { s with run := .busy }) := exec_taken (i := .destree) (.inl hr) rfl

/-- R134, R138: DESTREE on a tree field, whatever follows it. -/
theorem exec_destree_field {s : State} {tree : CodeTree} {rest : List Bool} (hr : s.run = .ready)
    (hq : quiet s.inp.errors) (hw : tree.wf = true) (hin : s.inRest = ser tree ++ rest) :
    exec .destree s = .next (s.destreed tree (s.advanceIn (ser tree).length).inp) := by
  rw [exec_destree hr, destreeBody_quiet (s := { s with run := .busy }) hq hw hin, complete, State.destreed, ← hr]
  rfl

theorem exec_destree_ready {s t : State} (hr : s.run = .ready) (h : exec .destree s = .next t) (ht : t.run = .ready) :
    ∃ tree inp, tree.wf = true ∧ t = s.destreed tree inp := by
  obtain ⟨u, ⟨tree, hw, inp, -, -, rfl⟩, rfl⟩ | hraise := complete_next (destreeBody_ends _) (exec_destree hr ▸ h)
  · exact ⟨tree, inp, hw, by rw [State.destreed, ← hr]; rfl⟩
  · cases ht.symm.trans (raises_run hraise)

/-- Settles O42: by the body's lemma on a tree field. -/
theorem destreeResult : Obligations.DestreeResult := by
  intro s tree rest hr hq hw hin
  refine ⟨_, exec_destree_field hr hq hw hin, ?_, s.destreed_tree _ hw, ?_⟩
  · rw [ser_length_eq]
    rfl
  · show (s.advanceIn (ser tree).length).inRest = rest
    rw [inRest_advance, hin, List.drop_left]

/-! ### DESTREE as `Des` (R135) -/

/-- What `Des` answers from no node on is a tree the block can hold, and its field has been read. -/
theorem desBits_tree {s rest : List Bool} {tree : CodeTree} {n : Nat} (h : desBits s 0 = .tree tree rest n) :
    tree.wf = true ∧ n = tree.nodes ∧ s = ser tree ++ rest := by
  obtain ⟨hsyms, hn, hcap, hs⟩ := des_tree h
  have hle := hcap (Nat.zero_le _)
  rw [Nat.zero_add] at hn
  exact ⟨by simp [CodeTree.wf, hsyms, ← hn, hle], hn, hs⟩

/-- DESTREE's recursion where `Des` refuses the input as malformed. -/
theorem desNode_malformed {s : State} {info : Word} {rest : List Bool} (hq : quiet s.inp.errors)
    (h : desBits s.inRest 0 = .malformed info rest) :
    ∃ e, desNode (Config.nodeCap + 1) 0 s = raise .malformedBitstream info
      { s with inp := { s.inp with pos := s.inp.pos + (s.inRest.length - rest.length), errors := e } } := by
  have hnode := desNode_quiet (d := Config.nodeCap + 1) (n := 0) hq (Nat.zero_le _) (Nat.lt_succ_self _)
  rw [show des (Config.nodeCap + 1) s.inRest 0 = _ from h] at hnode
  exact hnode.1

/-- DESTREE's recursion where `Des` refuses the input for its size. -/
theorem desNode_capacity {s : State} {rest : List Bool} (hq : quiet s.inp.errors)
    (h : desBits s.inRest 0 = .capacity rest) :
    ∃ e, desNode (Config.nodeCap + 1) 0 s = raise .treeCapacity 0
      { s with inp := { s.inp with pos := s.inp.pos + (s.inRest.length - rest.length), errors := e } } := by
  have hnode := desNode_quiet (d := Config.nodeCap + 1) (n := 0) hq (Nat.zero_le _) (Nat.lt_succ_self _)
  rw [show des (Config.nodeCap + 1) s.inRest 0 = _ from h] at hnode
  exact hnode.1

/-- A fault of DESTREE's recursion is one of the command. -/
theorem exec_destree_stopped {s : State} {c : Cause} {info : Word} {inp : InPort} (hr : s.run = .ready)
    (h : desNode (Config.nodeCap + 1) 0 (State.dropTree { s with run := .busy }) =
      raise c info { State.dropTree { s with run := .busy } with inp := inp }) :
    exec .destree s = .next (faultEntry c info { s.dropTree with inp := inp }) :=
  exec_destree_raise hr (u := { State.dropTree { s with run := .busy } with inp := inp })
    (by rw [destreeBody, h, andThen_raise])

/-- Settles O41: the equations are those of the recursion, and DESTREE's own recursion is `Des` on a quiet port. -/
theorem destreeIsDes : Obligations.DestreeIsDes := by
  refine ⟨fun n => desBits_nil, desBits_full, fun s n => desBits_leaf_short, fun v s n hn hv hbig => ?_,
    fun v s n hn hv hsym => ?_, fun s n hn => ?_, fun s hr hq => ?_⟩
  · rw [desBits_leaf_append s hn hv, if_pos hbig]
  · rw [desBits_leaf_append s hn hv, if_neg hsym.not_gt]
  · rw [desBits_internal s hn]
    cases desBits s (n + 1) with
    | malformed info rest => rfl
    | capacity rest => rfl
    | tree l s1 n1 =>
      simp only [DesResult.andThen_tree]
      cases desBits s1 n1 <;> rfl
  · cases hd : desBits s.inRest 0 with
    | malformed info rest =>
      obtain ⟨e, hraise⟩ := desNode_malformed (s := State.dropTree { s with run := .busy }) hq hd
      exact ⟨e, exec_destree_stopped hr hraise⟩
    | capacity rest =>
      obtain ⟨e, hraise⟩ := desNode_capacity (s := State.dropTree { s with run := .busy }) hq hd
      exact ⟨e, exec_destree_stopped hr hraise⟩
    | tree tree rest n =>
      obtain ⟨hw, rfl, hin⟩ := desBits_tree hd
      refine ⟨_, exec_destree_field hr hq hw hin, s.destreed_tree _ hw, s.destreed_nnodes _ hw, hr, rfl, ?_⟩
      rw [hin, List.length_append, Nat.add_sub_cancel]
      rfl

/-! ### The numbering (R137) -/

/-- R137: in pre-order cells the left child of cell `i` is cell `i + 1`, and the right one stands after the left
subtree. -/
theorem preorderCells_children {tree : CodeTree} (hw : tree.wf = true) {i : Nat} {l r : NodeIdx}
    (h : (preorderCells 0 tree)[i]? = some (.internal l r)) :
    l.toNat = i + 1 ∧ ∃ left, treeAt Config.nodeCap (preorderCells 0 tree) l.toNat = some left ∧
      r.toNat = i + 1 + left.nodes := by
  have hn := tree.wf_nodes hw
  obtain ⟨hl, left, hholds, hr, hsize⟩ :=
    preorder_internal tree [] [] (by simpa using hn.trans (by decide)) i l r h
  have hheight := left.height_nodes
  simp only [List.length_nil, Nat.zero_add, List.nil_append, List.append_nil] at hl hholds hr
  exact ⟨hl, left, treeAt_of_holds (hl ▸ hholds) (by omega), hr⟩

/-- Settles O43: a completed DESTREE has laid out some tree in pre-order. -/
theorem destreeNumbering : Obligations.DestreeNumbering := by
  intro s t hr hexec ht
  obtain ⟨tree, inp, hw, rfl⟩ := exec_destree_ready hr hexec ht
  have hn := tree.wf_nodes hw
  have hodd := tree.nodes_leaves
  have hnn := s.destreed_nnodes inp hw
  refine ⟨tree, s.destreed_tree inp hw, rfl, hnn, by omega, by omega, hnn.trans_le hn, preorderCells_length 0 tree,
    fun i l r hi => ?_⟩
  obtain ⟨hl, left, htree, hr⟩ := preorderCells_children hw hi
  exact ⟨hl, by omega, left, htree, hr⟩

/-! ### The round trip (R139) -/

/-- Settles O44: SERTREE writes the tree's field, DESTREE reads it back, and both code tables are that of the tree. -/
theorem treeRoundTrip : Obligations.TreeRoundTrip := by
  rintro s u tree bits rest t hr hv ⟨tree', htree', hw, hnodes, -⟩ htree hqs hexec hbits hru hqu hin
  obtain rfl := Option.some.inj (htree.symm.trans htree')
  obtain rfl := Host.Outcome.next.inj ((exec_sertree_quiet hr hv htree hqs).symm.trans hexec)
  obtain rfl : ser tree = bits := List.append_cancel_left hbits
  have hback := State.destreed_tree u (u.advanceIn (ser tree).length).inp hw
  exact ⟨_, exec_destree_field hru hqu hw hin, hru, hback,
    BitVec.eq_of_toNat_eq ((u.destreed_nnodes _ hw).trans hnodes), rfl, _, _, exec_mktable hr hv htree,
    exec_mktable hru rfl hback, rfl⟩

end Sys2Proof.Machine
end

section
/-! PROOFS. The code table MKTABLE makes (R141, R142, R145), and the widths its fields need (R143). -/

namespace Sys2Proof.Machine

/-! ### The table (R141, R142, R145) -/

/-- R142: the cell of a symbol is valid exactly when the symbol is a leaf's. -/
theorem codeTable_valid_iff (t : CodeTree) {sym : Sym} (h : sym.toNat < Config.nsym) :
    (∃ c, (codeTable t)[sym.toNat]? = some (some c)) ↔ sym ∈ t.leaves := by
  simp only [codeTable_getElem? t sym h, Option.some.injEq, ← Option.isSome_iff_exists, Option.isSome_map,
    lastPath_isSome]

/-- A symbol with one leaf has one path. -/
theorem path_unique {t : CodeTree} {sym : Sym} {p q : List Bool} (hp : (sym, p) ∈ t.paths) (hq : (sym, q) ∈ t.paths)
    (hone : t.leaves.count sym = 1) : p = q := by
  rw [← t.paths_fst, List.count, List.countP_map, List.countP_eq_length_filter, List.length_eq_one_iff] at hone
  obtain ⟨x, hx⟩ := hone
  have only : ∀ w, (sym, w) ∈ t.paths → (sym, w) = x := fun w hw =>
    List.mem_singleton.1 (hx ▸ List.mem_filter.2 ⟨hw, beq_self_eq_true sym⟩)
  exact congrArg Prod.snd ((only p hp).trans (only q hq).symm)

/-- R142: the last leaf of a symbol with one leaf is that leaf. -/
theorem lastPath_of_count_one {t : CodeTree} {sym : Sym} {p : List Bool} (hp : (sym, p) ∈ t.paths)
    (hone : t.leaves.count sym = 1) : lastPath t sym = some p := by
  have hmem : sym ∈ t.leaves := List.count_pos_iff.1 (hone ▸ Nat.one_pos)
  obtain ⟨q, hq⟩ := Option.isSome_iff_exists.1 (lastPath_isSome.2 hmem)
  rw [hq, path_unique hp (lastPath_mem hq) hone]

/-- Settles O35: the cells are the last paths of their symbols, stored as length and value. -/
theorem mktableResult : Obligations.MktableResult := by
  intro s tree hr hv ht hw
  refine ⟨codeTable tree, exec_mktable hr hv ht, codeTable_length tree, fun sym hsym => ?_, fun sym c hc => ?_⟩
  · have hlt : sym.toNat < Config.nsym := Nat.lt_succ_of_le hsym
    have hword := codeWord_codeTable hw sym hlt
    exact ⟨codeTable_valid_iff tree hlt, hword, fun p hp hone => hword.trans (lastPath_of_count_one hp hone)⟩
  · obtain ⟨p, -, -, -, hlen, hval, hle⟩ := codeTable_cell hw hc
    rw [hlen, hval]
    exact ⟨valOf_lt p, hle⟩

/-! ### The widths (R143) -/

/-- R143: no leaf of a tree of at most `NODE_CAP` nodes is deeper than 256, whatever its symbols. -/
theorem path_length_le {t : CodeTree} {p : Sym × List Bool} (hn : t.nodes ≤ Config.nodeCap) (hp : p ∈ t.paths) :
    p.2.length ≤ 256 := by
  have hpath := t.path_length p hp
  have hheight := t.height_nodes
  simp only [Config.nodeCap] at hn
  omega

/-- R143: a leaf of BUILD's tree over `k` symbols is less than `k` deep. -/
theorem FinalPool.path_length_lt {cnt : List Nat} {p : Pool} {tree : CodeTree} (hl : cnt.length = Config.nsym)
    (hp : FinalPool cnt p tree) {q : Sym × List Bool} (hq : q ∈ tree.paths) :
    q.2.length < (tableSyms cnt).length := by
  obtain ⟨-, -, -, hperm, -⟩ := pool_tree hl hp
  calc q.2.length ≤ tree.height := tree.path_length q hq
    _ < tree.leaves.length := height_lt_leaves tree
    _ = (tableSyms cnt).length := hperm.length_eq.trans (leafSyms_length_tableSyms cnt)

/-- Settles O37: each level of a path costs two nodes, in BUILD's tree one more symbol. -/
theorem codeWidthsSuffice : Obligations.CodeWidthsSuffice := by
  refine ⟨fun tree p hn hp => ?_, fun s t tree hr hf ht hexec htree q hq => ?_⟩
  · have hle := path_length_le hn hp
    exact ⟨hle, Nat.mod_eq_of_lt (by omega),
      Nat.mod_eq_of_lt ((valOf_lt p.2).trans_le (Nat.pow_le_pow_right Nat.two_pos hle))⟩
  · obtain ⟨p, tree', hp, rfl⟩ := built_of_exec hr hf ht hexec
    have hl := ht.1
    obtain ⟨htree', -⟩ := pool_inv (s := s.built p) hl hp rfl rfl rfl
    obtain rfl := Option.some.inj (htree'.symm.trans htree)
    have hlt := hp.path_length_lt hl hq
    have hk : (tableSyms s.cnt).length ≤ 257 := (tableSyms_length_le s.cnt).trans_eq hl
    omega

end Sys2Proof.Machine
end

section
/-! PROOFS. The Stream Encoder's ends: WRMAGIC (R151), and ENCPAY up to each place where it can stop, which are its end,
a failing access (R153, R193) and a symbol without a code (R154). -/

namespace Sys2Proof.Machine

/-! ### WRMAGIC (R151) -/

theorem exec_wrmagic {s : State} (hr : s.run = .ready) :
    exec .wrmagic s = complete (outString (bitsOf 32 s.params.magic.toNat) { s with run := .busy }) :=
  exec_taken (i := .wrmagic) (.inl hr) rfl

/-- Settles O45: the body is one write of the magic field. -/
theorem wrmagicResult : Obligations.WrmagicResult := by
  refine fun s hr => ⟨fun hq => ?_, fun j rest hj he => ?_⟩
  · rw [exec_wrmagic hr, outString_quiet _ (s := { s with run := .busy }) hq, complete, State.appendOut,
      State.appendOut, ← hr]
  · rw [exec_wrmagic hr, outString_error (s := { s with run := .busy }) (by rwa [bitsOf_length]) he]
    rfl

/-! ### Where ENCPAY comes to a pass -/

/-- The state in which ENCPAY comes to its pass over byte `k`, `ws` being the code words of the bytes before it. -/
def State.atCode (s : State) (k : Nat) (ws : List Bool) : State :=
  { s.appendOut ws with inp := { s.inp with pos := 8 * k, errors := s.inp.errors.drop (9 * k + 1) } }

/-- The state in which ENCPAY comes to the sentinel: its loop has found the end of the source. -/
def State.atSentinel (s : State) (ws : List Bool) : State :=
  { s.appendOut ws with
    inp := { s.inp with pos := 8 * s.inp.bytes.length, errors := s.inp.errors.drop (9 * s.inp.bytes.length + 2) } }

/-- R53: ENCPAY comes to its first pass once its rewind is granted. -/
theorem inRewind_atCode {s : State} (h : quiet (s.inp.errors.take 1)) :
    inRewind s = .done () (s.atCode 0 []) := by
  rw [inRewind_granted h]
  simp [State.atCode, State.appendOut]

theorem atCode_afterBytes (s : State) (k : Nat) (ws : List Bool) :
    ((s.atCode 0 []).afterBytes k).appendOut ws = s.atCode k ws := by
  simp [State.afterBytes, State.atCode, State.appendOut, Nat.add_comm]

section
variable {s : State} {pre post : List Byte} {ws : List Bool} (hb : s.inp.bytes = pre ++ post)
  (hi : quiet (s.inp.errors.take (9 * pre.length + 1))) (ho : quiet (s.out.errors.take ws.length))
  (hc : codesOf s.ct pre = some ws)
include hb hi ho hc

/-- ENCPAY comes to its pass over the byte after `pre`, where every access before it was granted and every byte before
it has a code. -/
theorem encpayBody_toPass :
    encpayBody s =
      (encLoop (post.length + 1) (s.atCode pre.length ws)).andThen fun _ s => putCode Config.eos s := by
  rw [Nat.add_comm, quiet_take_add] at hi
  obtain ⟨hrewind, hpasses⟩ := hi
  have hlen : (s.atCode 0 []).inp.bytes.length = pre.length + post.length := by
    rw [← List.length_append, ← hb]
    rfl
  rw [encpayBody, inRewind_atCode hrewind, andThen_done, hlen,
    encLoop_granted (s := s.atCode 0 []) (j := 0) hpasses ho rfl hb hc (by omega), atCode_afterBytes,
    Nat.add_assoc, Nat.add_sub_cancel_left]

/-- A `raise` in the pass over the byte after `pre` ends ENCPAY. -/
theorem encpayBody_raise {u : State} {c : Cause} {info : Word}
    (hpass : encLoop (post.length + 1) (s.atCode pre.length ws) = raise c info u) :
    encpayBody s = raise c info u := by
  rw [encpayBody_toPass hb hi ho hc, hpass, andThen_raise]

end

/-- ENCPAY comes to the sentinel, where every access before it was granted and every byte has a code. -/
theorem encpayBody_toSentinel {s : State} {ws : List Bool}
    (hi : quiet (s.inp.errors.take (9 * s.inp.bytes.length + 2))) (ho : quiet (s.out.errors.take ws.length))
    (hc : codesOf s.ct s.inp.bytes = some ws) : encpayBody s = putCode Config.eos (s.atSentinel ws) := by
  rw [show 9 * s.inp.bytes.length + 2 = 9 * s.inp.bytes.length + 1 + 1 from rfl, quiet_take_add] at hi
  obtain ⟨hpasses, hmore⟩ := hi
  rw [encpayBody_toPass (post := []) (List.append_nil _).symm hpasses ho hc, encLoop,
    inMore_granted (s := s.atCode s.inp.bytes.length ws) hmore]
  simp [State.atCode, State.atSentinel, State.withInErrors, State.appendOut, List.drop_drop]

/-- A pass over a byte whose reads are granted comes to the write of its code (R153). -/
theorem encLoop_pass {n k : Nat} {s : State} {b : Byte} {bs : List Byte} (h : quiet (s.inp.errors.take 9))
    (hp : s.inp.pos = 8 * k) (hb : s.inp.bytes.drop k = b :: bs) :
    encLoop (n + 1) s = (putCode b.toNat (s.afterBytes 1)).andThen fun _ s => encLoop n s := by
  have hk := length_of_drop hb
  obtain ⟨hmore, hbits⟩ := quiet_take_add (j := 1) (k := 8).1 h
  rw [encLoop, inMore_granted hmore, andThen_done, if_pos (by rw [hp]; simp; omega),
    inBits_byte_granted (s := s.withInErrors (s.inp.errors.drop 1)) hbits hp hb]
  simp [State.afterBytes, State.advanceIn, State.withInErrors]

/-- ENCPAY comes to the write of the code of the byte after `pre` (R153). -/
theorem encLoop_atCode {n : Nat} {s : State} {pre post : List Byte} {b : Byte} {ws : List Bool}
    (hb : s.inp.bytes = pre ++ b :: post) (hi : quiet (s.inp.errors.take (9 * (pre.length + 1) + 1))) :
    encLoop (n + 1) (s.atCode pre.length ws) =
      (putCode b.toNat (s.atCode (pre.length + 1) ws)).andThen fun _ s => encLoop n s := by
  rw [show 9 * (pre.length + 1) + 1 = 9 * pre.length + 1 + 9 by omega, quiet_take_add] at hi
  have hdrop : (s.atCode pre.length ws).inp.bytes.drop pre.length = b :: post := by
    simp [State.atCode, hb]
  have hnext : (s.atCode pre.length ws).afterBytes 1 = s.atCode (pre.length + 1) ws := by
    simp [State.afterBytes, State.atCode, List.drop_drop, Nat.mul_add, Nat.add_right_comm]
  rw [encLoop_pass (s := s.atCode pre.length ws) hi.2 rfl hdrop, hnext]

/-! ### Where ENCPAY stops -/

theorem exec_encpay {s : State} (hr : s.run = .ready) (hv : s.tabV = true) :
    exec .encpay s = complete (encpayBody { s with run := .busy }) := exec_taken (i := .encpay) (.inl hr) hv

theorem exec_encpay_raise {s u : State} {c : Cause} {info : Word} (hr : s.run = .ready) (hv : s.tabV = true)
    (h : encpayBody { s with run := .busy } = raise c info u) : exec .encpay s = .next (faultEntry c info u) := by
  rw [exec_encpay hr hv, h]
  rfl

theorem exec_encpay_quiet {s : State} {p : List Bool} (hr : s.run = .ready) (hv : s.tabV = true)
    (hi : quiet s.inp.errors) (ho : quiet s.out.errors) (hp : payload s.ct s.inp.bytes = some p) :
    exec .encpay s = .next (s.atSentinel p) := by
  rw [exec_encpay hr hv, encpayBody_quiet (s := { s with run := .busy }) hi ho hp, complete, State.atSentinel, ← hr]
  rfl

/-- Answers granted up to the failing one, taken apart. -/
theorem replicate_add_cons (k j : Nat) (rest : List Bool) :
    List.replicate (k + j) false ++ true :: rest =
      List.replicate k false ++ (List.replicate j false ++ true :: rest) := by
  rw [← List.append_assoc, List.replicate_append_replicate]

/-- R55: a code word of which the output port takes `j` bits, the code words `ws` before it having been taken. -/
theorem putCode_error {s u : State} {sym j : Nat} {ws w rest : List Bool} (hw : codeWord s.ct sym = some w)
    (hj : j < w.length) (he : u.out.errors = List.replicate (ws.length + j) false ++ true :: rest)
    (hs : s.out = (u.appendOut ws).out) :
    putCode sym s = raise .ioFailure 1 { s with out := { bits := u.out.bits ++ ws ++ w.take j, errors := rest } } := by
  have herr : s.out.errors = List.replicate j false ++ true :: rest := by
    rw [hs, State.appendOut, he, replicate_add_cons, List.drop_left' List.length_replicate]
  rw [putCode_word hw, outString_error hj herr, hs]
  rfl

theorem quiet_replicate_add (k j : Nat) (rest : List Bool) :
    quiet ((List.replicate (k + j) false ++ rest).take k) := by
  rw [← List.replicate_append_replicate, List.append_assoc]
  exact quiet_replicate _ _

/-- R55: ENCPAY whose write of the code word of the byte after `pre` fails. -/
theorem encpayBody_byteError {s : State} {pre post : List Byte} {b : Byte} {ws w rest : List Bool} {j : Nat}
    (hb : s.inp.bytes = pre ++ b :: post) (hc : codesOf s.ct pre = some ws) (hw : codeWord s.ct b.toNat = some w)
    (hj : j < w.length) (hi : quiet (s.inp.errors.take (9 * (pre.length + 1) + 1)))
    (he : s.out.errors = List.replicate (ws.length + j) false ++ true :: rest) :
    encpayBody s = raise .ioFailure 1 { s.atCode (pre.length + 1) ws with
      out := { bits := s.out.bits ++ ws ++ w.take j, errors := rest } } := by
  have hbefore := (quiet_take_add (j := 9 * pre.length + 1) (k := 9)).1 hi
  refine encpayBody_raise hb hbefore.1 (he ▸ quiet_replicate_add _ _ _) hc ?_
  rw [encLoop_atCode hb hi, putCode_error (s := s.atCode (pre.length + 1) ws) hw hj he rfl, andThen_raise]

/-- R55: ENCPAY whose write of the sentinel's code word fails. -/
theorem encpayBody_sentinelError {s : State} {ws w rest : List Bool} {j : Nat}
    (hc : codesOf s.ct s.inp.bytes = some ws) (hw : codeWord s.ct Config.eos = some w) (hj : j < w.length)
    (hi : quiet (s.inp.errors.take (9 * s.inp.bytes.length + 2)))
    (he : s.out.errors = List.replicate (ws.length + j) false ++ true :: rest) :
    encpayBody s = raise .ioFailure 1 { s.atSentinel ws with
      out := { bits := s.out.bits ++ ws ++ w.take j, errors := rest } } := by
  rw [encpayBody_toSentinel hi (he ▸ quiet_replicate_add _ _ _) hc,
    putCode_error (s := s.atSentinel ws) hw hj he rfl]

/-- R55: ENCPAY whose rewind fails. -/
theorem encpayBody_rewindError {s : State} {rest : List Bool} (he : s.inp.errors = true :: rest) :
    encpayBody s = raise .ioFailure 0 (s.withInErrors rest) := by
  rw [encpayBody, inRewind_error he, andThen_raise]

/-- R55: ENCPAY whose pass over byte `k` fails at its `m`-th access. -/
theorem encpayBody_passError {s : State} {k m : Nat} {ws rest : List Bool}
    (hm : (k < s.inp.bytes.length ∧ m ≤ 8) ∨ (k = s.inp.bytes.length ∧ m = 0))
    (hc : codesOf s.ct (s.inp.bytes.take k) = some ws) (ho : quiet (s.out.errors.take ws.length))
    (he : s.inp.errors = List.replicate (9 * k + m + 1) false ++ true :: rest) :
    encpayBody s =
      raise .ioFailure 0 { s.appendOut ws with inp := { s.inp with pos := 8 * k + (m - 1), errors := rest } } := by
  have hk : (s.inp.bytes.take k).length = k := List.length_take_of_le (by omega)
  rw [Nat.add_right_comm, replicate_add_cons] at he
  refine encpayBody_raise (List.take_append_drop k _).symm ?_ ho hc ?_
  · rw [hk, he]
    exact quiet_replicate _ _
  · rw [hk]
    refine encLoop_error (s := s.atCode k ws) rfl hm ?_
    rw [State.atCode, he, List.drop_left' List.length_replicate]

/-- Settles O46: what is granted before the access that fails goes through, and its `raise` ends the command. -/
theorem encpayResult : Obligations.EncpayResult := fun s hr hv =>
  ⟨fun _ hi ho hp => exec_encpay_quiet hr hv hi ho hp,
    fun _ _ _ _ _ _ _ hb hc hw hj hi he =>
      exec_encpay_raise hr hv (encpayBody_byteError (s := { s with run := .busy }) hb hc hw hj hi he),
    fun _ _ _ _ hc hw hj hi he =>
      exec_encpay_raise hr hv (encpayBody_sentinelError (s := { s with run := .busy }) hc hw hj hi he),
    fun _ he => exec_encpay_raise hr hv (encpayBody_rewindError (s := { s with run := .busy }) he),
    fun _ _ _ _ hm hc ho he =>
      exec_encpay_raise hr hv (encpayBody_passError (s := { s with run := .busy }) hm hc ho he)⟩

/-! ### A symbol without a code (R154) -/

/-- ENCPAY on quiet ports at a byte, every byte before it having a code, comes to the write of that byte's code. -/
theorem encpayBody_atByte {s : State} {pre post : List Byte} {b : Byte} {ws : List Bool} (hi : quiet s.inp.errors)
    (ho : quiet s.out.errors) (hb : s.inp.bytes = pre ++ b :: post) (hc : codesOf s.ct pre = some ws) :
    encpayBody s = (putCode b.toNat (s.atCode (pre.length + 1) ws)).andThen fun _ s =>
      (encLoop (post.length + 1) s).andThen fun _ s => putCode Config.eos s := by
  rw [encpayBody_toPass hb (quiet_take hi _) (quiet_take ho _) hc, List.length_cons,
    encLoop_atCode hb (quiet_take hi _), andThen_assoc]

theorem encpayBody_noCode {s : State} {pre post : List Byte} {b : Byte} {ws : List Bool} (hi : quiet s.inp.errors)
    (ho : quiet s.out.errors) (hb : s.inp.bytes = pre ++ b :: post) (hc : codesOf s.ct pre = some ws)
    (hnone : s.ct[b.toNat]? = some none) :
    encpayBody s = raise .noCode (b.zeroExtend 32) (s.atCode (pre.length + 1) ws) := by
  rw [encpayBody_atByte hi ho hb hc, putCode_noCode (s := s.atCode _ ws) hnone, andThen_raise, BitVec.ofNat_toNat]

theorem encpayBody_noSentinelCode {s : State} {ws : List Bool} (hi : quiet s.inp.errors) (ho : quiet s.out.errors)
    (hc : codesOf s.ct s.inp.bytes = some ws) (hnone : s.ct[Config.eos]? = some none) :
    encpayBody s = raise .noCode 256 (s.atSentinel ws) := by
  rw [encpayBody_toSentinel (quiet_take hi _) (quiet_take ho _) hc, putCode_noCode (s := s.atSentinel ws) hnone]
  rfl

/-- No fault of ENCODE is `NO_CODE`: it counts the source it encodes (R154, R188). -/
theorem encodeFaults_ne_noCode {c : Cause} {i : Word} (h : encodeFaults c i) : c.code ≠ 7 := by
  obtain ⟨rfl, -⟩ | ⟨rfl, -⟩ | ⟨rfl, -⟩ := h
  all_goals decide

theorem exec_encode {s : State} (hr : s.run = .ready) :
    exec .encode s = complete (encodeBody { s with run := .busy }) := exec_taken (i := .encode) (.inl hr) rfl

/-- Settles O47: the two places of the `raise`, and ENCODE's faults, of which it is none. -/
theorem noCodeFault : Obligations.NoCodeFault := by
  refine ⟨fun s _ _ _ _ hr hv hi ho hb hc hnone => ⟨_, _, exec_encpay_raise hr hv
      (encpayBody_noCode (s := { s with run := .busy }) hi ho hb hc hnone)⟩,
    fun s _ hr hv hi ho hc hnone => ⟨_, _, exec_encpay_raise hr hv
      (encpayBody_noSentinelCode (s := { s with run := .busy }) hi ho hc hnone)⟩,
    fun s t hr hexec ht => ?_⟩
  obtain ⟨u, -, rfl⟩ | ⟨c, i, u, hfault, -, rfl⟩ := complete_next (encodeBody_ends _) (exec_encode hr ▸ hexec)
  · cases ht
  · exact encodeFaults_ne_noCode hfault

end Sys2Proof.Machine
end

section
/-! PROOFS. The payload's length (R156), on any source and for BUILD's tree, and that ENCPAY's output is a function of
the code table and the source, whether the command completes or stops at a symbol without a code. -/

namespace Sys2Proof.Machine

/-! ### The length of a payload -/

theorem codeLength_of_codeWord {ct : List (Option CodeCell)} {sym : Nat} {w : List Bool}
    (h : codeWord ct sym = some w) : codeLength ct sym = w.length := by
  rw [codeLength, h, Option.map_some, Option.getD_some]

theorem codesOf_cons_some {ct : List (Option CodeCell)} {b : Byte} {src : List Byte} {p : List Bool}
    (h : codesOf ct (b :: src) = some p) :
    ∃ w ws, codeWord ct b.toNat = some w ∧ codesOf ct src = some ws ∧ p = w ++ ws := by
  simp only [codesOf] at h
  split at h
  · exact ⟨_, _, ‹_›, ‹_›, (Option.some.inj h).symm⟩
  · cases h

theorem payload_eq_some {ct : List (Option CodeCell)} {src : List Byte} {p : List Bool}
    (h : payload ct src = some p) :
    ∃ ws w, codesOf ct src = some ws ∧ codeWord ct Config.eos = some w ∧ p = ws ++ w := by
  rw [payload] at h
  split at h
  · exact ⟨_, _, ‹_›, ‹_›, (Option.some.inj h).symm⟩
  · cases h

theorem codesOf_length {ct : List (Option CodeCell)} {src : List Byte} {ws : List Bool}
    (h : codesOf ct src = some ws) : ws.length = (src.map fun b => codeLength ct b.toNat).sum := by
  induction src generalizing ws with
  | nil =>
    cases h
    rfl
  | cons b src ih =>
    obtain ⟨w, ws, hw, hws, rfl⟩ := codesOf_cons_some h
    rw [List.length_append, ih hws, List.map_cons, List.sum_cons, codeLength_of_codeWord hw]

/-- The one index below 256 that is a byte's. -/
theorem sum_byte_indicator (f : Nat → Nat) (b : Byte) :
    ((List.range 256).map fun i => if b == BitVec.ofNat 8 i then f i else 0).sum = f b.toNat := by
  have hone : (List.range 256).count b.toNat = 1 :=
    List.count_eq_one_of_mem List.nodup_range (List.mem_range.2 b.isLt)
  rw [List.sum_map_eq_nsmul_single b.toNat _ fun i hi hmem => ?_, hone]
  · simp
  · have hne : b ≠ BitVec.ofNat 8 i := by
      rintro rfl
      exact hi (Nat.mod_eq_of_lt (List.mem_range.1 hmem)).symm
    simp [hne]

/-- A sum over the bytes of a source, by byte value. -/
theorem sum_byteCount_mul (f : Nat → Nat) (src : List Byte) :
    ((List.range 256).map fun i => byteCount src (BitVec.ofNat 8 i) * f i).sum = (src.map fun b => f b.toNat).sum := by
  induction src with
  | nil =>
    simp only [byteCount, List.count_nil, Nat.zero_mul, List.map_const', List.sum_replicate, smul_zero, List.map_nil,
      List.sum_nil]
  | cons b src ih =>
    have hcons : ∀ i, byteCount (b :: src) (BitVec.ofNat 8 i) * f i =
        byteCount src (BitVec.ofNat 8 i) * f i + if b == BitVec.ofNat 8 i then f i else 0 := by
      intro i
      rw [byteCount, List.count_cons, Nat.add_mul, ite_mul, Nat.one_mul, Nat.zero_mul]
      rfl
    simp only [hcons, List.sum_map_add]
    rw [ih, sum_byte_indicator, List.map_cons, List.sum_cons, Nat.add_comm]

/-- R156: count times code length, summed over a source's table, is the code length summed over its bytes and the
sentinel. -/
theorem codedLength_countTable (src : List Byte) (ct : List (Option CodeCell)) :
    codedLength (countTable src) ct = (src.map fun b => codeLength ct b.toNat).sum + codeLength ct Config.eos := by
  have hbyte : ∀ i ∈ List.range 256, (countTable src).getD i 0 * codeLength ct i =
      byteCount src (BitVec.ofNat 8 i) * codeLength ct i := by
    intro i hi
    have hcell := countTable_byte src (BitVec.ofNat 8 i)
    rw [BitVec.toNat_ofNat, Nat.mod_eq_of_lt (List.mem_range.1 hi)] at hcell
    rw [List.getD_eq_getElem?_getD, hcell]
    rfl
  rw [codedLength, Config.nsym, List.range_succ, List.map_append, List.sum_append, List.map_congr_left hbyte,
    sum_byteCount_mul, List.map_singleton, List.sum_singleton, List.getD_eq_getElem?_getD,
    show (256 : Nat) = Config.eos from rfl, countTable_eos, Option.getD_some, Nat.one_mul]

/-- R156: the payload's length by symbol. -/
theorem payload_length {ct : List (Option CodeCell)} {src : List Byte} {p : List Bool} (h : payload ct src = some p) :
    p.length = codedLength (countTable src) ct := by
  obtain ⟨ws, w, hws, hw, rfl⟩ := payload_eq_some h
  rw [codedLength_countTable, List.length_append, codesOf_length hws, codeLength_of_codeWord hw]

/-! ### BUILD's tree -/

/-- A sum weighted with the counts, over a table's symbols, is one over the whole table. -/
theorem sum_leafSyms {cnt : List Nat} (hl : cnt.length = Config.nsym) (f : Nat → Nat) :
    ((leafSyms cnt).map fun sym => cnt.getD sym.toNat 0 * f sym.toNat).sum =
      ((List.range Config.nsym).map fun i => cnt.getD i 0 * f i).sum := by
  have hentry : ∀ e ∈ tableEntries 0 cnt,
      cnt.getD (BitVec.ofNat 9 e.1).toNat 0 * f (BitVec.ofNat 9 e.1).toNat = e.2 * f e.1 := by
    rintro ⟨sym, c⟩ he
    obtain ⟨-, -, hget⟩ := tableEntries_mem.1 he
    rw [Nat.sub_zero] at hget
    have hlt : sym < 2 ^ 9 := by
      have hsym := (List.getElem?_eq_some_iff.1 hget).1
      rw [hl] at hsym
      exact hsym.trans (by decide)
    rw [BitVec.toNat_ofNat, Nat.mod_eq_of_lt hlt, List.getD_eq_getElem?_getD, hget, Option.getD_some]
  have hweighted := tableEntries_weighted f 0 cnt
  simp only [Nat.zero_add] at hweighted
  rw [← hl, ← hweighted, leafSyms, tableSyms, List.map_map, List.map_map]
  exact congrArg List.sum (List.map_congr_left hentry)

/-- R142: where no symbol has two leaves, every path is as long as its symbol's code word. -/
theorem path_length_eq_codeLength {tree : CodeTree} (hw : tree.wf = true) (hn : tree.leaves.Nodup)
    {q : Sym × List Bool} (hq : q ∈ tree.paths) : q.2.length = codeLength (codeTable tree) q.1.toNat := by
  have hleaf : q.1 ∈ tree.leaves := tree.paths_fst ▸ List.mem_map_of_mem hq
  have hsym := List.all_eq_true.1 (tree.wf_syms hw) _ hleaf
  have hlt : q.1.toNat < Config.nsym := Nat.lt_succ_of_le (of_decide_eq_true hsym)
  have hword : codeWord (codeTable tree) q.1.toNat = some q.2 :=
    (codeWord_codeTable hw _ hlt).trans (lastPath_of_count_one hq (List.count_eq_one_of_mem hn hleaf))
  exact (codeLength_of_codeWord hword).symm

/-- R156: count times code length, summed over the symbols, is count times path length, summed over the leaves. -/
theorem codedLength_eq_pathCost {cnt : List Nat} {tree : CodeTree} (hl : cnt.length = Config.nsym)
    (hw : tree.wf = true) (hn : tree.leaves.Nodup) (hperm : tree.leaves.Perm (leafSyms cnt)) :
    codedLength cnt (codeTable tree) = pathCost cnt tree.paths := by
  have hpath : ∀ q ∈ tree.paths, cnt.getD q.1.toNat 0 * q.2.length =
      cnt.getD q.1.toNat 0 * codeLength (codeTable tree) q.1.toNat :=
    fun q hq => congrArg _ (path_length_eq_codeLength hw hn hq)
  rw [pathCost, List.map_congr_left hpath, codedLength, ← sum_leafSyms hl, ← (hperm.map _).sum_eq, ← tree.paths_fst,
    List.map_map]
  rfl

/-- R156: the internal weights of BUILD's final pool sum to the cost of its tree's paths. -/
theorem FinalPool.innerWeight_eq {cnt : List Nat} {p : Pool} {tree : CodeTree} (hp : FinalPool cnt p tree) :
    innerWeight p.node p.weight = pathCost cnt tree.paths := by
  have hperm : (indices p.node (p.node.length - 1) tree).Perm (List.range p.node.length) := by
    simpa using hp.indices
  have htree := hp.trees _ (List.mem_singleton_self _)
  rw [innerWeight_range p.node p.weight hp.weights, ← (hperm.map _).sum_eq, (pool_weights hp tree _ htree).2]

/-- R156: the length of a payload in the code of BUILD's tree. -/
theorem codedLength_built {s t u : State} (hr : s.run = .ready) (hf : s.ftV = true) (ht : TableInv s)
    (hbuild : exec .build s = .next t) (hmk : exec .mktable t = .next u) :
    codedLength s.cnt u.ct = innerWeight t.node t.weight := by
  obtain ⟨p, tree, hp, rfl⟩ := built_of_exec hr hf ht hbuild
  have hl := ht.1
  obtain ⟨htree, -⟩ := pool_inv (s := s.built p) hl hp rfl rfl rfl
  obtain rfl := Host.Outcome.next.inj ((exec_mktable (s := s.built p) hr rfl htree).symm.trans hmk)
  obtain ⟨hw, -, -, hperm, -⟩ := pool_tree hl hp
  exact (codedLength_eq_pathCost hl hw (hp.nodup_leaves hl) hperm).trans hp.innerWeight_eq.symm

/-! ### Determinism -/

/-- A source has a first byte without a code word, or all have one. -/
theorem codesOf_some_or_first_none (ct : List (Option CodeCell)) (src : List Byte) :
    (∃ ws, codesOf ct src = some ws) ∨
      ∃ pre b post ws, src = pre ++ b :: post ∧ codesOf ct pre = some ws ∧ codeWord ct b.toNat = none := by
  induction src with
  | nil => exact .inl ⟨[], rfl⟩
  | cons x src ih =>
    cases hx : codeWord ct x.toNat with
    | none => exact .inr ⟨[], x, src, [], rfl, rfl, hx⟩
    | some w =>
      obtain ⟨ws, hws⟩ | ⟨pre, b, post, ws, rfl, hws, hb⟩ := ih
      · exact .inl ⟨w ++ ws, by simp only [codesOf, hx, hws]⟩
      · exact .inr ⟨x :: pre, b, post, w ++ ws, rfl, by simp only [codesOf, hx, hws], hb⟩

/-- R154: a symbol without a code word has nothing written for it. -/
theorem putCode_none {s : State} {sym : Nat} (h : codeWord s.ct sym = none) :
    (putCode sym s).Ends (fun _ _ => False) (fun t => t.out.bits = s.out.bits) True := by
  rw [putCode]
  split
  · trivial
  · rfl
  · rename_i c hc
    simp [codeWord, hc] at h

/-- R156: what ENCPAY writes on quiet ports, however it ends, depends on the code table and the source alone. -/
theorem encpayBody_written (ct : List (Option CodeCell)) (src : List Byte) :
    ∃ w, ∀ s : State, s.ct = ct → s.inp.bytes = src → quiet s.inp.errors → quiet s.out.errors →
      (encpayBody s).Ends (fun _ t => t.out.bits = s.out.bits ++ w) (fun t => t.out.bits = s.out.bits ++ w) True := by
  obtain ⟨ws, hws⟩ | ⟨pre, b, post, ws, rfl, hws, hb⟩ := codesOf_some_or_first_none ct src
  · cases heos : codeWord ct Config.eos with
    | none =>
      refine ⟨ws, ?_⟩
      rintro s rfl rfl hi ho
      rw [encpayBody_toSentinel (quiet_take hi _) (quiet_take ho _) hws]
      exact (putCode_none (s := s.atSentinel ws) heos).mono (fun _ _ h => h.elim) (fun _ h => h) id
    | some w =>
      refine ⟨ws ++ w, ?_⟩
      rintro s rfl rfl hi ho
      rw [encpayBody_quiet hi ho (p := ws ++ w) (by simp only [payload, hws, heos])]
      rfl
  · refine ⟨ws, ?_⟩
    rintro s rfl hsrc hi ho
    rw [encpayBody_atByte hi ho hsrc hws]
    exact Run.Ends.andThen
      ((putCode_none (s := s.atCode (pre.length + 1) ws) hb).mono (fun _ _ h => h) (fun _ h => h) id)
      fun _ _ h => h.elim

theorem exec_encpay_written (ct : List (Option CodeCell)) (src : List Byte) :
    ∃ w, ∀ s t : State, s.run = .ready → s.tabV = true → s.ct = ct → s.inp.bytes = src → quiet s.inp.errors →
      quiet s.out.errors → exec .encpay s = .next t → t.out.bits = s.out.bits ++ w := by
  obtain ⟨w, hw⟩ := encpayBody_written ct src
  refine ⟨w, fun s t hr hv hct hin hi ho he => ?_⟩
  obtain ⟨u, hu, rfl⟩ | ht := complete_next (hw { s with run := .busy } hct hin hi ho) (exec_encpay hr hv ▸ he)
  · exact hu
  · exact ht

/-- Settles O48: a code word for each byte and one for the sentinel, the weights of BUILD's pool, and what is written as
a function of table and source. -/
theorem payloadLength : Obligations.PayloadLength := by
  refine ⟨fun ct src p => payload_length, fun s t u src hr hf ht _ => codedLength_built hr hf ht,
    fun s u t v hrs hru hvs hvu his hos hiu hou hin hct hout hes heu => ?_⟩
  obtain ⟨w, hw⟩ := exec_encpay_written s.ct s.inp.bytes
  rw [hw s t hrs hvs rfl rfl his hos hes, hw u v hru hvu hct.symm hin.symm hiu hou heu, hout]

end Sys2Proof.Machine
end

section
/-! PROOFS. ENCODE on quiet ports, given what BUILD makes of the source's counts (R177), and the container of the empty
source (R155). -/

namespace Sys2Proof.Machine

/-- The state in which ENCODE comes to BUILD on quiet ports: cleared, and the source counted. -/
def State.counted (s : State) : State :=
  { cleared s with
    cnt := countTable s.inp.bytes, ftV := true
    inp := { s.inp with pos := 8 * s.inp.bytes.length, errors := s.inp.errors.drop (1 + (9 * s.inp.bytes.length + 2)) }
    out := { bits := [], errors := s.out.errors.drop 1 } }

/-- ENCODE's first two commands on quiet ports, the counts fitting (R175, R111). -/
theorem clrBody_countBody_quiet {s : State} (hi : quiet s.inp.errors) (ho : quiet s.out.errors)
    (hf : countsFit s.params s.inp.bytes) : ((clrBody s).andThen fun _ s => countBody s) = .done () s.counted := by
  rw [clrBody_quiet hi ho, andThen_done, countBody_quiet (by exact quiet_drop hi 1) (by exact hf), List.drop_drop]
  rfl

/-- ENCODE's last four commands: the container of the tree in `NODE` (R177). -/
def writeContainer (s : State) : Run Unit :=
  (wrmagicBody s).andThen fun _ s =>
    (sertreeBody s).andThen fun _ s =>
      (mktableBody s).andThen fun _ s => encpayBody s

theorem encodeBody_eq (s : State) :
    encodeBody s = ((clrBody s).andThen fun _ s => countBody s).andThen fun _ s =>
      (buildBody s).andThen fun _ s => writeContainer s := by
  rw [andThen_assoc]
  rfl

theorem sertreeBody_eq {s : State} {tree : CodeTree} (ht : s.tree = some tree) :
    sertreeBody s = outString (ser tree) s := by
  simp only [sertreeBody, ht]

/-- A tree's container is written whole on quiet ports, where the tree has a code for every symbol of the source. -/
theorem writeContainer_quiet {s : State} {tree : CodeTree} {p : List Bool} (hi : quiet s.inp.errors)
    (ho : quiet s.out.errors) (ht : s.tree = some tree) (hp : payload (codeTable tree) s.inp.bytes = some p) :
    writeContainer s =
      .done () ({ s with ct := codeTable tree, tabV := true }.atSentinel (container s.params.magic tree p)) := by
  generalize hm : bitsOf 32 s.params.magic.toNat = m
  have htree : (s.appendOut m).tree = some tree := ht
  have hser : quiet (s.appendOut m).out.errors := quiet_drop ho _
  have hpay : quiet (s.appendOut (m ++ ser tree)).out.errors := quiet_drop ho _
  rw [writeContainer, wrmagicBody, outBits_quiet _ _ ho, hm, andThen_done, sertreeBody_eq htree, outString_quiet _ hser,
    andThen_done, appendOut_appendOut, mktableBody_eq (s := s.appendOut (m ++ ser tree)) htree, andThen_done,
    encpayBody_quiet (s := { s.appendOut (m ++ ser tree) with ct := codeTable tree, tabV := true }) hi hpay hp]
  simp [State.atSentinel, State.appendOut, container, magicBits, hm, List.drop_drop, Nat.add_assoc]

/-- ENCODE on quiet ports (R177): the counts fit, BUILD makes a pool of them, and the pool's tree has a code for every
symbol of the source. -/
theorem encodeBody_quiet {s : State} {pool : Pool} {tree : CodeTree} {p : List Bool} (hi : quiet s.inp.errors)
    (ho : quiet s.out.errors) (hf : countsFit s.params s.inp.bytes)
    (hbuild : buildBody s.counted = .done () (s.counted.built pool)) (ht : (s.counted.built pool).tree = some tree)
    (hp : payload (codeTable tree) s.inp.bytes = some p) :
    encodeBody s = .done ()
      ({ s.counted.built pool with ct := codeTable tree, tabV := true }.atSentinel
        (container s.params.magic tree p)) := by
  rw [encodeBody_eq, clrBody_countBody_quiet hi ho hf, andThen_done, hbuild, andThen_done,
    writeContainer_quiet (s := s.counted.built pool) (quiet_drop hi _) (quiet_drop ho _) ht hp]
  rfl

/-! ### The empty source (R155) -/

/-- R144: the code of the only symbol of a tree that is one leaf has no bits. -/
theorem codeTable_leaf_cell : (codeTable (.leaf 256))[Config.eos]? = some (some { len := 0, val := 0 }) := by
  rw [codeTable, walkCodes]
  exact List.getElem?_set_self (by rw [List.length_replicate]; decide)

theorem payload_leaf_nil : payload (codeTable (.leaf 256)) [] = some [] := by
  simp only [payload, codesOf, codeWord, codeTable_leaf_cell]
  rfl

/-- R126: BUILD makes of the empty source's counts the leaf of the sentinel. -/
theorem buildBody_counted_nil {s : State} (h : s.inp.bytes = []) :
    buildBody s.counted = .done () (s.counted.built (onePool 256 1)) := by
  refine buildBody_oneSymbol (by decide) Nat.one_ne_zero ?_
  rw [State.counted, h]
  exact countTable_nil

/-- R155: ENCODE of the empty source, as a body. -/
theorem encodeBody_nil {s : State} (hi : quiet s.inp.errors) (ho : quiet s.out.errors) (h : s.inp.bytes = []) :
    encodeBody s = .done ()
      ({ s.counted.built (onePool 256 1) with ct := codeTable (.leaf 256), tabV := true }.atSentinel
        (container s.params.magic (.leaf 256) [])) :=
  encodeBody_quiet hi ho (fun b hb => by rw [h] at hb; cases hb) (buildBody_counted_nil h) rfl
    (by rw [h, payload_leaf_nil])

/-- R58: the bytes of a packed bit string. -/
theorem pack_length (bits : List Bool) : 8 * (pack bits).length = bits.length + (8 - bits.length % 8) % 8 :=
  packN_length _ _ (by omega)

/-- Settles O59: BUILD's tree is one leaf, so the payload has no bits. -/
theorem emptySourceContainer : Obligations.EmptySourceContainer := by
  intro s hr hi ho hin
  have hbits : (container s.params.magic (.leaf 256) []) =
      bitsOf 32 s.params.magic.toNat ++ false :: bitsOf 9 256 := List.append_nil _
  have hlen : (container s.params.magic (.leaf 256) []).length = 42 := by
    rw [hbits, List.length_append, List.length_cons, bitsOf_length, bitsOf_length]
  have hpack := pack_length (container s.params.magic (.leaf 256) [])
  rw [hlen] at hpack
  refine ⟨_, (exec_encode hr).trans (congrArg complete (encodeBody_nil (s := { s with run := .busy }) hi ho hin)), rfl,
    rfl, codeTable_leaf_cell, payload_leaf_nil, hbits, hlen, ?_⟩
  show (pack (container s.params.magic (.leaf 256) [])).length = 6
  omega

end Sys2Proof.Machine
end

section
/-! PROOFS. The issue of a command by how its body ends (R170), and the Stream Decoder's DECPAY: on a root that is a
leaf (R164), along the walk of R163 with quiet ports and up to a failing access (R165, R193), what it can emit, and that
it undoes the payload (R167). -/

namespace Sys2Proof.Machine

/-! ### The issue of a command by the end of its body (R170) -/

/-- A body that ends normally, everything it leaves but `BUSY` standing. -/
theorem exec_done {i : Instr} {s u : State} (hr : s.run = .ready) (hn : needs i s = true)
    (hb : bodyOf i { s with run := .busy } = .done () { u with run := .busy }) (hu : u.run = .ready) :
    exec i s = .next u := by
  rw [exec_taken (.inl hr) hn, hb, complete]
  exact congrArg (fun r => Host.Outcome.next { u with run := r }) hu.symm

/-- A body that ends at a `raise`. -/
theorem exec_raise {i : Instr} {s u : State} {c : Cause} {info : Word} (hr : s.run = .ready) (hn : needs i s = true)
    (hb : bodyOf i { s with run := .busy } = raise c info u) : exec i s = .next (faultEntry c info u) := by
  rw [exec_taken (.inl hr) hn, hb]
  rfl

/-! ### A root that is a leaf (R164) -/

theorem decpayBody_sentinelRoot {s : State} (ht : s.tree = some (.leaf 256)) : decpayBody s = .done () s := by
  rw [decpayBody, ht]
  rfl

theorem decpayBody_badRoot {s : State} {sym : Sym} (ht : s.tree = some (.leaf sym)) (hne : sym ≠ 256) :
    decpayBody s = raise .malformedBitstream 4 s := by
  have hbad : badRoot (.leaf sym) = true := decide_eq_true fun h => hne (BitVec.eq_of_toNat_eq h)
  simp only [decpayBody, ht, hbad, if_true]

/-- Settles O51: the test of the root comes before any access. -/
theorem decpayLeafRoot : Obligations.DecpayLeafRoot := by
  refine fun s sym hr hv ht => ⟨?_, fun hne => ?_⟩
  · rintro rfl
    exact exec_done (i := .decpay) hr hv (decpayBody_sentinelRoot (s := { s with run := .busy }) ht) hr
  · exact exec_raise (i := .decpay) hr hv (decpayBody_badRoot (s := { s with run := .busy }) ht hne)

/-! ### The walk, and where a failing access leaves it (R163, R165, R193) -/

/-- DECPAY along granted bits that end in the middle of a code word: its loop stands at an internal node, from where the
walk on any further bits goes on. -/
theorem decpayBody_walked {s : State} {l r : CodeTree} {k : Nat} {bytes : List Byte} (ht : s.tree = some (.node l r))
    (hk : k ≤ s.inRest.length) (hw : walkBits (.node l r) (.node l r) (s.inRest.take k) = (bytes, none))
    (hi : quiet (s.inp.errors.take k)) (ho : quiet (s.out.errors.take (8 * bytes.length))) :
    ∃ n l' r', decpayBody s =
        decLoop (n + 2) (.node l r) (.node l' r') ((s.advanceIn k).appendOut (unpack bytes)) ∧
      ∀ xs, walkBits (.node l r) (.node l r) (s.inRest.take k ++ xs) =
        (bytes ++ (walkBits (.node l r) (.node l' r') xs).1, (walkBits (.node l r) (.node l' r') xs).2) := by
  have hlen : (s.inRest.take k).length = k := List.length_take_of_le hk
  have hbound : decBound s = 2 * s.inRest.length + 2 := by rw [inRest_length]; rfl
  obtain ⟨m, l', r', hm, hloop, hgoes⟩ := decLoop_walked (n := decBound s) hw (List.take_append_drop k s.inRest).symm
    (by rwa [hlen]) ho (by omega)
  obtain ⟨n, rfl⟩ : ∃ n, m = n + 2 := ⟨m - 2, by omega⟩
  rw [hlen] at hloop
  refine ⟨n, l', r', ?_, hgoes⟩
  rw [← hloop]
  simp only [decpayBody, ht, badRoot, Bool.false_eq_true, if_false]

/-- R55: DECPAY whose read after the first `k` bits fails. -/
theorem decpayBody_inError {s : State} {l r : CodeTree} {k : Nat} {bytes : List Byte} {rest : List Bool}
    (ht : s.tree = some (.node l r)) (hk : k ≤ s.inRest.length)
    (hw : walkBits (.node l r) (.node l r) (s.inRest.take k) = (bytes, none))
    (ho : quiet (s.out.errors.take (8 * bytes.length)))
    (he : s.inp.errors = List.replicate k false ++ true :: rest) :
    decpayBody s = raise .ioFailure 0
      { s.appendOut (unpack bytes) with inp := { s.inp with pos := s.inp.pos + k, errors := rest } } := by
  obtain ⟨n, l', r', hbody, -⟩ := decpayBody_walked ht hk hw (he ▸ quiet_replicate k _) ho
  have hnext : ((s.advanceIn k).appendOut (unpack bytes)).inp.errors = true :: rest := by
    show s.inp.errors.drop k = _
    rw [he, List.drop_left' List.length_replicate]
  rw [hbody, decLoop, inBit_error hnext, andThen_raise]
  rfl

/-- A bit that completes a byte in the walk leads to that byte's leaf. -/
theorem leaf_of_walkBits_single {root l r : CodeTree} {x : Bool} {b : Byte}
    (h : walkBits root (.node l r) [x] = ([b], none)) :
    ∃ sym : Sym, (if x then r else l) = .leaf sym ∧ sym.toNat ≠ Config.eos ∧ sym.truncate 8 = b := by
  rw [walkBits] at h
  split at h
  · rename_i sym hleaf
    split at h
    · cases h
    · rename_i hne
      simp only [walkBits, Prod.mk.injEq, List.cons.injEq, and_true] at h
      exact ⟨sym, hleaf, hne, h⟩
  · simp [walkBits] at h

/-- R55: DECPAY's loop at a bit that completes a byte of which the output port takes `m` bits. -/
theorem decLoop_outError {n m : Nat} {root l r : CodeTree} {s : State} {x : Bool} {xs rest : List Bool} {sym : Sym}
    (hin : s.inRest = x :: xs) (hi : quiet (s.inp.errors.take 1)) (hleaf : (if x then r else l) = .leaf sym)
    (hne : sym.toNat ≠ Config.eos) (hm : m < 8) (he : s.out.errors = List.replicate m false ++ true :: rest) :
    decLoop (n + 2) root (.node l r) s = raise .ioFailure 1 { s.advanceIn 1 with
      out := { bits := s.out.bits ++ (unpack [sym.truncate 8]).take m, errors := rest } } := by
  rw [decLoop, inBit_granted_cons hi hin, andThen_done]
  simp only [hleaf]
  rw [decLoop, if_neg hne, outBits, outBits_byte,
    outString_error (s := s.advanceIn 1) (by rwa [unpack_length, List.length_singleton]) he, andThen_raise]
  rfl

/-- R55: DECPAY whose write of the byte that the bit after the first `k` completes fails. -/
theorem decpayBody_outError {s : State} {l r : CodeTree} {k m : Nat} {bytes : List Byte} {b : Byte} {rest : List Bool}
    (ht : s.tree = some (.node l r)) (hk : k < s.inRest.length) (hm : m < 8)
    (hw : walkBits (.node l r) (.node l r) (s.inRest.take k) = (bytes, none))
    (hw' : walkBits (.node l r) (.node l r) (s.inRest.take (k + 1)) = (bytes ++ [b], none))
    (hi : quiet (s.inp.errors.take (k + 1)))
    (he : s.out.errors = List.replicate (8 * bytes.length + m) false ++ true :: rest) :
    decpayBody s = raise .ioFailure 1 { s.advanceIn (k + 1) with
      out := { bits := s.out.bits ++ unpack bytes ++ (unpack [b]).take m, errors := rest } } := by
  obtain ⟨hbits, hbit⟩ := quiet_take_add.1 hi
  obtain ⟨n, l', r', hbody, hgoes⟩ := decpayBody_walked ht hk.le hw hbits (he ▸ quiet_replicate_add _ _ _)
  have hin : ((s.advanceIn k).appendOut (unpack bytes)).inRest = s.inRest[k] :: s.inRest.drop (k + 1) :=
    inRest_advance.trans (List.drop_eq_getElem_cons hk)
  have hlast : walkBits (.node l r) (.node l' r') [s.inRest[k]] = ([b], none) := by
    rw [List.take_succ_eq_append_getElem hk, hgoes, Prod.mk.injEq] at hw'
    exact Prod.ext (List.append_cancel_left hw'.1) hw'.2
  obtain ⟨sym, hleaf, hne, rfl⟩ := leaf_of_walkBits_single hlast
  have herr : ((s.advanceIn k).appendOut (unpack bytes)).out.errors = List.replicate m false ++ true :: rest := by
    show s.out.errors.drop (unpack bytes).length = _
    rw [he, unpack_length, replicate_add_cons, List.drop_left' List.length_replicate]
  rw [hbody, decLoop_outError hin hbit hleaf hne hm herr, ← advanceIn_advanceIn]
  rfl

theorem exec_decpay_quiet {s : State} {l r : CodeTree} {bytes : List Byte} {rest : List Bool} (hr : s.run = .ready)
    (hv : s.treeV = true) (ht : s.tree = some (.node l r)) (hi : quiet s.inp.errors) (ho : quiet s.out.errors)
    (hw : walkBits (.node l r) (.node l r) s.inRest = (bytes, some rest)) :
    exec .decpay s = .next ((s.advanceIn (s.inRest.length - rest.length)).appendOut (unpack bytes)) ∧
      rest.length ≤ s.inRest.length := by
  have hbody := decpayBody_quiet (s := { s with run := .busy }) hi ho ht
  rw [show State.inRest { s with run := .busy } = s.inRest from rfl, hw] at hbody
  obtain ⟨hdone, used, hused⟩ := hbody
  exact ⟨exec_done (i := .decpay) hr hv hdone hr, by rw [hused, List.length_append]; omega⟩

theorem exec_decpay_exhausted {s : State} {l r : CodeTree} {bytes : List Byte} (hr : s.run = .ready)
    (hv : s.treeV = true) (ht : s.tree = some (.node l r)) (hi : quiet s.inp.errors) (ho : quiet s.out.errors)
    (hw : walkBits (.node l r) (.node l r) s.inRest = (bytes, none)) :
    ∃ e, exec .decpay s = .next (faultEntry .malformedBitstream 3 { s.appendOut (unpack bytes) with
      inp := { s.inp with pos := s.inp.pos + s.inRest.length, errors := e } }) := by
  have hbody := decpayBody_quiet (s := { s with run := .busy }) hi ho ht
  rw [show State.inRest { s with run := .busy } = s.inRest from rfl, hw] at hbody
  obtain ⟨e, he⟩ := hbody
  exact ⟨e, exec_raise (i := .decpay) hr hv he⟩

/-- Settles O50: the walk on quiet ports, and what stands of it at each place where an access can fail. -/
theorem decpayWalk : Obligations.DecpayWalk := fun s _ _ hr hv ht =>
  ⟨fun _ _ hi ho hw => exec_decpay_quiet hr hv ht hi ho hw,
    fun _ hi ho hw => exec_decpay_exhausted hr hv ht hi ho hw,
    fun _ _ _ hj hw ho he => exec_raise (i := .decpay) hr hv
      (decpayBody_inError (s := { s with run := .busy }) ht hj hw ho he),
    fun _ _ _ _ _ hn hm hw hw' hi he => exec_raise (i := .decpay) hr hv
      (decpayBody_outError (s := { s with run := .busy }) ht hn hm hw hw' hi he)⟩

/-! ### What DECPAY emits (R167, R92) -/

/-- R35: the symbols of a tree the block can hold. -/
theorem symbol_le_of_wf {tree : CodeTree} (hw : tree.wf = true) {sym : Sym} (h : sym ∈ tree.leaves) :
    sym.toNat ≤ Config.eos :=
  of_decide_eq_true (List.all_eq_true.1 (tree.wf_syms hw) sym h)

/-- What two lemmas say of the ends of one run, said together. -/
theorem Run.Ends.and {α : Type} {r : Run α} {P Q : α → State → Prop} {E F : State → Prop} {S T : Prop}
    (h₁ : r.Ends P E S) (h₂ : r.Ends Q F T) : r.Ends (fun a s => P a s ∧ Q a s) (fun s => E s ∧ F s) (S ∧ T) := by
  cases r with
  | done a s => exact ⟨h₁, h₂⟩
  | ended s => exact ⟨h₁, h₂⟩
  | stuck f => exact ⟨h₁, h₂⟩

/-- What `OUT` holds in `u` beyond what it holds in `s` is whole bytes, each the symbol of a leaf. -/
def LeavesEmitted (tree : CodeTree) (s u : State) : Prop :=
  ∃ bytes, u.out.bits = s.out.bits ++ unpack bytes ∧ ∀ b ∈ bytes, symOfByte b ∈ tree.leaves

/-- Whatever the ports answer, a DECPAY that ends normally has emitted symbols of leaves, and its other end is a fault. -/
theorem decpayBody_leaves {s : State} {tree : CodeTree} (ht : s.tree = some tree) (hw : tree.wf = true) :
    (decpayBody s).Ends (fun _ u => LeavesEmitted tree s u) (fun t => t.run = .fault) True := by
  have hemits : (decpayBody s).Ends (fun _ u => LeavesEmitted tree s u) (fun _ => True) True := by
    simp only [decpayBody, ht]
    split
    · trivial
    · exact decLoop_leaves _ tree tree (fun _ h => h) (fun _ h => symbol_le_of_wf hw h) s
  exact (hemits.and (decpayBody_ends s)).loose (fun _ _ h => h.1) fun _ h => raises_run h.2

/-- Settles O52: the loop emits the symbols of the leaves it meets, and a `raise` does not end in `READY`. -/
theorem decodedBytesAreLeaves : Obligations.DecodedBytesAreLeaves := by
  intro s t tree hr hv ht hw hexec htr
  have hends := decpayBody_leaves (s := { s with run := .busy }) ht hw
  obtain ⟨u, hbytes, rfl⟩ | hfault := complete_next hends (exec_taken (i := .decpay) (.inl hr) hv ▸ hexec)
  · exact hbytes
  · cases htr.symm.trans hfault

/-! ### DECPAY undoes ENCPAY (R145, R166, R167) -/

/-- R144: the only payload in the code of a tree that is one leaf is the empty source's, where the leaf is the
sentinel's. -/
theorem payload_leaf {sym : Sym} {src : List Byte} {p : List Bool} (hw : (CodeTree.leaf sym).wf = true)
    (hp : payload (codeTable (.leaf sym)) src = some p) : sym = 256 ∧ src = [] ∧ p = [] := by
  have only : ∀ {a : Nat} {w : List Bool}, codeWord (codeTable (.leaf sym)) a = some w → sym.toNat = a ∧ w = [] := by
    intro a w h
    obtain ⟨sym', rfl, hmem⟩ := codeWord_mem_paths hw h
    obtain ⟨rfl, rfl⟩ := Prod.mk.inj (List.mem_singleton.1 hmem)
    exact ⟨rfl, rfl⟩
  obtain ⟨ws, w, hws, heos, rfl⟩ := payload_eq_some hp
  obtain ⟨hsym, rfl⟩ := only heos
  refine ⟨BitVec.eq_of_toNat_eq hsym, ?_⟩
  cases src with
  | nil =>
    obtain rfl : [] = ws := Option.some.inj hws
    exact ⟨rfl, rfl⟩
  | cons b src =>
    obtain ⟨w, -, hb, -⟩ := codesOf_cons_some hws
    have hlt : b.toNat < Config.eos := b.isLt
    exact absurd (hsym.symm.trans (only hb).1) hlt.ne'

/-- Settles O53: the walk along the payload emits its source, on a leaf the empty one. -/
theorem payloadRoundTrip : Obligations.PayloadRoundTrip := by
  intro s tree src p rest hr hv ht hw hi ho hp hin
  cases tree with
  | leaf sym =>
    obtain ⟨rfl, rfl, rfl⟩ := payload_leaf hw hp
    rw [(decpayLeafRoot s 256 hr hv ht).1 rfl]
    simp [State.advanceIn, State.appendOut, unpack]
  | node l r =>
    have hwalk := hin ▸ walkBits_payload (rest := rest) hw hp
    rw [(exec_decpay_quiet hr hv ht hi ho hwalk).1, hin, List.length_append, Nat.add_sub_cancel]

end Sys2Proof.Machine
end

section
/-! PROOFS. The Stream Decoder's RDMAGIC (R161), and DECODE on an input that does not begin with the magic field (R162). -/

namespace Sys2Proof.Machine

/-! ### RDMAGIC (R161) -/

/-- RDMAGIC on four bytes or more: 32 bits are read and compared. -/
theorem rdmagicBody_read {s : State} (hi : quiet s.inp.errors) (hlen : 4 ≤ s.inp.bytes.length) :
    rdmagicBody s =
      if valOf ((unpack s.inp.bytes).take 32) ≠ s.params.magic.toNat then
        raise .formatMismatch 0 { s with inp := { s.inp with pos := 32, errors := s.inp.errors.drop 33 } }
      else .done () { s with inp := { s.inp with pos := 32, errors := s.inp.errors.drop 33 } } := by
  have hfield : ((unpack s.inp.bytes).take 32).length = 32 :=
    List.length_take_of_le (by rw [unpack_length]; omega)
  rw [rdmagicBody, inRewind_quiet hi, andThen_done,
    inBits_quiet (bs := (unpack s.inp.bytes).take 32) (quiet_drop hi 1) (List.take_append_drop 32 _).symm hfield]
  simp [State.advanceIn]

/-- RDMAGIC on fewer than four bytes: they are all read, and the next read finds the end. -/
theorem rdmagicBody_short {s : State} (hi : quiet s.inp.errors) (hlen : s.inp.bytes.length < 4) :
    rdmagicBody s = raise .formatMismatch 1 { s with inp := { s.inp with
      pos := 8 * s.inp.bytes.length, errors := s.inp.errors.drop (8 * s.inp.bytes.length + 2) } } := by
  rw [rdmagicBody, inRewind_quiet hi, andThen_done, inBits_short (quiet_drop hi 1) (by simp [inRest_length]; omega)]
  simp [inRest_length]

/-- R55: RDMAGIC whose access fails after `j` granted ones, the first of which is the rewind. -/
theorem rdmagicBody_error {s : State} {j : Nat} {rest : List Bool} (hj : j ≤ 32)
    (hend : j ≤ 8 * s.inp.bytes.length + 1) (he : s.inp.errors = List.replicate j false ++ true :: rest) :
    rdmagicBody s = raise .ioFailure 0
      { s with inp := { s.inp with pos := if j = 0 then s.inp.pos else j - 1, errors := rest } } := by
  cases j with
  | zero =>
    rw [rdmagicBody, inRewind_error he, andThen_raise]
    rfl
  | succ j =>
    rw [List.replicate_succ, List.cons_append] at he
    rw [rdmagicBody, inRewind_granted (by simp [he]), andThen_done,
      inBits_error (j := j) (rest := rest) (by omega) (by simp [inRest_length]; omega) (by rw [he]; rfl), andThen_raise]
    simp

/-- Settles O49: the reads that are granted, then the comparison, the end of the input or the failing access. -/
theorem rdmagicResult : Obligations.RdmagicResult := by
  refine fun s hr => ⟨fun hi hlen => ⟨fun heq => ?_, fun hne => ?_⟩, fun hi hlen => ?_, fun j rest hj hend he => ?_⟩
  · exact exec_done (i := .rdmagic) hr rfl
      ((rdmagicBody_read (s := { s with run := .busy }) hi hlen).trans (if_neg (not_not_intro heq))) hr
  · exact exec_raise (i := .rdmagic) hr rfl
      ((rdmagicBody_read (s := { s with run := .busy }) hi hlen).trans (if_pos hne))
  · exact exec_raise (i := .rdmagic) hr rfl (rdmagicBody_short (s := { s with run := .busy }) hi hlen)
  · exact exec_raise (i := .rdmagic) hr rfl (rdmagicBody_error (s := { s with run := .busy }) hj hend he)

/-! ### DECODE (R162) -/

/-- RDMAGIC on an input that does not begin with the magic field, however it fails to. -/
theorem rdmagicBody_mismatch {s : State} (hi : quiet s.inp.errors)
    (h : valOf ((unpack s.inp.bytes).take 32) ≠ s.params.magic.toNat ∨ s.inp.bytes.length < 4) :
    ∃ info e, rdmagicBody s = raise .formatMismatch info
      { s with inp := { s.inp with pos := min 32 (8 * s.inp.bytes.length), errors := e } } := by
  by_cases hlen : s.inp.bytes.length < 4
  · rw [rdmagicBody_short hi hlen, Nat.min_eq_right (by omega)]
    exact ⟨_, _, rfl⟩
  · rw [rdmagicBody_read hi (by omega), if_pos (h.resolve_right hlen), Nat.min_eq_left (by omega)]
    exact ⟨_, _, rfl⟩

/-- A fault of RDMAGIC under DECODE ends the sequence there. -/
theorem decodeBody_rdmagicRaise {s u v : State} {c : Cause} {info : Word} (hclr : clrBody s = .done () u)
    (hmagic : rdmagicBody u = raise c info v) : decodeBody s = raise c info v := by
  rw [decodeBody, hclr, andThen_done, hmagic, andThen_raise]

/-- Settles O56: CLR has emptied `OUT` and discarded the tree, and RDMAGIC's `raise` ends the sequence. -/
theorem magicMismatchStopsDecode : Obligations.MagicMismatchStopsDecode := by
  intro s hr hi ho h
  have hclr := clrBody_quiet (s := { s with run := .busy }) hi ho
  obtain ⟨info, e, hmagic⟩ := rdmagicBody_mismatch (s := { cleared { s with run := .busy } with
    inp := { s.inp with pos := 0, errors := s.inp.errors.drop 1 }
    out := { bits := [], errors := s.out.errors.drop 1 } }) (quiet_drop hi 1) h
  exact ⟨_, exec_raise (i := .decode) hr rfl (decodeBody_rdmagicRaise hclr hmagic), rfl, rfl, rfl, rfl, rfl⟩

end Sys2Proof.Machine
end

section
/-! PROOFS. Which commands are lost (R174) and how a reserved opcode faults (R171). -/

namespace Sys2Proof.Machine

/-- Settles O7: in `READY` a reserved opcode is issued as fault entry. -/
theorem reservedOpcodeFaults : Obligations.ReservedOpcodeFaults := by
  intro s w hr hd
  rw [writeReg_cmd, hd]
  exact issueReserved_ready hr _

/-- R174: a write of `CMD` outside `READY` is lost, unless it is a CLR in `FAULT`. -/
theorem writeReg_lost {s : State} {w : Word} (h : s.run = .busy ∨ (s.run = .fault ∧ w.extractLsb' 0 8 ≠ 0x01#8)) :
    writeReg 0 w s = .next s := by
  rw [writeReg_cmd]
  cases hd : decodeOp (w.extractLsb' 0 8) with
  | none => exact issueReserved_lost (by obtain hr | ⟨hr, -⟩ := h <;> simp [hr]) _
  | some i =>
    refine exec_lost (h.imp_right fun ⟨hr, hne⟩ => ⟨hr, ?_⟩)
    rintro rfl
    exact hne (opcode_of_decodeOp hd).symm

/-- R174: the fault record stays on every event but reset and a CLR. -/
theorem EventEffect.faultRecord {s t : State} {e : HostEvent} (h : EventEffect s e t) (hr : s.run = .fault)
    (hreset : e ≠ .reset) (hclr : ∀ w, e = .write 0 w → w.extractLsb' 0 8 ≠ 0x01#8) :
    t.run = .fault ∧ t.cause = s.cause ∧ t.finfo = s.finfo := by
  cases h with
  | @command w i _ hd hexec =>
    have hi : i ≠ .clr := by
      rintro rfl
      exact hclr w rfl (commandByte_eq w ▸ (opcode_of_decodeOp hd).symm)
    obtain rfl := Host.Outcome.next.inj ((exec_lost (.inr ⟨hr, hi⟩)).symm.trans hexec)
    exact ⟨hr, rfl, rfl⟩
  | illegal _ hready => cases hr.symm.trans hready
  | reset => exact absurd rfl hreset
  | _ => exact ⟨hr, rfl, rfl⟩

/-- Settles O11: by what a lost write and every other event do in `FAULT`. -/
theorem lostWrites : Obligations.LostWrites := by
  refine ⟨fun s w hr => writeReg_lost (.inl hr), fun s w hr hne => writeReg_lost (.inr ⟨hr, hne⟩),
    fun s t e rest hr hs hreset hclr h => ?_⟩
  obtain ⟨hnil, -⟩ | ⟨e', rest', hs', he⟩ := step_next h
  · cases hs.symm.trans hnil
  · cases hs.symm.trans hs'
    exact he.faultRecord hr hreset hclr

end Sys2Proof.Machine
end

section
/-! PROOFS. CLR on ports that answer (R175), and what each command leaves unchanged (R172, R43). -/

namespace Sys2Proof.Machine

/-! ### CLR (R175) -/

/-- The state CLR leaves on ports that answer. -/
def State.afterClr (s : State) : State :=
  { cleared s with
    run := .ready, inp := { s.inp with pos := 0, errors := s.inp.errors.drop 1 }
    out := { bits := [], errors := s.out.errors.drop 1 } }

theorem exec_clr_quiet {s : State} (hr : s.run ≠ .busy) (hi : quiet s.inp.errors) (ho : quiet s.out.errors) :
    exec .clr s = .next s.afterClr := by
  rw [exec_clr, issueClr_taken hr, clrBody_quiet (s := { s with run := .busy }) hi ho]
  rfl

/-- Outside `BUSY` both read their values, and a register's value depends on nothing in which they differ. -/
theorem afterClr_readReg (s : State) (reg : Nat) : s.afterClr.readReg reg = (applyReset s).readReg reg := by
  rw [readReg_stable (.inl (by simp [State.afterClr])), readReg_stable (.inl (by simp))]
  rfl

/-- Settles O14: by the body's lemma on quiet ports. -/
theorem clrResult : Obligations.ClrResult := fun s hr hi ho =>
  ⟨s.afterClr, exec_clr_quiet hr hi ho, rfl, afterClr_readReg s⟩

/-! ### Frames (R172, R43) -/

/-- A property of states that does not look at the run state or the fault record. -/
def IgnoresControl (P : State → Prop) : Prop :=
  ∀ (u : State) (r : RunState) (c : BitVec 4) (info : Word), P u → P { u with run := r, cause := c, finfo := info }

/-- What a command's body keeps at each of its ends the command keeps, whether it is lost, refused or run. -/
theorem exec_preserves {i : Instr} {s t : State} {P : State → Prop} (h : exec i s = .next t) (hP : IgnoresControl P)
    (hs : P s) (hb : (bodyOf i { s with run := .busy }).Ends (fun _ u => P u) (Raises (fun _ _ => True) P) True) :
    P t := by
  obtain ⟨-, rfl⟩ | ⟨-, -, rfl⟩ | ⟨-, -, hc⟩ := exec_next h
  · exact hs
  · exact hP _ _ _ _ hs
  · obtain ⟨u, hu, rfl⟩ | ⟨c, info, u, -, hu, rfl⟩ := complete_next hb hc
    · exact hP _ _ _ _ hu
    · exact hP _ _ _ _ hu

theorem Raises.anyCause {A : Cause → Word → Prop} {F G : State → Prop} {t : State} (h : Raises A F t)
    (hf : ∀ u, F u → G u) : Raises (fun _ _ => True) G t := h.mono (fun _ _ _ => trivial) hf

/-- The two states have the same fault record. -/
def SameRecord (s u : State) : Prop := u.cause = s.cause ∧ u.finfo = s.finfo

theorem IOMoved.sameRecord {s u : State} (h : IOMoved s u) : SameRecord s u := by
  obtain ⟨⟨_, _, _, _, rfl⟩, -⟩ := h
  exact ⟨rfl, rfl⟩

/-- R172: only the commands that begin with CLR write the fault record when they end normally. -/
theorem bodyOf_sameRecord {i : Instr} (hi : i ∉ [Instr.clr, .encode, .decode]) (s : State) :
    (bodyOf i s).Ends (fun _ u => SameRecord s u) (fun t => t.run = .fault) True := by
  cases i with
  | clr => simp at hi
  | encode => simp at hi
  | decode => simp at hi
  | count =>
    refine (countBody_ends s).loose ?_ fun _ h => raises_run h
    rintro _ u ⟨e, rfl, -⟩
    exact ⟨rfl, rfl⟩
  | build =>
    refine (buildBody_ends s).loose ?_ ?_
    · rintro _ u ⟨-, -, p, t, -, rfl⟩
      exact ⟨rfl, rfl⟩
    · rintro t ⟨-, rfl⟩
      rfl
  | mktable =>
    refine (mktableBody_ends s).loose ?_ fun _ h => h.elim
    rintro _ u ⟨t, -, rfl⟩
    exact ⟨rfl, rfl⟩
  | wrmagic =>
    refine (wrmagicBody_ends s).loose ?_ fun _ h => raises_run h
    rintro _ u ⟨e, rfl⟩
    exact ⟨rfl, rfl⟩
  | sertree =>
    refine (sertreeBody_ends s).loose ?_ fun _ h => raises_run h
    rintro _ u ⟨t, e, -, rfl⟩
    exact ⟨rfl, rfl⟩
  | destree =>
    refine (destreeBody_ends s).loose ?_ fun _ h => raises_run h
    rintro _ u ⟨t, -, inp, -, -, rfl⟩
    exact ⟨rfl, rfl⟩
  | encpay => exact (encpayBody_ends s).loose (fun _ _ h => h.1.sameRecord) fun _ h => raises_run h
  | rdmagic => exact (rdmagicBody_ends s).loose (fun _ _ h => h.1.io.sameRecord) fun _ h => raises_run h
  | decpay => exact (decpayBody_ends s).loose (fun _ _ h => h.1.sameRecord) fun _ h => raises_run h

theorem exec_sameRecord {i : Instr} {s t : State} (hi : i ∉ [Instr.clr, .encode, .decode]) (h : exec i s = .next t)
    (ht : t.run = .ready) : t.cause = s.cause ∧ t.finfo = s.finfo := by
  obtain ⟨-, rfl⟩ | ⟨-, -, rfl⟩ | ⟨-, -, hc⟩ := exec_next h
  · exact ⟨rfl, rfl⟩
  · cases ht
  · obtain ⟨u, hu, rfl⟩ | hf := complete_next (bodyOf_sameRecord hi _) hc
    · exact hu
    · cases ht.symm.trans hf

/-- What a streaming command changes beside the run state and the fault record: the ports, as far as it uses them. -/
def StreamFrame (i : Instr) (s u : State) : Prop :=
  u = { s with run := u.run, cause := u.cause, finfo := u.finfo, inp := u.inp, out := u.out } ∧
    u.inp.bytes = s.inp.bytes ∧ (∃ bits, u.out.bits = s.out.bits ++ bits) ∧ (i = .rdmagic → u.out = s.out) ∧
    (i = .wrmagic ∨ i = .sertree → u.inp = s.inp)

theorem streamFrame_ignoresControl (i : Instr) (s : State) : IgnoresControl (StreamFrame i s) := by
  rintro u r c info ⟨hu, hbytes, hbits, hout, hin⟩
  refine ⟨?_, hbytes, hbits, hout, hin⟩
  conv => lhs; rw [hu]

theorem streamFrame_refl (i : Instr) (s : State) : StreamFrame i s s :=
  ⟨rfl, rfl, ⟨[], by simp⟩, fun _ => rfl, fun _ => rfl⟩

theorem OutMoved.streamFrame {i : Instr} {s u : State} (h : OutMoved s u) (hi : i ≠ .rdmagic) : StreamFrame i s u := by
  obtain ⟨bits, e, rfl⟩ := h
  exact ⟨rfl, rfl, ⟨bits, rfl⟩, fun h => absurd h hi, fun _ => rfl⟩

theorem IOMoved.streamFrame {i : Instr} {s u : State} (h : IOMoved s u) (hi : i ∉ [Instr.rdmagic, .wrmagic, .sertree]) :
    StreamFrame i s u := by
  obtain ⟨⟨p, ei, bits, eo, rfl⟩, -⟩ := h
  simp only [List.mem_cons, List.not_mem_nil, or_false, not_or] at hi
  exact ⟨rfl, rfl, ⟨bits, rfl⟩, fun h => absurd h hi.1, fun h => absurd h (not_or.2 hi.2)⟩

theorem InMoved.streamFrame {s u : State} (h : InMoved s u) : StreamFrame .rdmagic s u := by
  obtain ⟨hu, -⟩ := h
  rw [hu]
  exact ⟨rfl, rfl, ⟨[], by simp⟩, fun _ => rfl, fun h => by simp at h⟩

theorem streaming_frame {i : Instr} (hi : i ∈ [Instr.wrmagic, .sertree, .rdmagic, .encpay, .decpay]) (s : State) :
    (bodyOf i s).Ends (fun _ u => StreamFrame i s u) (Raises (fun _ _ => True) (StreamFrame i s)) True := by
  simp only [List.mem_cons, List.not_mem_nil, or_false] at hi
  rcases hi with rfl | rfl | rfl | rfl | rfl
  · refine (wrmagicBody_ends s).loose ?_ fun _ h => h.anyCause fun _ h => h.streamFrame (by decide)
    rintro _ u ⟨e, hu⟩
    exact OutMoved.streamFrame ⟨_, e, hu⟩ (by decide)
  · refine (sertreeBody_ends s).loose ?_ fun _ h => h.anyCause fun _ h => h.streamFrame (by decide)
    rintro _ u ⟨_, e, -, hu⟩
    exact OutMoved.streamFrame ⟨_, e, hu⟩ (by decide)
  · exact (rdmagicBody_ends s).loose (fun _ _ h => h.1.streamFrame) fun _ h => h.anyCause fun _ h => h.streamFrame
  · exact (encpayBody_ends s).loose (fun _ _ h => h.1.streamFrame (by decide)) fun _ h =>
      h.anyCause fun _ h => h.streamFrame (by decide)
  · exact (decpayBody_ends s).loose (fun _ _ h => h.1.streamFrame (by decide)) fun _ h =>
      h.anyCause fun _ h => h.streamFrame (by decide)

/-- Settles O20: by the frame of each body, at its end and where it raises. -/
theorem frameStreaming : Obligations.FrameStreaming := by
  intro i hi s t h
  obtain ⟨hframe, hbytes, hbits, hout, hin⟩ :=
    exec_preserves h (streamFrame_ignoresControl i s) (streamFrame_refl i s) (streaming_frame hi { s with run := .busy })
  refine ⟨hframe, hbytes, exec_sameRecord ?_ h, hbits, hout, hin⟩
  simp only [List.mem_cons, List.not_mem_nil, or_false] at hi
  rcases hi with rfl | rfl | rfl | rfl | rfl <;> decide

/-- What a command that makes a structure changes beside the run state and the fault record (R43). -/
def BuildingFrame (i : Instr) (s u : State) : Prop :=
  match i with
  | .count =>
    u = { s with
      run := u.run, cause := u.cause, finfo := u.finfo, ftV := u.ftV, treeV := u.treeV, tabV := u.tabV
      cnt := u.cnt, node := u.node, weight := u.weight, root := u.root, nnodes := u.nnodes, ct := u.ct
      inp := u.inp } ∧ u.inp.bytes = s.inp.bytes
  | .build =>
    u = { s with
      run := u.run, cause := u.cause, finfo := u.finfo, treeV := u.treeV, tabV := u.tabV
      node := u.node, weight := u.weight, live := u.live, root := u.root, nnodes := u.nnodes, ct := u.ct }
  | .destree =>
    u = { s with
      run := u.run, cause := u.cause, finfo := u.finfo, treeV := u.treeV, tabV := u.tabV
      node := u.node, weight := u.weight, root := u.root, nnodes := u.nnodes, ct := u.ct, inp := u.inp } ∧
    u.inp.bytes = s.inp.bytes
  | .mktable => u = { s with run := u.run, cause := u.cause, finfo := u.finfo, tabV := u.tabV, ct := u.ct }
  | _ => True

theorem buildingFrame_refl (i : Instr) (s : State) : BuildingFrame i s s := by
  cases i with
  | count => exact ⟨rfl, rfl⟩
  | destree => exact ⟨rfl, rfl⟩
  | _ => trivial

@[simp] theorem buildingFrame_run (i : Instr) (s : State) (r : RunState) :
    BuildingFrame i { s with run := r } = BuildingFrame i s := by cases i <;> rfl

theorem buildingFrame_ignoresControl (i : Instr) (s : State) : IgnoresControl (BuildingFrame i s) := by
  intro u r c info h
  cases i with
  | count =>
    obtain ⟨hu, hbytes⟩ := h
    exact ⟨by conv => lhs; rw [hu], hbytes⟩
  | destree =>
    obtain ⟨hu, hbytes⟩ := h
    exact ⟨by conv => lhs; rw [hu], hbytes⟩
  | build => show _ = _; conv => lhs; rw [show u = _ from h]
  | mktable => show _ = _; conv => lhs; rw [show u = _ from h]
  | _ => trivial

theorem InMoved.count_frame {s u : State} (h : InMoved s.dropAll u) : BuildingFrame .count s u := by
  obtain ⟨hu, -⟩ := h
  rw [hu]
  exact ⟨rfl, rfl⟩

theorem InMoved.destree_frame {s u : State} (h : InMoved s.dropTree u) : BuildingFrame .destree s u := by
  obtain ⟨hu, -⟩ := h
  rw [hu]
  exact ⟨rfl, rfl⟩

theorem building_frame {i : Instr} (hi : i ∈ [Instr.count, .build, .destree, .mktable]) (s : State) :
    (bodyOf i s).Ends (fun _ u => BuildingFrame i s u) (Raises (fun _ _ => True) (BuildingFrame i s)) True := by
  simp only [List.mem_cons, List.not_mem_nil, or_false] at hi
  rcases hi with rfl | rfl | rfl | rfl
  · refine (countBody_ends s).loose ?_ fun _ h => h.anyCause fun _ h => h.count_frame
    rintro _ u ⟨e, rfl, -⟩
    exact ⟨rfl, rfl⟩
  · refine (buildBody_ends s).loose ?_ ?_
    · rintro _ u ⟨-, -, p, t, -, rfl⟩
      rfl
    · rintro t ⟨-, rfl⟩
      exact ⟨_, _, { s.dropTree with live := List.replicate Config.nodeCap false }, trivial, rfl, rfl⟩
  · refine (destreeBody_ends s).loose ?_ fun _ h => h.anyCause fun _ h => h.destree_frame
    rintro _ u ⟨t, -, inp, hm, -, rfl⟩
    exact ⟨rfl, hm.keeps.bytes⟩
  · refine (mktableBody_ends s).loose ?_ fun _ h => h.elim
    rintro _ u ⟨t, -, rfl⟩
    rfl

theorem exec_buildingFrame {i : Instr} {s t : State} (hi : i ∈ [Instr.count, .build, .destree, .mktable])
    (h : exec i s = .next t) : BuildingFrame i s t := by
  have hb := building_frame hi { s with run := .busy }
  rw [buildingFrame_run] at hb
  exact exec_preserves h (buildingFrame_ignoresControl i s) (buildingFrame_refl i s) hb

/-- Settles O21: by the frame of each body, at its end and where it raises. -/
theorem frameBuilding : Obligations.FrameBuilding := by
  intro s t
  refine ⟨exec_buildingFrame (by decide), exec_buildingFrame (by decide), exec_buildingFrame (by decide),
    exec_buildingFrame (by decide), fun i hi h => exec_sameRecord ?_ h⟩
  simp only [List.mem_cons, List.not_mem_nil, or_false] at hi
  rcases hi with rfl | rfl | rfl | rfl <;> decide

/-- The bodies that begin with CLR keep the edge of the block, and end normally with a clear record. -/
theorem wholeBody_ends {i : Instr} (hi : i ∈ [Instr.clr, .encode, .decode]) (s : State) :
    (bodyOf i s).Ends (fun _ u => Keeps s u ∧ u.cause = 0 ∧ u.finfo = 0) (AnyFault s) True := by
  simp only [List.mem_cons, List.not_mem_nil, or_false] at hi
  rcases hi with rfl | rfl | rfl
  · exact bodyOf_record rfl (.inl rfl)
  · exact (encodeBody_ends s).loose (fun _ _ h => ⟨h.keeps, h.cause, h.finfo⟩) fun _ h => raises_keeps h fun _ h => h
  · exact (decodeBody_ends s).loose (fun _ _ h => ⟨h.keeps, h.cause, h.finfo⟩) fun _ h => raises_keeps h fun _ h => h

/-- Settles O22: a lost command changes nothing, and one that is taken keeps the edge of the block. -/
theorem frameWhole : Obligations.FrameWhole := by
  intro i hi s t h
  have hneeds : needs i s = true := by
    simp only [List.mem_cons, List.not_mem_nil, or_false] at hi
    rcases hi with rfl | rfl | rfl <;> rfl
  obtain ⟨hlost, rfl⟩ | ⟨-, hn, -⟩ | ⟨-, -, hc⟩ := exec_next h
  · refine ⟨rfl, rfl, rfl, rfl, rfl, fun hr => ?_⟩
    obtain hb | ⟨hb, -⟩ := hlost
    all_goals cases hr.symm.trans hb
  · cases hneeds.symm.trans hn
  · obtain ⟨u, ⟨hk, hrec⟩, rfl⟩ | ⟨c, info, u, -, hk, rfl⟩ := complete_next (wholeBody_ends hi _) hc
    · exact ⟨hk.bytes, hk.params, hk.host, hk.readData, hk.openReads, fun _ => hrec⟩
    · exact ⟨hk.bytes, hk.params, hk.host, hk.readData, hk.openReads, fun hr => by cases hr⟩

end Sys2Proof.Machine
end

section
/-! PROOFS. ENCODE and DECODE: each equals its command sequence (R179 (d)), what each leaves on quiet ports (R177, R178),
and that DECODE undoes ENCODE (R179 (a)). -/

namespace Sys2Proof.Machine

/-! ### The composites as sequences (R179 (d)) -/

/-- A command issued where the body before it completed runs its own body from there. -/
theorem exec_resumed {i : Instr} {u : State} (hr : u.run = .busy) (hn : needs i u = true) :
    exec i { u with run := .ready } = complete (bodyOf i u) := by
  rw [exec_taken (.inl rfl) ((needs_run i u .ready).trans hn), ← hr]

/-- A body that ends normally is still in `BUSY`, with the flags it leaves; its other end is a fault. -/
theorem bodyOf_busy_flags {i : Instr} {u : State} {ft tree tab : Bool} {F : State → Prop} (hr : u.run = .busy)
    (hn : needs i u = true) (hf : (bodyOf i u).Ends (fun _ v => Flags ft tree tab v) F True) :
    (bodyOf i u).Ends (fun _ v => v.run = .busy ∧ Flags ft tree tab v) (fun t => t.run = .fault) True :=
  ((bodyOf_keeps hn).and hf).loose (fun _ _ ⟨hk, hflags⟩ => ⟨hk.run.trans hr, hflags⟩) fun _ h => raises_run h.1

/-- A sequence whose first command is enabled is that command's body followed by the rest (R179). -/
theorem execSeq_body {i : Instr} {is : List Instr} {u : State} {k : State → Run Unit} {ft tree tab : Bool}
    {F : State → Prop} (hr : u.run = .busy) (hn : needs i u = true)
    (hf : (bodyOf i u).Ends (fun _ v => Flags ft tree tab v) F True)
    (hk : ∀ v, v.run = .busy → Flags ft tree tab v → execSeq is { v with run := .ready } = complete (k v)) :
    execSeq (i :: is) { u with run := .ready } = complete ((bodyOf i u).andThen fun _ v => k v) :=
  execSeq_cons (exec_resumed hr hn) (bodyOf_busy_flags hr hn hf) hk

theorem execSeq_lastBody {i : Instr} {u : State} (hr : u.run = .busy) (hn : needs i u = true) :
    execSeq [i] { u with run := .ready } = complete (bodyOf i u) :=
  execSeq_single _ _ i (exec_resumed hr hn)

/-- Each command of ENCODE leaves the flag that the next ones require (R177). -/
theorem execSeq_encode {u : State} (hr : u.run = .busy) :
    execSeq [.clr, .count, .build, .wrmagic, .sertree, .mktable, .encpay] { u with run := .ready } =
      complete (encodeBody u) :=
  execSeq_body hr rfl (clrBody_flags u) fun _ hr _ =>
  execSeq_body hr rfl (countBody_flags _) fun _ hr hcount =>
  execSeq_body hr hcount.1 (buildBody_flags _) fun _ hr hbuild =>
  execSeq_body hr rfl (streaming_flags (i := .wrmagic) (by decide) _) fun _ hr hmagic =>
  have hmagic := hmagic.2.1.trans hbuild.2.1
  execSeq_body hr hmagic (streaming_flags (i := .sertree) (by decide) _) fun _ hr hser =>
  have hser := hser.2.1.trans hmagic
  execSeq_body hr hser (mktableBody_flags _) fun _ hr htab =>
  execSeq_lastBody hr htab.2.2

/-- Each command of DECODE leaves the flag that the next ones require (R178). -/
theorem execSeq_decode {u : State} (hr : u.run = .busy) :
    execSeq [.clr, .rdmagic, .destree, .decpay] { u with run := .ready } = complete (decodeBody u) :=
  execSeq_body hr rfl (clrBody_flags u) fun _ hr _ =>
  execSeq_body hr rfl (streaming_flags (i := .rdmagic) (by decide) _) fun _ hr _ =>
  execSeq_body hr rfl (destreeBody_flags _) fun _ hr htree =>
  execSeq_lastBody hr htree.2.1

theorem exec_decode {s : State} (hr : s.run = .ready) :
    exec .decode s = complete (decodeBody { s with run := .busy }) := exec_taken (i := .decode) (.inl hr) rfl

/-- Settles O57: the composite and its sequence run the same bodies one after another. -/
theorem compositesAreSequences : Obligations.CompositesAreSequences := by
  intro s hr
  have hs : s = { { s with run := .busy } with run := .ready } := by rw [← hr]
  refine ⟨?_, ?_⟩
  · rw [exec_encode hr, ← execSeq_encode rfl, ← hs]
  · rw [exec_decode hr, ← execSeq_decode rfl, ← hs]

/-! ### ENCODE on quiet ports (R177) -/

/-- BUILD's pool and tree for the counts of a source: the tree has a code for every symbol of the source, and BUILD
makes it in every state that holds these counts. -/
theorem buildBody_countTable (src : List Byte) :
    ∃ pool tree p, tree.wf = true ∧ payload (codeTable tree) src = some p ∧
      ∀ s : State, s.cnt = countTable src →
        buildBody s = .done () (s.built pool) ∧ (s.built pool).tree = some tree := by
  obtain ⟨pool, tree, hw, hperm, hbuild⟩ := buildBody_tree (countTable_length src) (leafSyms_pos (countTable_eos src))
  obtain ⟨heos, hsrc⟩ := source_leaves hperm
  obtain ⟨p, hp⟩ := payload_some hw heos hsrc
  refine ⟨pool, tree, p, hw, hp, fun s hs => ?_⟩
  obtain ⟨u, hbody, rfl, htree⟩ := hbuild s hs
  exact ⟨hbody, htree⟩

/-- Settles O54: the source is counted, BUILD makes a tree of its counts, and the tree's container is written. -/
theorem encodeResult : Obligations.EncodeResult := by
  intro s hr hi ho hf
  obtain ⟨pool, tree, p, hw, hp, hbuild⟩ := buildBody_countTable s.inp.bytes
  obtain ⟨hbody, htree⟩ := hbuild (State.counted { s with run := .busy }) rfl
  have hencode := encodeBody_quiet (s := { s with run := .busy }) hi ho hf hbody htree hp
  obtain ⟨hcmd, htree'⟩ := hbuild { s with run := .busy, ftV := true, cnt := countTable s.inp.bytes } rfl
  exact ⟨_, tree, p, (exec_encode hr).trans (congrArg complete hencode), rfl, htree, hw, rfl, rfl, hp, rfl, rfl, rfl,
    rfl, rfl, rfl, rfl, State.built { s with ftV := true, cnt := countTable s.inp.bytes } pool,
    exec_done (i := .build) hr rfl hcmd hr, htree'⟩

/-! ### DECODE on quiet ports (R178) -/

/-- A sequence whose first command completes goes on from there. -/
theorem execSeq_next {i : Instr} {is : List Instr} {s t : State} (h : exec i s = .next t) (ht : t.run = .ready) :
    execSeq (i :: is) s = execSeq is t := by
  simp only [execSeq, h, ht, if_true]

/-- RDMAGIC on an input that begins with the magic field. -/
theorem exec_rdmagic_quiet {s : State} {rest : List Bool} (hr : s.run = .ready) (hi : quiet s.inp.errors)
    (hin : unpack s.inp.bytes = magicBits s.params.magic ++ rest) :
    exec .rdmagic s = .next { s with inp := { s.inp with pos := 32, errors := s.inp.errors.drop 33 } } :=
  exec_done (i := .rdmagic) hr rfl (rdmagicBody_quiet (s := { s with run := .busy }) hi hin) hr

/-- The state in which DECODE comes to the tree field on quiet ports: cleared, and the magic field read. -/
def State.atTreeField (s : State) : State :=
  { s.afterClr with
    inp := { s.afterClr.inp with pos := 32, errors := s.afterClr.inp.errors.drop 33 } }

/-- The state in which DECODE comes to the payload on quiet ports: the tree field read too. -/
def State.atPayload (s : State) (tree : CodeTree) : State :=
  s.atTreeField.destreed tree (s.atTreeField.advanceIn (ser tree).length).inp

theorem atPayload_tree (s : State) {tree : CodeTree} (hw : tree.wf = true) : (s.atPayload tree).tree = some tree :=
  s.atTreeField.destreed_tree _ hw

section
variable {s : State} {tree : CodeTree} {rest : List Bool}
  (hin : unpack s.inp.bytes = magicBits s.params.magic ++ (ser tree ++ rest))
include hin

theorem atTreeField_inRest : s.atTreeField.inRest = ser tree ++ rest :=
  (congrArg (List.drop 32) hin).trans (List.drop_left' (bitsOf_length _ _))

theorem atPayload_inRest : (s.atPayload tree).inRest = rest := by
  show (s.atTreeField.advanceIn (ser tree).length).inRest = rest
  rw [inRest_advance, atTreeField_inRest hin, List.drop_left]

/-- DECODE's first three commands on an input that begins with the magic field and a tree field. -/
theorem exec_decode_toPayload (hr : s.run = .ready) (hi : quiet s.inp.errors) (ho : quiet s.out.errors)
    (hw : tree.wf = true) : exec .decode s = execSeq [.decpay] (s.atPayload tree) := by
  have hmagic : exec .rdmagic s.afterClr = .next s.atTreeField :=
    exec_rdmagic_quiet (s := s.afterClr) rfl (quiet_drop hi 1) hin
  have htree : exec .destree s.atTreeField = .next (s.atPayload tree) :=
    exec_destree_field rfl (quiet_drop (quiet_drop hi 1) 33) hw (atTreeField_inRest hin)
  rw [(compositesAreSequences s hr).2, execSeq_next (exec_clr_quiet (by simp [hr]) hi ho) rfl, execSeq_next hmagic rfl,
    execSeq_next htree rfl]

end

/-- DECODE on a container, as its whole end state. -/
theorem exec_decode_container {s : State} {tree : CodeTree} {src : List Byte} {p rest : List Bool} (hr : s.run = .ready)
    (hi : quiet s.inp.errors) (ho : quiet s.out.errors) (hw : tree.wf = true)
    (hp : payload (codeTable tree) src = some p)
    (hin : unpack s.inp.bytes = magicBits s.params.magic ++ (ser tree ++ (p ++ rest))) :
    exec .decode s = .next (((s.atPayload tree).advanceIn p.length).appendOut (unpack src)) := by
  have hiq : quiet (s.atPayload tree).inp.errors := quiet_drop (quiet_drop (quiet_drop hi 1) 33) _
  have hpay : exec .decpay (s.atPayload tree) = .next (((s.atPayload tree).advanceIn p.length).appendOut (unpack src)) :=
    payloadRoundTrip _ tree src p rest rfl rfl (atPayload_tree s hw) hw hiq (quiet_drop ho 1) hp (atPayload_inRest hin)
  rw [exec_decode_toPayload hin hr hi ho hw, execSeq_next hpay rfl, execSeq]

/-- Settles O55: the four commands of DECODE clear the block and read the container's three fields. -/
theorem decodeResult : Obligations.DecodeResult := by
  intro s tree src p rest hr hi ho hw hp hin
  rw [container, List.append_assoc, List.append_assoc] at hin
  refine ⟨_, exec_decode_container hr hi ho hw hp hin, rfl, rfl, pack_unpack src, atPayload_tree s hw, rfl, rfl,
    rfl, ?_, ?_, rfl, rfl⟩
  · show ((s.atPayload tree).advanceIn p.length).inRest = rest
    rw [inRest_advance, atPayload_inRest hin, List.drop_left]
  · show 32 + (ser tree).length + p.length = (container s.params.magic tree p).length
    rw [container, List.length_append, List.length_append, magicBits, bitsOf_length]

/-! ### DECODE undoes ENCODE (R179 (a)) -/

/-- A sequence that completes has completed its first command. -/
theorem execSeq_cons_ready {i : Instr} {is : List Instr} {s t : State} (h : execSeq (i :: is) s = .next t)
    (ht : t.run = .ready) : ∃ u, exec i s = .next u ∧ u.run = .ready ∧ execSeq is u = .next t := by
  rw [execSeq] at h
  split at h
  · rename_i u hexec
    split at h
    · exact ⟨u, hexec, ‹_›, h⟩
    · cases h
      exact absurd ht ‹_›
  · cases h
  · cases h

/-- R113: an ENCODE that completes on quiet ports has counted its whole source, so the counts fit. -/
theorem countsFit_of_exec_encode {s t : State} (hr : s.run = .ready) (hi : quiet s.inp.errors)
    (ho : quiet s.out.errors) (h : exec .encode s = .next t) (ht : t.run = .ready) :
    countsFit s.params s.inp.bytes := by
  rw [(compositesAreSequences s hr).1, execSeq_next (exec_clr_quiet (by simp [hr]) hi ho) rfl] at h
  obtain ⟨u, hcount, hu, -⟩ := execSeq_cons_ready h ht
  exact (exec_count_ready (s := s.afterClr) rfl hcount hu).2

/-- Settles O58: what ENCODE wrote is a container of its source, of which DECODE's input holds the bits and whatever
follows them, the pad bits of the packed file included. -/
theorem codecRoundTrip : Obligations.CodecRoundTrip := by
  intro s u t hrs his hos hexec ht hru hiu hou hmagic hin
  obtain ⟨t', tree, p, hexec', -, -, hw, -, -, hp, hbits, -⟩ :=
    encodeResult s hrs his hos (countsFit_of_exec_encode hrs his hos hexec ht)
  obtain rfl := Host.Outcome.next.inj (hexec'.symm.trans hexec)
  obtain ⟨rest, hrest⟩ : ∃ rest, unpack u.inp.bytes = t'.out.bits ++ rest := by
    obtain hrest | hpacked := hin
    · exact hrest
    · exact ⟨_, hpacked ▸ unpack_pack _⟩
  rw [hbits, ← hmagic] at hrest
  obtain ⟨v, hdecode, hv, -, hsrc, -⟩ := decodeResult u tree s.inp.bytes p rest hru hiu hou hw hp hrest
  exact ⟨v, hdecode, hv, hsrc⟩

end Sys2Proof.Machine
end

section
/-! PROOFS. The exceptions: which command can end in which fault (R188), what leads out of `FAULT` (R195), and what can
still happen in it (R196). -/

namespace Sys2Proof.Machine

/-! ### Which command can raise which fault (R188) -/

/-- The detail code of a fault about a source byte is a byte value. -/
theorem byteInfo_lt (b : Byte) : (BitVec.ofNat 32 b.toNat).toNat < 256 := by
  have := b.isLt
  simp only [BitVec.toNat_ofNat]
  omega

theorem mayRaise_of_portFailure {c : Cause} {info : Word} (h : inFailure c info ∨ outFailure c info) :
    mayRaise .clr c.code info := by
  obtain ⟨rfl, rfl⟩ | ⟨rfl, rfl⟩ := h
  · exact ⟨rfl, .inl rfl⟩
  · exact ⟨rfl, .inr rfl⟩

theorem mayRaise_of_countFaults {c : Cause} {info : Word} (h : countFaults c info) : mayRaise .count c.code info := by
  obtain ⟨rfl, rfl⟩ | ⟨rfl, b, rfl⟩ := h
  · exact .inl ⟨rfl, rfl⟩
  · exact .inr ⟨rfl, byteInfo_lt b⟩

theorem mayRaise_of_encpayFaults {s : State} {c : Cause} {info : Word} (h : encpayFaults s c info) :
    mayRaise .encpay c.code info := by
  obtain ⟨rfl, rfl⟩ | ⟨rfl, rfl⟩ | ⟨rfl, sym, rfl, -, hsym⟩ := h
  · exact .inr (.inr (.inl ⟨rfl, rfl⟩))
  · exact .inr (.inr (.inr ⟨rfl, rfl⟩))
  · refine .inr (.inl ⟨rfl, ?_⟩)
    obtain rfl | ⟨b, -, rfl⟩ := hsym
    · decide
    · exact (byteInfo_lt b).le

theorem mayRaise_of_rdmagicFaults {c : Cause} {info : Word} (h : rdmagicFaults c info) :
    mayRaise .rdmagic c.code info := by
  obtain ⟨rfl, rfl⟩ | ⟨rfl, hinfo⟩ := h
  · exact .inr ⟨rfl, rfl⟩
  · exact .inl ⟨rfl, hinfo⟩

theorem mayRaise_of_destreeFaults {c : Cause} {info : Word} (h : destreeFaults c info) :
    mayRaise .destree c.code info := by
  obtain ⟨rfl, rfl⟩ | ⟨rfl, hinfo⟩ | ⟨rfl, rfl⟩ := h
  · exact .inr (.inr ⟨rfl, rfl⟩)
  · exact .inl ⟨rfl, hinfo⟩
  · exact .inr (.inl ⟨rfl, rfl⟩)

theorem mayRaise_of_decpayFaults {c : Cause} {info : Word} (h : decpayFaults c info) :
    mayRaise .decpay c.code info := by
  obtain ⟨rfl, rfl⟩ | ⟨rfl, rfl⟩ | ⟨rfl, hinfo⟩ := h
  · exact .inr (.inr (.inl ⟨rfl, rfl⟩))
  · exact .inr (.inr (.inr ⟨rfl, rfl⟩))
  · exact .inr (.inl ⟨rfl, hinfo⟩)

theorem mayRaise_of_encodeFaults {c : Cause} {info : Word} (h : encodeFaults c info) :
    mayRaise .encode c.code info := by
  obtain ⟨rfl, rfl⟩ | ⟨rfl, rfl⟩ | ⟨rfl, b, rfl⟩ := h
  · exact .inl ⟨rfl, .inl rfl⟩
  · exact .inl ⟨rfl, .inr rfl⟩
  · exact .inr ⟨rfl, byteInfo_lt b⟩

/-- DECODE's row takes together those of the commands it runs, without `ILLEGAL_COMMAND`. -/
theorem mayRaise_of_decodeFaults {c : Cause} {info : Word} (h : decodeFaults c info) :
    mayRaise .decode c.code info := by
  have port {c : Cause} {info : Word} (h : inFailure c info ∨ outFailure c info) : mayRaise .decode c.code info :=
    .inr (.inr (.inr (mayRaise_of_portFailure h)))
  obtain h | h | h | h | h := h
  · exact port (.inl h)
  · exact port (.inr h)
  · obtain h | ⟨rfl, hinfo⟩ := h
    · exact port (.inl h)
    · exact .inl ⟨rfl, hinfo⟩
  · obtain h | ⟨rfl, hinfo⟩ | ⟨rfl, rfl⟩ := h
    · exact port (.inl h)
    · exact .inr (.inl ⟨rfl, by rcases hinfo with rfl | rfl | rfl <;> decide⟩)
    · exact .inr (.inr (.inl ⟨rfl, rfl⟩))
  · obtain h | h | ⟨rfl, hinfo⟩ := h
    · exact port (.inl h)
    · exact port (.inr h)
    · exact .inr (.inl ⟨rfl, by rcases hinfo with rfl | rfl <;> decide⟩)

/-- A body whose faults are all in its command's row of the table. -/
theorem Run.Ends.inTable {i : Instr} {r : Run Unit} {P : Unit → State → Prop} {A : Cause → Word → Prop}
    {F : State → Prop} {S : Prop} (h : r.Ends P (Raises A F) S)
    (ha : ∀ {c : Cause} {info : Word}, A c info → mayRaise i c.code info) :
    r.Ends (fun _ _ => True) (fun t => mayRaise i t.cause t.finfo) True := by
  refine h.loose (fun _ _ _ => trivial) ?_
  rintro t ⟨c, info, u, hc, -, rfl⟩
  exact ha hc

/-- R173: a command refused for its flag reports its own opcode. -/
theorem mayRaise_disabled {i : Instr} {s : State} (hn : needs i s = false) :
    mayRaise i Cause.illegalCommand.code ((opcode i).zeroExtend 32) := by
  cases i with
  | build => exact .inl ⟨rfl, rfl⟩
  | mktable => exact ⟨rfl, rfl⟩
  | sertree => exact .inl ⟨rfl, rfl⟩
  | encpay => exact .inl ⟨rfl, rfl⟩
  | decpay => exact .inl ⟨rfl, rfl⟩
  | _ => cases hn

/-- R188: a body raises only what the table lists for its command. -/
theorem bodyOf_mayRaise (i : Instr) (s : State) :
    (bodyOf i s).Ends (fun _ _ => True) (fun t => mayRaise i t.cause t.finfo) True := by
  cases i with
  | clr => exact (clrBody_ends s).inTable mayRaise_of_portFailure
  | count => exact (countBody_ends s).inTable mayRaise_of_countFaults
  | build =>
    refine (buildBody_ends s).loose (fun _ _ _ => trivial) ?_
    rintro t ⟨-, rfl⟩
    exact .inr ⟨rfl, rfl⟩
  | mktable => exact (mktableBody_ends s).loose (fun _ _ _ => trivial) fun _ h => h.elim
  | wrmagic => exact (wrmagicBody_ends s).inTable fun ⟨hc, hinfo⟩ => ⟨congrArg Cause.code hc, hinfo⟩
  | sertree => exact (sertreeBody_ends s).inTable fun ⟨hc, hinfo⟩ => .inr ⟨congrArg Cause.code hc, hinfo⟩
  | encpay => exact (encpayBody_ends s).inTable mayRaise_of_encpayFaults
  | rdmagic => exact (rdmagicBody_ends s).inTable mayRaise_of_rdmagicFaults
  | destree => exact (destreeBody_ends s).inTable mayRaise_of_destreeFaults
  | decpay => exact (decpayBody_ends s).inTable mayRaise_of_decpayFaults
  | encode => exact (encodeBody_ends s).inTable mayRaise_of_encodeFaults
  | decode => exact (decodeBody_ends s).inTable mayRaise_of_decodeFaults

/-- A taken command that ends in `FAULT` was refused for its flag, or its body has raised. -/
theorem exec_mayRaise {i : Instr} {s t : State} (htaken : Taken i s) (h : exec i s = .next t) (ht : t.run = .fault) :
    mayRaise i t.cause t.finfo := by
  obtain ⟨hlost, rfl⟩ | ⟨-, hn, rfl⟩ | ⟨-, -, hc⟩ := exec_next h
  · obtain hr | ⟨hr, rfl⟩ := htaken
    · cases ht.symm.trans hr
    · obtain hb | ⟨-, hne⟩ := hlost
      · cases ht.symm.trans hb
      · exact absurd rfl hne
  · exact mayRaise_disabled hn
  · obtain ⟨u, -, rfl⟩ | hf := complete_next (bodyOf_mayRaise i _) hc
    · cases ht
    · exact hf

/-- Settles O10: each body by its faults, a reserved opcode by fault entry, BUILD's `INPUT_ERROR` by R127. -/
theorem faultsByCommand : Obligations.FaultsByCommand := by
  refine ⟨fun i s t htaken h ht => exec_mayRaise (htaken.imp_right And.symm) h ht, fun op s t hr h => ?_,
    fun s t hinv hr h ht => ?_⟩
  · cases (issueReserved_ready hr op).symm.trans h
    exact ⟨rfl, rfl⟩
  · obtain hready | hne := buildEmptyTable.2 s t hinv hr h
    · cases ht.symm.trans hready
    · exact hne

/-! ### The ways out of `FAULT` (R195) -/

/-- A CLR that does not fault leaves its body's normal end, whatever the ports have answered. -/
theorem exec_clr_ready {s t : State} (hr : s.run ≠ .busy) (h : exec .clr s = .next t) (ht : t.run ≠ .fault) :
    ∃ ei eo, t = { cleared s with
      run := .ready, inp := { s.inp with pos := 0, errors := ei }, out := { bits := [], errors := eo } } := by
  rw [exec_clr, issueClr_taken hr] at h
  obtain ⟨u, ⟨ei, eo, rfl⟩, rfl⟩ | hf := complete_next (clrBody_ends _) h
  · exact ⟨ei, eo, rfl⟩
  · exact absurd (raises_run hf) ht

/-- An event that leads out of `FAULT` is a reset or a CLR that is executed. -/
theorem EventEffect.leaves_fault {s t : State} {e : HostEvent} (h : EventEffect s e t) (hr : s.run = .fault)
    (ht : t.run ≠ .fault) :
    (e = .reset ∧ t = applyReset s) ∨ ∃ w, e = .write 0 w ∧ w.extractLsb' 0 8 = 0x01#8 ∧ exec .clr s = .next t := by
  cases h with
  | @command w i _ hd hexec =>
    by_cases hi : i = .clr
    · subst hi
      exact .inr ⟨w, rfl, commandByte_eq w ▸ (opcode_of_decodeOp hd).symm, hexec⟩
    · obtain rfl := Host.Outcome.next.inj ((exec_lost (.inr ⟨hr, hi⟩)).symm.trans hexec)
      exact absurd hr ht
  | illegal _ hready => cases hr.symm.trans hready
  | reset => exact .inl ⟨rfl, rfl⟩
  | _ => exact absurd hr ht

/-- Settles O12: a step that leads out of `FAULT` has taken a reset or a CLR, and both have discarded everything. -/
theorem faultLeftOnlyByClrOrReset : Obligations.FaultLeftOnlyByClrOrReset := by
  intro s t hr h ht
  obtain ⟨-, rfl⟩ | ⟨e, rest, hs, he⟩ := step_next h
  · exact absurd hr ht
  · obtain ⟨rfl, rfl⟩ | ⟨w, rfl, hw, hexec⟩ := he.leaves_fault hr ht
    · exact ⟨⟨_, rest, hs, .inl rfl⟩, rfl, rfl, rfl, rfl, rfl, rfl⟩
    · obtain ⟨ei, eo, rfl⟩ := exec_clr_ready (by simp [hr]) hexec ht
      exact ⟨⟨_, rest, hs, .inr ⟨w, rfl, hw⟩⟩, rfl, rfl, rfl, rfl, rfl, rfl⟩

/-! ### A CLR whose port fails (R196) -/

theorem clrBody_rewindError {s : State} {rest : List Bool} (he : s.inp.errors = true :: rest) :
    clrBody s = raise .ioFailure 0 ((cleared s).withInErrors rest) := by
  rw [clrBody, inRewind_error (by exact he), andThen_raise]
  rfl

theorem clrBody_outResetError {s : State} {rest : List Bool} (hi : quiet s.inp.errors)
    (he : s.out.errors = true :: rest) :
    clrBody s = raise .ioFailure 1
      { cleared s with
        inp := { s.inp with pos := 0, errors := s.inp.errors.drop 1 }, out := { s.out with errors := rest } } := by
  rw [clrBody, inRewind_quiet (by exact hi), andThen_done, outReset_error (by exact he)]
  rfl

/-- CLR is issued in `FAULT` as in `READY`, and the `raise` of its body ends it. -/
theorem exec_clr_raise {s u : State} {c : Cause} {info : Word} (hr : s.run ≠ .busy)
    (hb : clrBody { s with run := .busy } = raise c info u) : exec .clr s = .next (faultEntry c info u) := by
  rw [exec_clr, issueClr_taken hr, hb]
  rfl

/-- Settles O13: other commands are lost, and each of CLR's two accesses raises its own `IO_FAILURE`. -/
theorem clrPortFailure : Obligations.ClrPortFailure :=
  ⟨fun _ _ hr hi => exec_lost (.inr ⟨hr, hi⟩), fun s hr =>
    ⟨fun _ he => exec_clr_raise hr (clrBody_rewindError (s := { s with run := .busy }) he),
      fun _ hi he => exec_clr_raise hr (clrBody_outResetError (s := { s with run := .busy }) hi he)⟩⟩

end Sys2Proof.Machine
end

section
/-! PROOFS. Reset (R200), the environment between commands (R199, R209), the stale code table (R211), and that every
command ends (R213). -/

namespace Sys2Proof.Machine

/-! ### Every command ends (R213, R22) -/

/-- R35: a valid tree is one that `NODE` holds. -/
theorem StructInv.tree_ne_none {s : State} (h : StructInv s) (hv : s.treeV = true) : s.tree ≠ none := by
  obtain ⟨t, ht, -⟩ := h.tree hv
  simp [ht]

/-- R38: a valid code table has a cell for every symbol. -/
theorem StructInv.ct_length {s : State} (h : StructInv s) (hv : s.tabV = true) : s.ct.length = Config.nsym := by
  obtain ⟨htree, hct⟩ := h.tab hv
  obtain ⟨t, ht, -⟩ := h.tree htree
  rw [hct t ht, codeTable_length]

/-- A body whose stuck end is excluded ends the command in a next state. -/
theorem complete_next_of_not_stuck {r : Run Unit} {P : Unit → State → Prop} {E : State → Prop} {S : Prop}
    (h : r.Ends P E S) (hs : ¬ S) : ∃ t, complete r = .next t :=
  complete_total (h.mono (fun _ _ hp => hp) (fun _ he => he) hs)

/-- R22: the body of an enabled command reads only the structure whose flag it requires, which is whole. -/
theorem complete_bodyOf_next {i : Instr} {s : State} (hn : needs i s = true) (h : StructInv s) :
    ∃ t, complete (bodyOf i s) = .next t := by
  cases i with
  | build => exact complete_next_of_not_stuck (buildBody_ends s) (not_not.2 (h.table hn).1)
  | mktable => exact complete_next_of_not_stuck (mktableBody_ends s) (h.tree_ne_none hn)
  | sertree => exact complete_next_of_not_stuck (sertreeBody_ends s) (h.tree_ne_none hn)
  | decpay => exact complete_next_of_not_stuck (decpayBody_ends s) (h.tree_ne_none hn)
  | encpay => exact complete_next_of_not_stuck (encpayBody_ends s) (not_not.2 (h.ct_length hn))
  | clr => exact complete_total (clrBody_ends s)
  | count => exact complete_total (countBody_ends s)
  | wrmagic => exact complete_total (wrmagicBody_ends s)
  | rdmagic => exact complete_total (rdmagicBody_ends s)
  | destree => exact complete_total (destreeBody_ends s)
  | encode => exact complete_total (encodeBody_ends s)
  | decode => exact complete_total (decodeBody_ends s)

/-- Settles O18: a command is lost, refused for its flag, or runs a body that the invariant keeps from being stuck. -/
theorem commandsAlwaysEnd : Obligations.CommandsAlwaysEnd := by
  intro i s h
  obtain ht | hl := taken_or_lost i s
  · cases hn : needs i s with
    | true =>
      rw [exec_taken ht hn]
      exact complete_bodyOf_next ((needs_run i s .busy).trans hn) (h.sound.withRun .busy).structs
    | false =>
      obtain hr | ⟨-, rfl⟩ := ht
      · exact ⟨_, exec_disabled hr hn⟩
      · cases hn
  · exact ⟨s, exec_lost hl⟩

/-! ### The stale code table (R211) -/

/-- Settles O23: by the flags the commands leave (R25) and the refusal of a command without its flag (R173). -/
theorem newTreeInvalidatesTable : Obligations.NewTreeInvalidatesTable := by
  intro s t hr
  obtain ⟨hcount, hbuild, hdestree, -⟩ := flagsWritten s t hr
  refine ⟨fun i hi h => ?_, fun h => ?_⟩
  · have htab : t.tabV = false := by
      obtain ⟨rfl, hv⟩ | rfl := hi
      · exact (hbuild hv h).2.1
      · exact (hdestree h).2.1
    exact ⟨htab, fun ht => exec_disabled (i := .encpay) ht htab⟩
  · obtain ⟨htree, htab, -⟩ := hcount h
    exact ⟨htree, htab, fun ht => ⟨exec_disabled (i := .encpay) ht htab, exec_disabled (i := .sertree) ht htree,
      exec_disabled (i := .mktable) ht htree, exec_disabled (i := .decpay) ht htree⟩⟩

/-! ### Events at the block's edge (R199, R200, R209) -/

/-- R199: a step takes the oldest event. -/
theorem step_event {s : State} {e : HostEvent} {rest : List HostEvent} (hs : s.host = e :: rest) :
    step s = hostEvent e { s with host := rest } := by
  simp only [step, nextEvent, hs]

/-- R199: with nothing waiting the block waits. -/
theorem step_idle {s : State} (hs : s.host = []) : step s = .next s := by
  simp only [step, nextEvent, hs]

/-- R200: the reset event is taken in any state, `BUSY` included. -/
theorem step_reset {s : State} {rest : List HostEvent} (hs : s.host = .reset :: rest) :
    step s = .next (applyReset { s with host := rest }) := step_event hs

/-- The reset table of `10_state.md`: all registers but `MAGICR` read 0 in `READY` with no flag and no fault record. -/
theorem readReg_eq_zero {s : State} {reg : Nat} (hr : s.run = .ready) (hf : Flags false false false s)
    (hc : s.cause = 0) (hi : s.finfo = 0) (hreg : reg < 6) : s.readReg reg = 0 := by
  obtain ⟨hft, htree, htab⟩ := hf
  rw [readReg_stable (.inl (by simp [hr]))]
  interval_cases reg
  · rfl
  · simp [State.regValue, State.statusWord, RunState.bits, hr, hft, htree, htab]
  · simp [State.regValue, hc]
  · exact hi
  · simp [State.regValue, htree]
  · simp [State.regValue, htree]

theorem reset_readReg {reg : Nat} (hreg : reg < 6) : State.reset.readReg reg = 0 :=
  readReg_eq_zero rfl ⟨rfl, rfl, rfl⟩ rfl rfl hreg

theorem applyReset_readReg (s : State) {reg : Nat} (hreg : reg < 6) : (applyReset s).readReg reg = 0 :=
  readReg_eq_zero rfl ⟨rfl, rfl, rfl⟩ rfl rfl hreg

/-- Settles O15: the step is `applyReset`, and both reset states read their registers as the reset table gives them. -/
theorem resetFromAnyState : Obligations.ResetFromAnyState := by
  refine ⟨⟨reset_readReg (by decide), reset_readReg (by decide), reset_readReg (by decide), reset_readReg (by decide),
    reset_readReg (by decide), reset_readReg (by decide), readReg_magic _, rfl, rfl, rfl⟩, fun s rest hs => ?_⟩
  have hread {reg : Nat} (hreg : reg < 6) := applyReset_readReg { s with host := rest } hreg
  have hmagic : (applyReset { s with host := rest }).readReg 6 = s.readReg 6 := by
    rw [readReg_magic, readReg_magic, applyReset_params]
  exact ⟨_, step_reset hs, rfl, rfl, rfl, rfl, rfl, rfl, rfl, rfl, rfl, hread (by decide), hread (by decide),
    hread (by decide), hread (by decide), hread (by decide), hmagic, rfl, rfl⟩

/-- R41, R209: between commands the environment may set the input, within its length. -/
theorem setInStep_ok {s : State} {bytes : List Byte} {pos : Nat} (hr : s.run ≠ .busy) (hp : pos ≤ 8 * bytes.length) :
    setInStep bytes pos s = .next { s with inp := { s.inp with bytes := bytes, pos := pos } } :=
  (if_neg hr).trans (if_pos (decide_eq_true hp))

/-- R42, R209: between commands the environment may replace the output. -/
theorem setOutStep_ok {s : State} (bits : List Bool) (hr : s.run ≠ .busy) :
    setOutStep bits s = .next { s with out := { s.out with bits := bits } } := if_neg hr

/-- Settles O27: by the environment's two moves in and out of `BUSY`, and the step that waits. -/
theorem hostBetweenCommands : Obligations.HostBetweenCommands :=
  ⟨fun _ _ _ hr hp => setInStep_ok hr hp, fun _ bits hr => setOutStep_ok bits hr,
    fun _ _ _ _ hr => ⟨if_pos hr, if_pos hr⟩, fun _ hs => step_idle hs⟩

end Sys2Proof.Machine
end
